-- ==== Sys2Proof/Word.lean ====
section
/-! DEFINITION. The word types of the block (00_scope.md R6, R7; 30_encoding.md R90, R92, R97) and
the one small container the channel arithmetic uses. -/

namespace Sys2Proof

/-- A 32-bit unsigned word (R6); a colour is one, R in bits 31:24 down to A in bits 7:0 (R90). -/
abbrev Word32 := BitVec 32

/-- A 64-bit word (R6): the command word (R98) and the Chaotic-Noise accumulator (R39). -/
abbrev Word64 := BitVec 64

/-- A byte: a colour channel or a palette index, read unsigned (R90, R97). -/
abbrev Byte := BitVec 8

/-- A byte read as signed, two's complement (R6, R97): an error slot or a blue-noise texel. -/
abbrev SByte := BitVec 8

/-- An RGB555 key (R92). -/
abbrev Key := BitVec 15

/-- A value of format `FP`, IEEE 754 binary32, held as its bit pattern (R7). -/
structure FP where
  /-- the 32 bits: sign, 8 of exponent, 23 of fraction -/
  bits : Word32
deriving DecidableEq, Repr, Inhabited

/-- One value for each of the channels R, G, B. -/
structure Tri (α : Type) where
  r : α
  g : α
  b : α
deriving DecidableEq, Repr

/-- Apply a function to each channel. -/
def Tri.map {α β : Type} (f : α → β) (t : Tri α) : Tri β :=
  ⟨f t.r, f t.g, f t.b⟩

/-- Combine two triples channel by channel. -/
def Tri.zip {α β γ : Type} (f : α → β → γ) (t : Tri α) (u : Tri β) : Tri γ :=
  ⟨f t.r u.r, f t.g u.g, f t.b u.b⟩

/-- `clamp(i, lo, hi)` of R6. -/
def clamp (i lo hi : Int) : Int :=
  if i < lo then lo else if hi < i then hi else i

end Sys2Proof
end

