-- ==== Sys2Proof/Config.lean ====
section
/-! DEFINITION. The configuration of the block (00_scope.md R5): parameters that R5 marks OPEN are
constants with no body, so that a proof holds for every value of them; parameters with a value in R5
have that value. The free values of the assumption log stand here too. -/

namespace Sys2Proof

/-- `OKLAB_RAMP` (R5, R120): which of the two channel samples builds the Oklab table. -/
inductive OklabRamp where
  /-- `i * i / 961` -/
  | squared
  /-- the 5-bit channel replicated to 8 bits, over 255 -/
  | replicated
deriving DecidableEq, Repr

/-- `CHAOTIC_BN_STAGE` (R5, R235): which stage of the Blue-Noise adjustment REDUCE_CHAOTIC cubes. -/
inductive BnStage where
  /-- line 1 of R234 -/
  | line1
  /-- the finished adjustment of R234 -/
  | final
deriving DecidableEq, Repr

/-- The nine dither loops (R2 component C6, 90_conflicts.md C1). -/
inductive DitherMethod where
  | solid
  | floydSteinberg
  | sierraLite
  | scatter
  | jimenez
  | blueNoise
  | chaoticNoise
  | knoll
  | knollRoberts
deriving DecidableEq, Repr

/-- The operation a NaN came from, for the free bits of that NaN. -/
inductive NanSource where
  | add
  | sub
  | mul
  | div
  | floor
deriving DecidableEq, Repr

namespace Config

/-! ### Parameters marked OPEN in R5 (assumption log 10, 11, 12) -/

/-- `BNRAW`, the uniform-distribution blue-noise texture (R29, 91_not_in_source.md N1); read at 0..4095. -/
opaque bnraw : Nat → SByte

/-- `BNTRI`, the triangular-distribution blue-noise texture (R29, N1); read at 0..4095. -/
opaque bntri : Nat → SByte

/-- `HALTONIC`, the built-in 256-colour palette (R31, N2); read at 0..255. -/
opaque haltonic : Nat → Word32

/-- `TM8`, eight values each in 0..7 (R257, N4). -/
opaque tm8 : Fin 8 → Fin 8

/-- `CHAOS_SEED` (R5, N5). -/
opaque chaosSeed : Word64

/-- `Chaos3` (R235, N6), of the accumulator before and after its update; the result is read as a signed
64-bit integer. -/
opaque chaos3 : Word64 → Word64 → Word64

/-- `Numerics.exp` but for the special case of R7 (decision D6). -/
opaque expFree : FP → FP

/-- `Numerics.cbrt` but for the special case of R7. -/
opaque cbrtFree : FP → FP

/-- `Numerics.sin`, argument in radians (R7). -/
opaque sinFree : FP → FP

/-- `Numerics.pow` but for the special cases of R7. -/
opaque powFree : FP → FP → FP

/-- `MAX_W` less one. -/
opaque maxWPred : Nat

/-- `MAX_H` less one. -/
opaque maxHPred : Nat

/-- `MAX_FRAMES` less one. -/
opaque maxFramesPred : Nat

/-- `MAX_W`, at least 1 (R5). -/
def maxW : Nat := maxWPred + 1

/-- `MAX_H`, at least 1 (R5). -/
def maxH : Nat := maxHPred + 1

/-- `MAX_FRAMES`, at least 1 (R5). -/
def maxFrames : Nat := maxFramesPred + 1

/-! ### Free values the model adds -/

/-- Sign and low 22 fraction bits of the NaN an operation on two patterns answers (DESIGN CHOICE, assumption log 9). -/
opaque nanBits : NanSource → Word32 → Word32 → BitVec 23

/-- What `PB` holds after reset: R301 gives it no value (DESIGN CHOICE, assumption log 3). -/
opaque resetPb : FP

/-- What `RESF` holds after reset: R301 gives it no value (DESIGN CHOICE, assumption log 4). -/
opaque resetResf : FP

/-- What `S` holds after reset: R301 gives it no value (DESIGN CHOICE, assumption log 5). -/
opaque resetChaos : Word64

/-- The integer of the binary64 sum of R256 at a position whose sum is not finite (DESIGN CHOICE, assumption log 18). -/
opaque krOverflow : Nat → Nat → Int

/-! ### Parameters with a value in R5 (assumption log 13) -/

/-- `DIST_SCALE`, the binary32 value nearest 2^14.2 (R126, decision D4). -/
def distScale : FP := ⟨0x4693088C#32⟩

/-- `OKLAB_RAMP` (decision D5). -/
def oklabRamp : OklabRamp := .squared

/-- `SNAP_SET` (decision D22): every method but Solid. -/
def snapSet (m : DitherMethod) : Bool := m != .solid

/-- `EXIT_COUNTS_TRANSPARENT` (decision D14). -/
def exitCountsTransparent : Bool := true

/-- `CHAOTIC_BN_STAGE` (decision D28). -/
def chaoticBnStage : BnStage := .line1

/-- `DEFAULT_THRESHOLD`. -/
def defaultThreshold : Nat := 150

/-- `CHAOS_M`. -/
def chaosM : Word64 := 0xD1342543DE82EF95#64

/-- `CHAOS_K`. -/
def chaosK : Word64 := 0x91E10DA5C79E7B1D#64

/-- `TM16`, the 4 by 4 threshold matrix stored row by row (R255). -/
def tm16 : List Nat := [0, 12, 3, 15, 8, 4, 11, 7, 2, 14, 1, 13, 10, 6, 9, 5]

/-- `NET16`, the default 60-comparator network, in application order (R253). -/
def net16 : List (Nat × Nat) :=
  [(0, 13), (1, 12), (2, 15), (3, 14), (4, 8), (5, 6), (7, 11), (9, 10)] ++
  [(0, 5), (1, 7), (2, 9), (3, 4), (6, 13), (8, 14), (10, 15), (11, 12)] ++
  [(0, 1), (2, 3), (4, 5), (6, 8), (7, 9), (10, 11), (12, 13), (14, 15)] ++
  [(0, 2), (1, 3), (4, 10), (5, 11), (6, 7), (8, 9), (12, 14), (13, 15)] ++
  [(1, 2), (3, 12), (4, 6), (5, 7), (8, 10), (9, 11), (13, 14)] ++
  [(1, 4), (2, 6), (5, 8), (7, 10), (9, 13), (11, 14)] ++
  [(2, 4), (3, 6), (9, 12), (11, 13)] ++
  [(3, 5), (6, 8), (7, 9), (10, 12)] ++
  [(3, 4), (5, 6), (7, 8), (9, 10), (11, 12)] ++
  [(6, 7), (8, 9)]

/-- `NET8`, the default 19-comparator network, in application order (R254). -/
def net8 : List (Nat × Nat) :=
  [(0, 2), (1, 3), (4, 6), (5, 7)] ++
  [(0, 4), (1, 5), (2, 6), (3, 7)] ++
  [(0, 1), (2, 3), (4, 5), (6, 7)] ++
  [(2, 4), (3, 5)] ++
  [(1, 4), (3, 6)] ++
  [(1, 2), (3, 4), (5, 6)]

end Config

end Sys2Proof
end

