-- ==== Sys2Proof/Machine/Float.lean ====
section
/-! DEFINITION. IEEE 754 arithmetic in software (00_scope.md R7, R8): every operation computes its result
exactly and rounds it once, to nearest, ties to even. `FP` is binary32; the index of R256 uses binary64.
The four functions of `Numerics` and their special cases stand at the end. -/

namespace Sys2Proof

/-- An IEEE 754 binary interchange format. -/
structure FloatFormat where
  /-- bits of the fraction field -/
  frac : Nat
  /-- bits of the exponent field -/
  expo : Nat
deriving DecidableEq, Repr

/-- binary32 -/
def binary32 : FloatFormat := ⟨23, 8⟩

/-- binary64 -/
def binary64 : FloatFormat := ⟨52, 11⟩

/-- The greatest value of the exponent field: infinities and NaNs. -/
def FloatFormat.maxExpField (f : FloatFormat) : Nat := 2 ^ f.expo - 1

/-- The exponent of the last bit of a subnormal number: -149 for binary32. -/
def FloatFormat.minExp (f : FloatFormat) : Int :=
  2 - (2 ^ (f.expo - 1) : Nat) - f.frac

/-- The magnitude bits of infinity. -/
def FloatFormat.infMag (f : FloatFormat) : Nat := f.maxExpField * 2 ^ f.frac

/-- What a pattern stands for; `fin neg m e` is `m * 2^e`, negated when `neg`. -/
inductive Datum where
  | nan
  | inf (neg : Bool)
  | fin (neg : Bool) (m : Nat) (e : Int)
deriving DecidableEq, Repr

/-- Read a pattern. -/
def FloatFormat.unpack (f : FloatFormat) (bits : Nat) : Datum :=
  let fraction := bits % 2 ^ f.frac
  let expField := bits / 2 ^ f.frac % 2 ^ f.expo
  let neg := bits / 2 ^ (f.frac + f.expo) % 2 == 1
  if expField = f.maxExpField then
    if fraction = 0 then .inf neg else .nan
  else if expField = 0 then .fin neg fraction f.minExp
  else .fin neg (2 ^ f.frac + fraction) (f.minExp + expField - 1)

/-- `m / 2^s` rounded to an integer, ties to even. -/
def roundShift (m s : Nat) : Nat :=
  let q := m >>> s
  let r := m % 2 ^ s
  if 2 * r > 2 ^ s || (2 * r == 2 ^ s && q % 2 == 1) then q + 1 else q

/-- The magnitude bits of `m * 2^e` rounded into the format; past the greatest finite value, infinity. -/
def FloatFormat.roundMag (f : FloatFormat) (m : Nat) (e : Int) : Nat :=
  if m = 0 then 0
  else
    let last := max (e + m.log2 - f.frac) f.minExp
    let sig := if last ≤ e then m <<< (e - last).toNat else roundShift m (last - e).toNat
    min ((last - f.minExp).toNat * 2 ^ f.frac + sig) f.infMag

/-- The datum of a sign and magnitude bits. -/
def FloatFormat.ofMag (f : FloatFormat) (neg : Bool) (mag : Nat) : Datum :=
  match f.unpack mag with
  | .nan => .nan
  | .inf _ => .inf neg
  | .fin _ m e => .fin neg m e

/-- Round an exact result into the format. -/
def FloatFormat.round (f : FloatFormat) : Datum → Datum
  | .nan => .nan
  | .inf neg => .inf neg
  | .fin neg m e => f.ofMag neg (f.roundMag m e)

/-- The sign of a datum changed. -/
def Datum.negate : Datum → Datum
  | .nan => .nan
  | .inf neg => .inf (!neg)
  | .fin neg m e => .fin (!neg) m e

/-- `m * 2^e` with its sign, as an integer multiple of `2^lo`, for `lo ≤ e`. -/
def alignTo (lo : Int) (neg : Bool) (m : Nat) (e : Int) : Int :=
  let v : Int := ((m <<< (e - lo).toNat : Nat) : Int)
  if neg then -v else v

/-- The exact sum; an exact zero is positive unless both operands are negative zeros. -/
def Datum.add : Datum → Datum → Datum
  | .nan, _ => .nan
  | _, .nan => .nan
  | .inf a, .inf b => if a == b then .inf a else .nan
  | .inf a, .fin _ _ _ => .inf a
  | .fin _ _ _, .inf b => .inf b
  | .fin na ma ea, .fin nb mb eb =>
    let lo := min ea eb
    let t := alignTo lo na ma ea + alignTo lo nb mb eb
    if t = 0 then .fin (na && nb) 0 lo else .fin (decide (t < 0)) t.natAbs lo

/-- The exact product. -/
def Datum.mul : Datum → Datum → Datum
  | .nan, _ => .nan
  | _, .nan => .nan
  | .inf a, .inf b => .inf (xor a b)
  | .inf a, .fin nb mb _ => if mb = 0 then .nan else .inf (xor a nb)
  | .fin na ma _, .inf b => if ma = 0 then .nan else .inf (xor na b)
  | .fin na ma ea, .fin nb mb eb => .fin (xor na nb) (ma * mb) (ea + eb)

/-- The quotient with enough bits for one correct rounding into `f`: the last bit says whether a remainder
was left. -/
def FloatFormat.quotient (f : FloatFormat) : Datum → Datum → Datum
  | .nan, _ => .nan
  | _, .nan => .nan
  | .inf _, .inf _ => .nan
  | .inf a, .fin nb _ _ => .inf (xor a nb)
  | .fin na _ _, .inf b => .fin (xor na b) 0 f.minExp
  | .fin na ma ea, .fin nb mb eb =>
    if mb = 0 then
      if ma = 0 then .nan else .inf (xor na nb)
    else
      let s := 2 * f.frac + 6
      let q := (ma <<< s) / mb
      let rest := (ma <<< s) % mb
      .fin (xor na nb) (2 * q + (if rest = 0 then 0 else 1)) (ea - eb - s - 1)

/-- The largest integer not above a datum. -/
def Datum.floor : Datum → Datum
  | .nan => .nan
  | .inf neg => .inf neg
  | .fin neg m e =>
    if 0 ≤ e then .fin neg m e
    else
      let s := (-e).toNat
      let q := m >>> s
      .fin neg (if neg && !(m % 2 ^ s == 0) then q + 1 else q) 0

/-- A finite datum rounded toward zero to an integer; `none` for an infinity or a NaN. -/
def Datum.toInt? : Datum → Option Int
  | .nan => none
  | .inf _ => none
  | .fin neg m e =>
    let v : Nat := if 0 ≤ e then m <<< e.toNat else m >>> (-e).toNat
    some (if neg then -(v : Int) else (v : Int))

/-- The datum of an integer, exact. -/
def Datum.ofInt (i : Int) : Datum := .fin (decide (i < 0)) i.natAbs 0

/-! ### binary32 -/

namespace FP

/-- The pattern of a rounded datum; the bits of a NaN are free (assumption log 9). -/
def pack (src : NanSource) (a b : Word32) (d : Datum) : FP :=
  match d with
  | .nan =>
    let free := Config.nanBits src a b
    ⟨free.extractLsb' 22 1 ++ 0xFF#8 ++ 1#1 ++ free.extractLsb' 0 22⟩
  | .inf neg => ⟨BitVec.ofBool neg ++ BitVec.ofNat 31 binary32.infMag⟩
  | .fin neg m e => ⟨BitVec.ofBool neg ++ BitVec.ofNat 31 (binary32.roundMag m e)⟩

/-- What a binary32 pattern stands for. -/
def datum (a : FP) : Datum := binary32.unpack a.bits.toNat

/-- `+.` of R7. -/
def add (a b : FP) : FP := pack .add a.bits b.bits (a.datum.add b.datum)

/-- `−.` of R7. -/
def sub (a b : FP) : FP := pack .sub a.bits b.bits (a.datum.add b.datum.negate)

/-- `*.` of R7. -/
def mul (a b : FP) : FP := pack .mul a.bits b.bits (a.datum.mul b.datum)

/-- `/.` of R7. -/
def div (a b : FP) : FP := pack .div a.bits b.bits (binary32.quotient a.datum b.datum)

/-- `floor(v)` of R7. -/
def floor (a : FP) : FP := pack .floor a.bits 0#32 a.datum.floor

/-- `frac(v) = v −. floor(v)` of R7. -/
def frac (a : FP) : FP := a.sub a.floor

/-- `ofInt(i)` of R7: rounded to nearest. -/
def ofInt (i : Int) : FP := pack .add 0#32 0#32 (Datum.ofInt i)

/-- The `FP` value nearest to the decimal `n / 10^d` (R7). -/
def ofDecimal (n : Int) (d : Nat) : FP :=
  let s := 4 * d + 30
  let q := (n.natAbs <<< s) / 10 ^ d
  let rest := (n.natAbs <<< s) % 10 ^ d
  pack .div 0#32 0#32 (.fin (decide (n < 0)) (2 * q + (if rest = 0 then 0 else 1)) (-(s : Int) - 1))

/-- The `FP` value nearest to `n * 2^e`, for hexadecimal literals (R6). -/
def ofScaled (n : Int) (e : Int) : FP :=
  pack .mul 0#32 0#32 (.fin (decide (n < 0)) n.natAbs e)

/-- Positive zero. -/
def zero : FP := ⟨0#32⟩

/-- One. -/
def one : FP := ⟨0x3F800000#32⟩

/-- `+inf`. -/
def posInf : FP := ⟨0x7F800000#32⟩

/-- Neither an infinity nor a NaN. -/
def isFinite (a : FP) : Bool := a.bits.extractLsb' 23 8 != 0xFF#8

/-- A zero of either sign. -/
def isZero (a : FP) : Bool := a.bits.extractLsb' 0 31 == 0#31

/-- A NaN. -/
def isNan (a : FP) : Bool := !a.isFinite && a.bits.extractLsb' 0 23 != 0#23

/-- The sign and magnitude bits as one integer: ordered as the values are, both zeros at 0. -/
def orderKey (a : FP) : Int :=
  let mag : Int := ((a.bits.extractLsb' 0 31).toNat : Int)
  if a.bits.msb then -mag else mag

/-- `a < b`; false where either is a NaN. -/
def lt (a b : FP) : Bool := !a.isNan && !b.isNan && decide (a.orderKey < b.orderKey)

/-- `a` and `b` are equal as numbers; false where either is a NaN. -/
def eqNum (a b : FP) : Bool := !a.isNan && !b.isNan && decide (a.orderKey = b.orderKey)

/-- `trunc(v)` of R8: toward zero, saturating at the signed 32-bit limits, 0 for a NaN. -/
def trunc (a : FP) : Int :=
  match a.datum with
  | .nan => 0
  | .inf neg => if neg then -(2 ^ 31) else 2 ^ 31 - 1
  | .fin neg m e => clamp (((Datum.fin neg m e).toInt?).getD 0) (-(2 ^ 31)) (2 ^ 31 - 1)

/-! ### The record `Numerics` (R7, decision D6; assumption log 10) -/

/-- `exp`, with `exp(0) = 1`. -/
def exp (a : FP) : FP := if a.isZero then one else Config.expFree a

/-- `cbrt`, with `cbrt(0) = 0`. -/
def cbrt (a : FP) : FP := if a.isZero then zero else Config.cbrtFree a

/-- `sin`, of radians. -/
def sin (a : FP) : FP := Config.sinFree a

/-- `pow(x, y)`, with the four special cases of R7 in their order. -/
def pow (x y : FP) : FP :=
  if y.isZero then one
  else if x.isZero && lt zero y then zero
  else if x.isZero && lt y zero then posInf
  else if eqNum x one then one
  else Config.powFree x y

end FP

/-- `sbyte(i)` of R8: the low 8 bits. -/
def sbyte (i : Int) : SByte := BitVec.ofInt 8 i

/-- A byte read as signed, as an `FP` value. -/
def fpOfSByte (b : SByte) : FP := FP.ofInt b.toInt

/-- A real target converted to a channel: `clamp(trunc(v), 0, 255)` (R193). -/
def channelOf (v : FP) : Byte := BitVec.ofInt 8 (clamp v.trunc 0 255)

end Sys2Proof
end

