-- ==== Sys2Proof/Syntax.lean ====
section
/-! DEFINITION. The command set (30_encoding.md R98 to R100): one constructor per row of
spec/opcode_table.json; the algorithm selector (R104, R105) and the pseudo-commands (R107). -/

namespace Sys2Proof

/-- A command with its operands (R99, R100). `f` is a frame number, `n` a count or limit, `c` a colour. -/
inductive Instr where
  /-- SETDS: the binary32 pattern of `s` (R164) -/
  | setds (s : Word32)
  /-- EXACT: the limit `n` (R150) -/
  | exact (n : BitVec 16)
  /-- PRELOAD: the count `n` (R156) -/
  | preload (n : BitVec 16)
  /-- ANALYZE: the limit `L` and the threshold `T`, below 2^31 when well formed (R99, R157) -/
  | analyze (l : BitVec 16) (t : Word32)
  /-- SETA: a colour (R128) -/
  | seta (c : Word32)
  /-- SHRINK: a colour (R129) -/
  | shrink (c : Word32)
  /-- STRETCH: a key (R130) -/
  | stretch (k : Key)
  /-- DIFF: a colour (R131) -/
  | diff (c : Word32)
  /-- DIFF3: three channels (R132) -/
  | diff3 (r g b : Byte)
  /-- REDUCE: a frame and a selector (R196) -/
  | reduce (f : BitVec 16) (sel : Word32)
  /-- REDUCE_SOLID (R197) -/
  | reduceSolid (f : BitVec 16)
  /-- REDUCE_FS, Floyd-Steinberg (R213) -/
  | reduceFs (f : BitVec 16)
  /-- REDUCE_SIERRA, Sierra Lite (R214) -/
  | reduceSierra (f : BitVec 16)
  /-- REDUCE_SCATTER (R215) -/
  | reduceScatter (f : BitVec 16)
  /-- REDUCE_JIMENEZ (R231) -/
  | reduceJimenez (f : BitVec 16)
  /-- REDUCE_BLUE, Blue-Noise (R233) -/
  | reduceBlue (f : BitVec 16)
  /-- REDUCE_CHAOTIC, Chaotic-Noise (R235) -/
  | reduceChaotic (f : BitVec 16)
  /-- REDUCE_KNOLL (R250) -/
  | reduceKnoll (f : BitVec 16)
  /-- REDUCE_KNOLLR, Knoll-Roberts (R257) -/
  | reduceKnollr (f : BitVec 16)
deriving DecidableEq, Repr

/-- The algorithm enumeration of R104. -/
inductive Algorithm where
  | none
  | gradientNoise
  | pattern
  | chaoticNoise
  | diffusion
  | blueNoise
  | scatter
deriving DecidableEq, Repr

/-- The value R104 gives each name. -/
def Algorithm.value : Algorithm → Word32
  | .none => 0#32
  | .gradientNoise => 1#32
  | .pattern => 2#32
  | .chaoticNoise => 3#32
  | .diffusion => 4#32
  | .blueNoise => 5#32
  | .scatter => 6#32

/-- `EXACT` with no operand (R107). -/
def Instr.exactDefault : Instr := .exact 256#16

/-- `ANALYZE L` with no threshold (R107). -/
def Instr.analyzeLimit (l : BitVec 16) : Instr :=
  .analyze l (BitVec.ofNat 32 Config.defaultThreshold)

/-- `ANALYZE` with no operand (R107). -/
def Instr.analyzeDefault : Instr := Instr.analyzeLimit 256#16

/-- `REDUCE f, <name>` (R107). -/
def Instr.reduceByName (f : BitVec 16) (a : Algorithm) : Instr := .reduce f a.value

end Sys2Proof
end

