-- ==== Sys2Proof/Machine/Operands.lean ====
section
/-! DEFINITION. Colour formats (30_encoding.md R90 to R96), the index forms (20_memory.md R69) and the
selector (R104, R105). All pure functions. -/

namespace Sys2Proof.Machine

open Sys2Proof

/-! ### Colours and keys -/

/-- `R(c)` (R9). -/
def redOf (c : Word32) : Byte := c.extractLsb' 24 8

/-- `G(c)` (R9). -/
def greenOf (c : Word32) : Byte := c.extractLsb' 16 8

/-- `B(c)` (R9). -/
def blueOf (c : Word32) : Byte := c.extractLsb' 8 8

/-- `A(c)` (R9). -/
def alphaOf (c : Word32) : Byte := c.extractLsb' 0 8

/-- The three colour channels of a word. -/
def rgbOf (c : Word32) : Tri Byte := ⟨redOf c, greenOf c, blueOf c⟩

/-- `rgba(r, g, b, a)` (R9). -/
def rgba (r g b a : Byte) : Word32 := r ++ g ++ b ++ a

/-- The top five bits of a channel, `v >>> 3` (R92). -/
def top5 (v : Byte) : BitVec 5 := v.extractLsb' 3 5

/-- `key3(r, g, b)` (R69). -/
def key3 (r g b : Byte) : Key := top5 r ++ top5 g ++ top5 b

/-- The key of a triple of channels. -/
def keyOf (t : Tri Byte) : Key := key3 t.r t.g t.b

/-- `shrink(c)`, colour to key; alpha is dropped (R93). -/
def shrink (c : Word32) : Key := key3 (redOf c) (greenOf c) (blueOf c)

/-- `up5(v) = (v << 3) | (v >>> 2)` (R94). -/
def up5 (v : BitVec 5) : Byte := (v.setWidth 8 <<< 3) ||| (v.setWidth 8 >>> 2)

/-- The three 5-bit fields of a key (R92). -/
def keyRed (k : Key) : BitVec 5 := k.extractLsb' 10 5

/-- The green field of a key (R92). -/
def keyGreen (k : Key) : BitVec 5 := k.extractLsb' 5 5

/-- The blue field of a key (R92). -/
def keyBlue (k : Key) : BitVec 5 := k.extractLsb' 0 5

/-- `stretch(k)`, key to colour (R94). -/
def stretch (k : Key) : Word32 := rgba (up5 (keyRed k)) (up5 (keyGreen k)) (up5 (keyBlue k)) 0xFF#8

/-- `snap(c)`, the dithers' preprocessing (R95). -/
def snap (c : Word32) : Word32 :=
  let c1 := c &&& 0xF8F8F880#32
  c1 ||| ((c1 >>> 5) &&& 0x07070700#32) ||| 0xFF#32

/-- `asnap(c)`, the analysis snap: no masking first (R96, 90_conflicts.md C8). -/
def asnap (c : Word32) : Word32 :=
  c ||| ((c >>> 5) &&& 0x07070700#32) ||| 0xFF#32

/-- The bytes of a colour in a byte-addressed frame or a stored palette, lowest address first: R, G, B, A (R65). -/
def colourBytes (c : Word32) : List Byte := [redOf c, greenOf c, blueOf c, alphaOf c]

/-! ### Index forms -/

/-- `bn(x, y)` (R69). -/
def bnIndex (x y : Nat) : Nat := (x &&& 63) ||| ((y &&& 63) <<< 6)

/-- `bn2(x, y)` (R69). -/
def bn2Index (x y : Nat) : Nat := ((19 * x) &&& 63) ||| (((23 * y) &&& 63) <<< 6)

/-- `tm16(x, y)` (R69). -/
def tm16Index (x y : Nat) : Nat := (x &&& 3) ||| ((y &&& 3) <<< 2)

/-- A product or sum of binary64 data, rounded (R256). -/
def round64 (d : Datum) : Datum := binary64.round d

/-- `KR_C1`, the binary64 value nearest `0x1.C13FA9A902A6328Fp3` (R256). -/
def krC1 : Datum := round64 (.fin false 0x1C13FA9A902A6328F (-61))

/-- `KR_C2`, the binary64 value nearest `0x1.9E3779B97F4A7C15p-2` (R256). -/
def krC2 : Datum := round64 (.fin false 0x19E3779B97F4A7C15 (-66))

/-- `int(floor64((ofInt64(x) *64 KR_C1) +64 (ofInt64(y) *64 KR_C2)))` (R256); the sum is finite in any frame a
binary64 value can count, and the integer is free beyond (assumption log 18). -/
def krFloor (x y : Nat) : Int :=
  let px := round64 ((round64 (Datum.ofInt x)).mul krC1)
  let py := round64 ((round64 (Datum.ofInt y)).mul krC2)
  ((round64 (px.add py)).floor.toInt?).getD (Config.krOverflow x y)

/-- `kr(x, y)`, the Knoll-Roberts index, 0..7 (R69, R256). -/
def krIndex (x y : Nat) : Nat :=
  (BitVec.ofInt 2 (krFloor x y)).toNat ^^^ ((x &&& 3) ||| ((y &&& 1) <<< 2))

/-! ### The selector -/

/-- The name of a selector value; unknown values are SCATTER (R104, R105). -/
def algorithmOf (sel : Word32) : Algorithm :=
  match sel.toNat with
  | 0 => .none
  | 1 => .gradientNoise
  | 2 => .pattern
  | 3 => .chaoticNoise
  | 4 => .diffusion
  | 5 => .blueNoise
  | _ => .scatter

/-- The method each name selects (R104). -/
def methodOf (a : Algorithm) : DitherMethod :=
  match a with
  | .none => .solid
  | .gradientNoise => .jimenez
  | .pattern => .knoll
  | .chaoticNoise => .chaoticNoise
  | .diffusion => .floydSteinberg
  | .blueNoise => .blueNoise
  | .scatter => .scatter

end Sys2Proof.Machine
end

