-- ==== Sys2Proof/WellFormed.lean ====
section
/-! DEFINITION. Which terms of `Instr` some command word spells (30_encoding.md R99). Every operand but
the ANALYZE threshold has a type of exactly its field's width. -/

namespace Sys2Proof

/-- The threshold of an ANALYZE is below 2^31 (R99); the other commands have no condition. -/
def Instr.wellFormed (i : Instr) : Bool :=
  match i with
  | .setds _ => true
  | .exact _ => true
  | .preload _ => true
  | .analyze _ t => decide (t.toNat < 2 ^ 31)
  | .seta _ => true
  | .shrink _ => true
  | .stretch _ => true
  | .diff _ => true
  | .diff3 _ _ _ => true
  | .reduce _ _ => true
  | .reduceSolid _ => true
  | .reduceFs _ => true
  | .reduceSierra _ => true
  | .reduceScatter _ => true
  | .reduceJimenez _ => true
  | .reduceBlue _ => true
  | .reduceChaotic _ => true
  | .reduceKnoll _ => true
  | .reduceKnollr _ => true

end Sys2Proof
end

