-- ==== Sys2Proof/Decode.lean ====
section
/-! DEFINITION. Decoding a command word (30_encoding.md R98 to R103), total, with a named reason for
each reserved word; and the encoder, from the same table of fields. -/

namespace Sys2Proof

/-- Why a 64-bit word spells no command (R102). -/
inductive DecodeError where
  /-- `OPC` is no opcode of R100 -/
  | reservedOpcode
  /-- the `Z` field is not zero -/
  | nonzeroZ
  /-- a field, or part of a field, the command does not use is not zero -/
  | nonzeroField
deriving DecidableEq, Repr

/-- `OPC`, bits 63:56 (R98). -/
def opcField (w : Word64) : BitVec 8 := w.extractLsb' 56 8

/-- `Z`, bits 55:48 (R98). -/
def zField (w : Word64) : BitVec 8 := w.extractLsb' 48 8

/-- `A`, bits 47:32 (R98). -/
def aField (w : Word64) : BitVec 16 := w.extractLsb' 32 16

/-- `IMM`, bits 31:0 (R98). -/
def immField (w : Word64) : Word32 := w.extractLsb' 0 32

/-- Answer `i` if the must-be-zero fields are zero (R102). -/
def whenZero (ok : Bool) (i : Instr) : Except DecodeError Instr :=
  if ok then .ok i else .error .nonzeroField

/-- The command of a word whose `Z` field is zero, from its other three fields (R99, R100). -/
def decodeFields (opc : BitVec 8) (a : BitVec 16) (imm : Word32) : Except DecodeError Instr :=
  match opc.toNat with
  | 0x01 => whenZero (a == 0#16) (.setds imm)
  | 0x02 => whenZero (imm == 0#32) (.exact a)
  | 0x03 => whenZero (imm == 0#32) (.preload a)
  | 0x04 => whenZero (decide (imm.toNat < 2 ^ 31)) (.analyze a imm)
  | 0x08 => whenZero (a == 0#16) (.seta imm)
  | 0x09 => whenZero (a == 0#16) (.shrink imm)
  | 0x0A => whenZero (a == 0#16 && imm.extractLsb' 15 17 == 0#17) (.stretch (imm.extractLsb' 0 15))
  | 0x0B => whenZero (a == 0#16) (.diff imm)
  | 0x0C => whenZero (a == 0#16 && imm.extractLsb' 24 8 == 0#8)
      (.diff3 (imm.extractLsb' 16 8) (imm.extractLsb' 8 8) (imm.extractLsb' 0 8))
  | 0x10 => .ok (.reduce a imm)
  | 0x11 => whenZero (imm == 0#32) (.reduceSolid a)
  | 0x12 => whenZero (imm == 0#32) (.reduceFs a)
  | 0x13 => whenZero (imm == 0#32) (.reduceSierra a)
  | 0x14 => whenZero (imm == 0#32) (.reduceScatter a)
  | 0x15 => whenZero (imm == 0#32) (.reduceJimenez a)
  | 0x16 => whenZero (imm == 0#32) (.reduceBlue a)
  | 0x17 => whenZero (imm == 0#32) (.reduceChaotic a)
  | 0x18 => whenZero (imm == 0#32) (.reduceKnoll a)
  | 0x19 => whenZero (imm == 0#32) (.reduceKnollr a)
  | _ => .error .reservedOpcode

/-- Decode a command word: total, one command or a reason (R103). -/
def decode (w : Word64) : Except DecodeError Instr :=
  if zField w == 0#8 then decodeFields (opcField w) (aField w) (immField w) else .error .nonzeroZ

/-- The opcode of a command (R100). -/
def opcodeOf (i : Instr) : BitVec 8 :=
  match i with
  | .setds _ => 0x01#8
  | .exact _ => 0x02#8
  | .preload _ => 0x03#8
  | .analyze _ _ => 0x04#8
  | .seta _ => 0x08#8
  | .shrink _ => 0x09#8
  | .stretch _ => 0x0A#8
  | .diff _ => 0x0B#8
  | .diff3 _ _ _ => 0x0C#8
  | .reduce _ _ => 0x10#8
  | .reduceSolid _ => 0x11#8
  | .reduceFs _ => 0x12#8
  | .reduceSierra _ => 0x13#8
  | .reduceScatter _ => 0x14#8
  | .reduceJimenez _ => 0x15#8
  | .reduceBlue _ => 0x16#8
  | .reduceChaotic _ => 0x17#8
  | .reduceKnoll _ => 0x18#8
  | .reduceKnollr _ => 0x19#8

/-- The operand `A` of a command, 0 where it has none (R99, R100). -/
def operandA (i : Instr) : BitVec 16 :=
  match i with
  | .setds _ => 0#16
  | .exact n => n
  | .preload n => n
  | .analyze l _ => l
  | .seta _ => 0#16
  | .shrink _ => 0#16
  | .stretch _ => 0#16
  | .diff _ => 0#16
  | .diff3 _ _ _ => 0#16
  | .reduce f _ => f
  | .reduceSolid f => f
  | .reduceFs f => f
  | .reduceSierra f => f
  | .reduceScatter f => f
  | .reduceJimenez f => f
  | .reduceBlue f => f
  | .reduceChaotic f => f
  | .reduceKnoll f => f
  | .reduceKnollr f => f

/-- The operand `IMM` of a command, 0 where it has none (R99, R100). -/
def operandImm (i : Instr) : Word32 :=
  match i with
  | .setds s => s
  | .exact _ => 0#32
  | .preload _ => 0#32
  | .analyze _ t => t
  | .seta c => c
  | .shrink c => c
  | .stretch k => 0#17 ++ k
  | .diff c => c
  | .diff3 r g b => 0#8 ++ r ++ g ++ b
  | .reduce _ sel => sel
  | .reduceSolid _ => 0#32
  | .reduceFs _ => 0#32
  | .reduceSierra _ => 0#32
  | .reduceScatter _ => 0#32
  | .reduceJimenez _ => 0#32
  | .reduceBlue _ => 0#32
  | .reduceChaotic _ => 0#32
  | .reduceKnoll _ => 0#32
  | .reduceKnollr _ => 0#32

/-- The word of a well-formed command: `OPC`, `Z` = 0, `A`, `IMM` (R98). -/
def encode (i : Instr) : Word64 :=
  opcodeOf i ++ 0#8 ++ operandA i ++ operandImm i

/-- A row of the opcode table: the words that select it are those with `w &&& mask = pattern` (R103). -/
structure TableRow where
  opcode : BitVec 8
  pattern : Word64
  mask : Word64
deriving DecidableEq, Repr

/-- The rows of spec/opcode_table.json, in its order. -/
def commandTable : List TableRow :=
  [⟨0x01#8, 0x0100000000000000#64, 0xFFFFFFFF00000000#64⟩,
   ⟨0x02#8, 0x0200000000000000#64, 0xFFFF0000FFFFFFFF#64⟩,
   ⟨0x03#8, 0x0300000000000000#64, 0xFFFF0000FFFFFFFF#64⟩,
   ⟨0x04#8, 0x0400000000000000#64, 0xFFFF000080000000#64⟩,
   ⟨0x08#8, 0x0800000000000000#64, 0xFFFFFFFF00000000#64⟩,
   ⟨0x09#8, 0x0900000000000000#64, 0xFFFFFFFF00000000#64⟩,
   ⟨0x0A#8, 0x0A00000000000000#64, 0xFFFFFFFFFFFF8000#64⟩,
   ⟨0x0B#8, 0x0B00000000000000#64, 0xFFFFFFFF00000000#64⟩,
   ⟨0x0C#8, 0x0C00000000000000#64, 0xFFFFFFFFFF000000#64⟩,
   ⟨0x10#8, 0x1000000000000000#64, 0xFFFF000000000000#64⟩,
   ⟨0x11#8, 0x1100000000000000#64, 0xFFFF0000FFFFFFFF#64⟩,
   ⟨0x12#8, 0x1200000000000000#64, 0xFFFF0000FFFFFFFF#64⟩,
   ⟨0x13#8, 0x1300000000000000#64, 0xFFFF0000FFFFFFFF#64⟩,
   ⟨0x14#8, 0x1400000000000000#64, 0xFFFF0000FFFFFFFF#64⟩,
   ⟨0x15#8, 0x1500000000000000#64, 0xFFFF0000FFFFFFFF#64⟩,
   ⟨0x16#8, 0x1600000000000000#64, 0xFFFF0000FFFFFFFF#64⟩,
   ⟨0x17#8, 0x1700000000000000#64, 0xFFFF0000FFFFFFFF#64⟩,
   ⟨0x18#8, 0x1800000000000000#64, 0xFFFF0000FFFFFFFF#64⟩,
   ⟨0x19#8, 0x1900000000000000#64, 0xFFFF0000FFFFFFFF#64⟩]

/-- The command the decoder reads from a table word: the low `nbits` bits of `w`, the bits above them zero;
there is no word longer than 64 bits (R98). -/
def decodeTableWord (nbits w : Nat) : Option Instr :=
  if nbits ≤ 64 then
    match decode (BitVec.ofNat 64 (w % 2 ^ nbits)) with
    | .ok i => some i
    | .error _ => none
  else none

end Sys2Proof
end

