-- ==== Sys2Proof/Machine/State.lean ====
section
/-! DEFINITION. The architectural state (10_state.md), what HOST owns (R41 to R43), the actions HOST has
pending (assumption log 1), the reasons a step can stop, and the state after reset
(70_reset_and_hazards.md R300). Plain data throughout. -/

namespace Sys2Proof.Machine

open Sys2Proof

/-- A space of entries by index (20_memory.md R60), holding the entries that are present; canonical when the
indices strictly rise. -/
abbrev Store (α : Type) := List (Nat × α)

/-- A space of `w`-bit entries by index. An index that is not listed reads as 0 (assumption log 2); canonical
when the indices strictly rise and no listed entry is 0. `Memory 8` is a list of `Host.Cell`. -/
abbrev Memory (w : Nat) := Store (BitVec w)

/-- A frame's blending mode (R41, R64): `replace`, or another one, which is an opaque value that is preserved
(assumption log 15). -/
inductive Blend where
  | replace
  | other (n : Nat)
deriving DecidableEq, Repr

/-- A present frame (R41) with its index plane (R42). Pixel `(x, y)` is entry `y * width + x` of `px`, its index
the same entry of `idx` (R63). -/
structure Frame where
  /-- `W` -/
  width : Nat
  /-- `H` -/
  height : Nat
  /-- the blending mode -/
  blend : Blend
  /-- the pixels -/
  px : Memory 32
  /-- the index plane `IDX[f]` -/
  idx : Memory 8
deriving DecidableEq, Repr

/-- The three rows of one of `CUR`, `NEXT` (R37); a row's length is its capacity. -/
abbrev ErrorRows := Tri (List SByte)

/-- The dither working state (R37, R39). -/
structure Work where
  /-- `CUR[ch]` -/
  cur : ErrorRows
  /-- `NEXT[ch]` -/
  next : ErrorRows
  /-- `S`, the Chaotic-Noise accumulator -/
  chaos : Word64
deriving DecidableEq, Repr

/-- What HOST can do between commands (R41 to R43, R280, R303): issue a command word, or write state it owns. -/
inductive HostAction where
  /-- issue a command word (R98) -/
  | issue (w : Word64)
  /-- place a frame with its index plane in slot `f`, or make the slot absent (R41, R42) -/
  | putFrame (f : Nat) (fr : Option Frame)
  /-- set `NFRM` (R41) -/
  | setNfrm (n : Nat)
  /-- fill or take away `IN` (R43) -/
  | putInput (src : Option (List Word32))
  /-- fill or take away `INMAP` (R43) -/
  | putInMap (m : Option (Memory 8))
deriving DecidableEq, Repr

/-- The state of one ENGINE and of what HOST owns. -/
structure State where
  /-- `CC`, the colour count (R20) -/
  cc : BitVec 9
  /-- `PB`, the population bias (R21) -/
  pb : FP
  /-- `DS`, the dither strength (R22) -/
  ds : FP
  /-- `VALID` (R23) -/
  valid : Bool
  /-- `OPA` (R25) -/
  opa : Word32
  /-- `RES` (R25) -/
  res : Word32
  /-- `RESF` (R25) -/
  resf : FP
  /-- `PAL`, 256 colours (R33) -/
  pal : Memory 32
  /-- `MAP`, 32 768 palette indices (R34) -/
  map : Memory 8
  /-- `GAM`, 256 colours (R35) -/
  gam : Memory 32
  /-- the error rows and `S` (R37, R39) -/
  work : Work
  /-- `FRM` and `IDX`, the present frames by slot (R41, R42) -/
  frm : Store Frame
  /-- `NFRM` (R41) -/
  nfrm : Nat
  /-- `IN`; `INLEN` is its length (R43) -/
  input : Option (List Word32)
  /-- `INMAP` (R43) -/
  inMap : Option (Memory 8)
  /-- what HOST will do next, oldest first: the model's own field (assumption log 1) -/
  host : List HostAction
deriving DecidableEq, Repr

/-- A step never faults: the block raises no exception (60_exceptions.md R270), so there is no constructor. -/
inductive Fault where
deriving DecidableEq, Repr

/-- Why a step has no next state (R10, R275). Each is safe: nothing is claimed of a state after it. -/
inductive Refusal where
  /-- raised by an arm of `exec` whose command has no meaning yet (none is left); safe -/
  | notModelled (mnemonic : String)
  /-- `Invalid` of R275, raised by `step` on a reserved word, and by ANALYZE on a threshold no word spells; safe -/
  | invalid (why : DecodeError)
  /-- `NotLoaded` of R275, raised by every REDUCE command while `VALID` is 0; safe -/
  | notLoaded
  /-- `OperandRange` of R275, raised by the commands and operands listed there; safe -/
  | operandRange
  /-- `FrameAbsent` of R275, raised by ANALYZE; safe -/
  | frameAbsent
  /-- `Capacity` of R275, raised when HOST places a frame larger than `MAX_W` by `MAX_H`; safe -/
  | capacity
  /-- raised when HOST does what R278 and R310 assume it does not: a slot or count past `MAX_FRAMES`, entries outside
  a frame or outside `INMAP`, a store not in canonical form; safe -/
  | hostAssumption
deriving DecidableEq, Repr

/-- One step's outcome. -/
abbrev Result := Host.Outcome State Fault Refusal

/-- The dither working state after reset: rows of capacity 0 (R300), `S` with a free value (assumption log 5). -/
def Work.reset : Work where
  cur := ⟨[], [], []⟩
  next := ⟨[], [], []⟩
  chaos := Config.resetChaos

/-- The state after reset (R300). `PB`, `RESF` and `S` hold free values (assumption log 3, 4, 5); HOST has
placed nothing and issued nothing (assumption log 6). -/
def State.reset : State where
  cc := 0#9
  pb := Config.resetPb
  ds := ⟨0x3F000000#32⟩
  valid := false
  opa := 0#32
  res := 0#32
  resf := Config.resetResf
  pal := []
  map := []
  gam := []
  work := Work.reset
  frm := []
  nfrm := 0
  input := none
  inMap := none
  host := []

/-! ### Updates: each meaning changes State through one of these -/

/-- `OPA <- v` -/
def State.setOpa (s : State) (v : Word32) : State := { s with opa := v }

/-- `RES <- v` -/
def State.setRes (s : State) (v : Word32) : State := { s with res := v }

/-- `RESF <- v` -/
def State.setResf (s : State) (v : FP) : State := { s with resf := v }

/-- `DS <- v`, with the `GAM` computed from it (R164). -/
def State.setStrength (s : State) (v : FP) (g : Memory 32) : State := { s with ds := v, gam := g }

/-- A completed palette load: `PAL`, `MAP`, `CC`, `PB`, `GAM`, and `VALID` set (R152, R153). -/
def State.setPalette (s : State) (pal : Memory 32) (map : Memory 8) (cc : BitVec 9) (pb : FP) (gam : Memory 32) : State :=
  { s with pal := pal, map := map, cc := cc, pb := pb, gam := gam, valid := true }

/-- The frame store and the dither working state a REDUCE leaves (R195). -/
def State.setDithered (s : State) (frm : Store Frame) (wk : Work) : State := { s with frm := frm, work := wk }

/-- The HOST actions still pending. -/
def State.setHost (s : State) (l : List HostAction) : State := { s with host := l }

/-- HOST's write of the frame store. -/
def State.setFrames (s : State) (frm : Store Frame) : State := { s with frm := frm }

/-- HOST's write of `NFRM`. -/
def State.setNfrm (s : State) (n : Nat) : State := { s with nfrm := n }

/-- HOST's write of `IN`. -/
def State.setInput (s : State) (src : Option (List Word32)) : State := { s with input := src }

/-- HOST's write of `INMAP`. -/
def State.setInMap (s : State) (m : Option (Memory 8)) : State := { s with inMap := m }

end Sys2Proof.Machine
end

