-- ==== Sys2Proof/Machine/Flags.lean ====
section
/-! DEFINITION. The Boolean facts the rules test (10_state.md R26). The block has no condition code and no
status flag that a command sets; `VALID` is a field of State. -/

namespace Sys2Proof.Machine

open Sys2Proof

/-- `opaque(c)`: bit 7 of the word, the only alpha signal (R91). -/
def isOpaque (c : Word32) : Bool := c.getLsbD 7

/-- The alpha bits of two colours disagree: `((c1 ^ c2) & 0x80) != 0` (R124). -/
def alphaDisagrees (c1 c2 : Word32) : Bool := ((c1 ^^^ c2) &&& 0x80#32) != 0#32

end Sys2Proof.Machine
end

