-- ==== Sys2Proof/Machine/Ops.lean ====
section
/-! DEFINITION. The named operations over the spaces of 20_memory.md R60: sparse stores and memories, the
palette store's reads, the frame interface (R61 to R64). There is no exception to take and none to return
from (60_exceptions.md R270, R277), so no operation for either. -/

namespace Sys2Proof.Machine

open Sys2Proof

/-! ### Stores: lists of entries by strictly rising index -/

/-- The entry at an index. -/
def Store.find {α : Type} : Store α → Nat → Option α
  | [], _ => none
  | (k, v) :: rest, i => if i = k then some v else Store.find rest i

/-- Put an entry at an index, replacing what was there. -/
def Store.put {α : Type} : Store α → Nat → α → Store α
  | [], i, v => [(i, v)]
  | (k, u) :: rest, i, v =>
    if i < k then (i, v) :: (k, u) :: rest
    else if i = k then (i, v) :: rest
    else (k, u) :: Store.put rest i v

/-- Take away the entry at an index. -/
def Store.drop {α : Type} : Store α → Nat → Store α
  | [], _ => []
  | (k, u) :: rest, i =>
    if i < k then (k, u) :: rest
    else if i = k then rest
    else (k, u) :: Store.drop rest i

/-- Every index is at least `lo` and below `n`, and the indices strictly rise. -/
def Store.risingFrom {α : Type} (n : Nat) : Nat → Store α → Bool
  | _, [] => true
  | lo, (k, _) :: rest => decide (lo ≤ k) && decide (k < n) && Store.risingFrom n (k + 1) rest

/-- The canonical form of a store of `n` places. -/
def Store.wf {α : Type} (n : Nat) (m : Store α) : Bool := Store.risingFrom n 0 m

/-! ### Memories: stores of words whose unlisted entries read 0 -/

/-- Read entry `i`; an unlisted entry reads 0. -/
def Memory.read {w : Nat} (m : Memory w) (i : Nat) : BitVec w := (Store.find m i).getD 0#w

/-- Write entry `i`; writing 0 takes the entry off the list. -/
def Memory.write {w : Nat} (m : Memory w) (i : Nat) (v : BitVec w) : Memory w :=
  if v = 0#w then Store.drop m i else Store.put m i v

/-- The memory of `n` entries whose entry `i` is `f i`. -/
def Memory.ofFn {w : Nat} (n : Nat) (f : Nat → BitVec w) : Memory w :=
  (List.range n).filterMap (fun i =>
    let v := f i
    if v = 0#w then none else some (i, v))

/-- The canonical form of a memory of `n` entries: indices strictly rising and below `n`, no listed entry 0. -/
def Memory.wf {w : Nat} (n : Nat) (m : Memory w) : Bool :=
  Store.wf n m && m.all (fun e => e.2 != 0#w)

/-! ### The palette store -/

/-- Entries of `PAL` and `GAM` (R60). -/
def palSize : Nat := 256

/-- Entries of `MAP` and `INMAP`, one per key (R60). -/
def mapSize : Nat := 32768

/-- `PAL[i]` (R33). -/
def palAt (s : State) (i : Nat) : Word32 := Memory.read s.pal i

/-- `MAP[k]`, the index of a key, read unsigned (R34, R69). -/
def mapAt (s : State) (k : Key) : Byte := Memory.read s.map k.toNat

/-- `GAM[i]` (R35). -/
def gamAt (s : State) (i : Nat) : Word32 := Memory.read s.gam i

/-- The reserved predicate, `PAL[0] == 0` (R27). -/
def reserved (s : State) : Bool := palAt s 0 == 0#32

/-- The palette lookup of three channels: `MAP[key3(r, g, b)]` (R193). -/
def lookup (s : State) (t : Tri Byte) : Byte := mapAt s (keyOf t)

/-- `str = DS *. PB` (R192). -/
def strength (s : State) : FP := s.ds.mul s.pb

/-! ### The frame interface -/

/-- `FRM[f]`; `none` is an absent slot, the null frame (R41). -/
def frameAt (s : State) (f : Nat) : Option Frame := Store.find s.frm f

/-- The place of pixel `(x, y)` in a frame's pixel array (R63). -/
def pixelIndex (fr : Frame) (x y : Nat) : Nat := y * fr.width + x

/-- `get_pixel(f, x, y)` (R61). -/
def getPixel (fr : Frame) (x y : Nat) : Word32 := Memory.read fr.px (pixelIndex fr x y)

/-- The byte of the index plane at `(x, y)` (R42). -/
def getIndex (fr : Frame) (x y : Nat) : Byte := Memory.read fr.idx (pixelIndex fr x y)

/-- `set_pixel(f, x, y, v, i)`: the store replaces, and the index is written with the pixel (R62). -/
def setPixel (fr : Frame) (x y : Nat) (v : Word32) (i : Byte) : Frame :=
  { fr with px := Memory.write fr.px (pixelIndex fr x y) v, idx := Memory.write fr.idx (pixelIndex fr x y) i }

/-- `FRM[f].blend <- b` (R64). -/
def setBlend (fr : Frame) (b : Blend) : Frame := { fr with blend := b }

/-- A frame as R41 has it: within `MAX_W` by `MAX_H`. -/
def Frame.inBounds (fr : Frame) : Bool := decide (fr.width ≤ Config.maxW) && decide (fr.height ≤ Config.maxH)

/-- A frame's pixels and indices are those of its `W * H` places, in canonical form (R63, R278). -/
def Frame.wf (fr : Frame) : Bool :=
  Memory.wf (fr.width * fr.height) fr.px && Memory.wf (fr.width * fr.height) fr.idx

/-! ### Rows of the diffusion dithers -/

/-- Entry `x` of an error row, read signed (R37). -/
def rowAt (row : List SByte) (x : Nat) : Int := (row.getD x 0#8).toInt

/-- A row grown to `w` entries if it is shorter, with entries `0 .. w-1` zero (R211). -/
def zeroRow (w : Nat) (row : List SByte) : List SByte := List.replicate w 0#8 ++ row.drop w

/-- `acc(ROW, ch, x, dv, w)` on one row (R216). -/
def accumulate (row : List SByte) (x : Nat) (dv : Int) (w : FP) : List SByte :=
  row.set x (sbyte ((FP.ofInt (rowAt row x)).add ((FP.ofInt dv).mul w)).trunc)

end Sys2Proof.Machine
end

