-- ==== Sys2Proof/Machine/Metric.lean ====
section
/-! DEFINITION. The read-only tables and the perceptual distance (40_color_metric.md R120 to R127): the Oklab
table, the distances, the blue-noise textures and multipliers, the Haltonic palette. -/

namespace Sys2Proof.Machine

open Sys2Proof

/-- The Oklab coordinates of a key: one entry of each of `OKL_L`, `OKL_A`, `OKL_B` (R28). -/
structure Lab where
  l : FP
  a : FP
  b : FP
deriving DecidableEq, Repr

/-- The channel sample of the Oklab table (R120), in the form `OKLAB_RAMP` names (decision D5). -/
def ramp (i : BitVec 5) : FP :=
  match Config.oklabRamp with
  | .squared => (FP.ofInt (i.toNat * i.toNat)).div (FP.ofInt 961)
  | .replicated => (FP.ofInt (up5 i).toNat).div (FP.ofInt 255)

/-- `((c1 *. x) +. (c2 *. y)) +. (c3 *. z)`, the coefficients in ten-millionths (R121). -/
def weightedSum (c1 c2 c3 : Int) (x y z : FP) : FP :=
  (((FP.ofDecimal c1 7).mul x).add ((FP.ofDecimal c2 7).mul y)).add ((FP.ofDecimal c3 7).mul z)

/-- The Oklab coordinates of linear channels (R121). -/
def oklabOf (rf gf bf : FP) : Lab :=
  let l := (weightedSum 4121656 5362752 514576 rf gf bf).cbrt
  let m := (weightedSum 2118591 6807190 1074066 rf gf bf).cbrt
  let s := (weightedSum 883098 2818474 6302614 rf gf bf).cbrt
  { l := (((FP.ofDecimal 2104543 7).mul l).add ((FP.ofDecimal 7936178 7).mul m)).sub ((FP.ofDecimal 40720 7).mul s)
    a := (((FP.ofDecimal 19779985 7).mul l).sub ((FP.ofDecimal 24285922 7).mul m)).add ((FP.ofDecimal 4505937 7).mul s)
    b := (((FP.ofDecimal 259040 7).mul l).add ((FP.ofDecimal 7827718 7).mul m)).sub ((FP.ofDecimal 8086758 7).mul s) }

/-- `OKL_L[k]`, `OKL_A[k]`, `OKL_B[k]` (R121). -/
def oklab (k : Key) : Lab := oklabOf (ramp (keyRed k)) (ramp (keyGreen k)) (ramp (keyBlue k))

/-- The distance of two entries of the table (R123). -/
def labDistance (x y : Lab) : FP :=
  let dL := x.l.sub y.l
  let da := x.a.sub y.a
  let db := x.b.sub y.b
  (((dL.mul dL).add (da.mul da)).add (db.mul db)).mul Config.distScale

/-- `dkey(kx, ky)` (R123). -/
def dkey (kx ky : Key) : FP := labDistance (oklab kx) (oklab ky)

/-- `diff(c1, c2)` (R124). -/
def diff (c1 c2 : Word32) : FP :=
  if alphaDisagrees c1 c2 then FP.posInf else dkey (shrink c1) (shrink c2)

/-- `diff3(c1, r, g, b)`; the triple counts as opaque (R125). -/
def diff3 (c1 : Word32) (r g b : Byte) : FP :=
  if isOpaque c1 then dkey (shrink c1) (key3 r g b) else FP.posInf

/-- `BNRAW[i]` (R29). -/
def bnraw (i : Nat) : SByte := Config.bnraw i

/-- An entry of `BNMUL` from its texel (R127). -/
def bnmulOf (texel : SByte) : FP :=
  (((fpOfSByte texel).add (FP.ofDecimal 5 1)).div (FP.ofInt 128)).exp

/-- `BNMUL[i]` (R30, R127). -/
def bnmul (i : Nat) : FP := bnmulOf (Config.bntri i)

/-- `HALTONIC[0..255]` (R31). -/
def haltonic : List Word32 := (List.range palSize).map Config.haltonic

end Sys2Proof.Machine
end

