-- ==== Sys2Proof/Machine/PaletteLoad.lean ====
section
/-! DEFINITION. Palette loading, the nearest-colour index, dither strength and gamma (41_palette_load.md):
EXACT, PRELOAD, ANALYZE, SETDS. -/

namespace Sys2Proof.Machine

open Sys2Proof

/-! ### Gamma (R165) -/

/-- `gam = 1.8 *. (1 −. DS)` (R165). -/
def gammaExponent (ds : FP) : FP := (FP.ofDecimal 18 1).mul (FP.one.sub ds)

/-- `gch(v)` at the exponent `gam` (R165). -/
def gammaChannel (gam : FP) (v : Byte) : Byte :=
  channelOf (((((FP.ofInt v.toNat).div (FP.ofInt 255)).pow gam).mul (FP.ofInt 255)).add (FP.ofDecimal 5 1))

/-- One entry of `GAM`: R, G, B adjusted, alpha copied (R165). -/
def gammaColour (gam : FP) (c : Word32) : Word32 :=
  rgba (gammaChannel gam (redOf c)) (gammaChannel gam (greenOf c)) (gammaChannel gam (blueOf c)) (alphaOf c)

/-- `GAM` from `PAL` and `DS`, all 256 entries (R165). -/
def gammaTable (ds : FP) (pal : Memory 32) : Memory 32 :=
  Memory.ofFn palSize (fun i => gammaColour (gammaExponent ds) (Memory.read pal i))

/-! ### The finish step (R152, R153) -/

/-- `exp((−1.375) /. ofInt(cc))` (R152). -/
def populationBias (cc : Nat) : FP := ((FP.ofDecimal (-1375) 3).div (FP.ofInt cc)).exp

/-- Take a palette, its index and its count into the palette store: `PAL`, `MAP`, `CC`, `PB`, then `GAM` with the
current `DS`, then `VALID` (R152, R153). -/
def finishLoad (pal : Memory 32) (map : Memory 8) (cc : Nat) (s : State) : State :=
  s.setPalette pal map (BitVec.ofNat 9 cc) (populationBias cc) (gammaTable s.ds pal)

/-! ### The nearest-colour index (R154, R155) -/

/-- Step 1 of the index construction, from an all-zero `MAP`: each opaque entry marks its own key, in increasing
slot order (R154). -/
def premark (pal : Memory 32) (cc : Nat) : Memory 8 :=
  (List.range cc).foldl
    (fun m i =>
      if isOpaque (Memory.read pal i) then
        Memory.write m (shrink (Memory.read pal i)).toNat (BitVec.ofNat 8 i)
      else m)
    []

/-- One candidate of the search: `if d < best: best <- d; bi <- i` (R155). -/
def nearer (pal : Memory 32) (c : Word32) (best : FP × Nat) (i : Nat) : FP × Nat :=
  let d := diff3 (Memory.read pal i) (redOf c) (greenOf c) (blueOf c)
  if FP.lt d best.1 then (d, i) else best

/-- Step 2 of the index construction, for one key: slots 1 to `CC - 1`, strict comparison, 0 when no distance is
finite (R155). -/
def searchKey (pal : Memory 32) (cc : Nat) (k : Key) : Nat :=
  ((List.range' 1 (cc - 1)).foldl (nearer pal (stretch k)) (FP.posInf, 0)).2

/-- `MAP` as the two steps leave it: a key still zero after the pre-marking is searched (R154, R155). -/
def buildIndex (pal : Memory 32) (cc : Nat) : Memory 8 :=
  let marked := premark pal cc
  Memory.ofFn mapSize (fun k =>
    if Memory.read marked k = 0#8 then BitVec.ofNat 8 (searchKey pal cc (BitVec.ofNat 15 k))
    else Memory.read marked k)

/-- Build the index of a palette and finish (the end of R150 and R162). -/
def loadIndexed (pal : Memory 32) (cc : Nat) (s : State) : State :=
  finishLoad pal (buildIndex pal cc) cc s

/-! ### EXACT -/

/-- `PAL` slot for slot from `src`, `plen` entries; a transparent entry leaves its slot 0, and the tail is 0 (R150). -/
def exactPalette (src : List Word32) (plen : Nat) : Memory 32 :=
  Memory.ofFn palSize (fun i =>
    if i < plen then
      if isOpaque (src.getD i 0#32) then src.getD i 0#32 else 0#32
    else 0#32)

/-- The loop of R150 over a source and a limit. -/
def loadExact (src : List Word32) (lim : Nat) (s : State) : State :=
  let plen := min lim src.length
  loadIndexed (exactPalette src plen) plen s

/-- The fallback: `HALTONIC` by the same loop (R151). -/
def loadHaltonic (s : State) : State := loadExact haltonic palSize s

/-- EXACT (R150): the fallback test first, then the range (R276 (3)). -/
def execExact (n : BitVec 16) (s : State) : Result :=
  match s.input with
  | none => .next (loadHaltonic s)
  | some src =>
    if src.length < 2 || n.toNat < 2 then .next (loadHaltonic s)
    else if src.length > 256 || n.toNat > 256 then .refused .operandRange
    else .next (loadExact src n.toNat s)

/-! ### PRELOAD -/

/-- `PAL[0..n−1]` verbatim from `IN`, the tail 0 (R156). -/
def preloadPalette (src : List Word32) (n : Nat) : Memory 32 :=
  Memory.ofFn palSize (fun i => if i < n then src.getD i 0#32 else 0#32)

/-- `MAP[k] <- INMAP[k]` for every key (R156). -/
def preloadMap (m : Memory 8) : Memory 8 := Memory.ofFn mapSize (Memory.read m)

/-- PRELOAD (R156). -/
def execPreload (n : BitVec 16) (s : State) : Result :=
  match s.input, s.inMap with
  | some src, some m =>
    if n.toNat < 2 || n.toNat > 256 || src.length < n.toNat then .refused .operandRange
    else .next (finishLoad (preloadPalette src n.toNat) (preloadMap m) n.toNat s)
  | _, _ => .refused .operandRange

/-! ### ANALYZE -/

/-- The count map of R158 and `has_transparent`: colours in the order first met, each with its count. -/
structure Tally where
  counts : List (Word32 × Nat)
  hasTransparent : Bool
deriving DecidableEq, Repr

/-- Count one colour: one more, or a new entry at the end (R158). -/
def countColour (c : Word32) : List (Word32 × Nat) → List (Word32 × Nat)
  | [] => [(c, 1)]
  | (d, n) :: rest => if d = c then (d, n + 1) :: rest else (d, n) :: countColour c rest

/-- Count one pixel (R158). -/
def tallyPixel (t : Tally) (c : Word32) : Tally :=
  if isOpaque c then { t with counts := countColour (asnap c) t.counts }
  else { t with hasTransparent := true }

/-- Count one frame in raster order (R158). -/
def tallyFrame (t : Tally) (fr : Frame) : Tally :=
  (List.range fr.height).foldl
    (fun t y => (List.range fr.width).foldl (fun t x => tallyPixel t (getPixel fr x y)) t) t

/-- `has_transparent` as a number. -/
def Tally.transparent (t : Tally) : Nat := if t.hasTransparent then 1 else 0

/-- `distinct`, the number of keys of the count map. -/
def Tally.distinct (t : Tally) : Nat := t.counts.length

/-- Step 2: the colours by descending count, ties in the order first met (R159). -/
def sortedColours (t : Tally) : List Word32 :=
  (t.counts.insertionSort (fun a b => b.2 ≤ a.2)).map Prod.fst

/-- The early-exit test of R160. -/
def earlyExit (t : Tally) : Bool :=
  decide (t.distinct + (if Config.exitCountsTransparent then t.transparent else 0) < 2)

/-- `c` is at least `tp` from every accepted colour: `not (diff(c, PAL[j]) < T')` (R161). -/
def farFromAll (tp : FP) (c : Word32) (accepted : List Word32) : Bool :=
  accepted.all (fun p => !FP.lt (diff c p) tp)

/-- The greedy walk of R161: `accepted` are slots 1 up, so `cc` is its length and 1. -/
def greedySelect (limit : Nat) (tp : FP) : List Word32 → List Word32 → List Word32
  | [], accepted => accepted
  | c :: rest, accepted =>
    if accepted.length + 1 < limit then
      if farFromAll tp c accepted then greedySelect limit tp rest (accepted ++ [c])
      else greedySelect limit tp rest accepted
    else accepted

/-- The slots of `PAL` that step 3 fills, from slot 0 (R161). -/
def selectColours (limit : Nat) (threshold : Word32) (t : Tally) : List Word32 :=
  if t.distinct + t.transparent ≤ limit then
    (if t.hasTransparent then [0#32] else []) ++ sortedColours t
  else
    0#32 :: greedySelect limit (FP.ofInt (threshold >>> 2).toNat) (sortedColours t) []

/-- `PAL` holding a list of colours from slot 0, the tail 0. -/
def paletteOf (cs : List Word32) : Memory 32 := Memory.ofFn palSize (fun i => cs.getD i 0#32)

/-- `FRM[0 .. NFRM−1]`, or `none` if one of them is absent (R157). -/
def analyzedFrames (s : State) : Option (List Frame) := (List.range s.nfrm).mapM (frameAt s)

/-- The five steps of ANALYZE on its frames (R158 to R162). -/
def analyzeFrames (frames : List Frame) (limit : Nat) (threshold : Word32) (s : State) : State :=
  let t := frames.foldl tallyFrame ⟨[], false⟩
  if earlyExit t then loadHaltonic s
  else
    let cs := selectColours limit threshold t
    loadIndexed (paletteOf cs) cs.length s

/-- ANALYZE (R157). No word spells a threshold of 2^31 or more (R99). -/
def execAnalyze (l : BitVec 16) (t : Word32) (s : State) : Result :=
  if t.msb then .refused (.invalid .nonzeroField)
  else if l.toNat < 2 || l.toNat > 256 then .refused .operandRange
  else
    match analyzedFrames s with
    | none => .refused .frameAbsent
    | some frames => .next (analyzeFrames frames l.toNat t s)

/-! ### SETDS -/

/-- The strength SETDS stores for the operand `s`: `s /. 2` if `s > 0`, else 0 (R164). -/
def strengthOf (s : FP) : FP := if FP.lt FP.zero s then s.div (FP.ofInt 2) else FP.zero

/-- SETDS (R164): a NaN or an infinity is refused; `GAM` is recomputed. -/
def execSetds (v : Word32) (s : State) : Result :=
  if (FP.mk v).isFinite then
    .next (s.setStrength (strengthOf ⟨v⟩) (gammaTable (strengthOf ⟨v⟩) s.pal))
  else .refused .operandRange

end Sys2Proof.Machine
end

