-- ==== Sys2Proof/Machine/Primitives.lean ====
section
/-! DEFINITION. The colour primitives (40_color_metric.md R128 to R133): SETA, SHRINK, STRETCH, DIFF, DIFF3.
None is ever refused and each writes the one register it names. -/

namespace Sys2Proof.Machine

open Sys2Proof

/-- SETA: `OPA <- c` (R128). -/
def execSeta (c : Word32) (s : State) : Result := .next (s.setOpa c)

/-- SHRINK: `RES <- shrink(c)`, zero-extended (R129). -/
def execShrink (c : Word32) (s : State) : Result := .next (s.setRes ((shrink c).setWidth 32))

/-- STRETCH: `RES <- stretch(k)` (R130). -/
def execStretch (k : Key) (s : State) : Result := .next (s.setRes (stretch k))

/-- DIFF: `RESF <- diff(OPA, c)` (R131). -/
def execDiff (c : Word32) (s : State) : Result := .next (s.setResf (diff s.opa c))

/-- DIFF3: `RESF <- diff3(OPA, r, g, b)` (R132). -/
def execDiff3 (r g b : Byte) (s : State) : Result := .next (s.setResf (diff3 s.opa r g b))

end Sys2Proof.Machine
end

