-- ==== Sys2Proof/Machine/Skeleton.lean ====
section
/-! DEFINITION. The loop every REDUCE command runs (42_dither_common.md R190 to R195), with the method's own
parts as arguments. -/

namespace Sys2Proof.Machine

open Sys2Proof

/-- What a dither method adds to the skeleton. The dither working state passes from pixel to pixel; `pixel`
answers the palette index its one `set_pixel` writes (R190). -/
structure Method where
  /-- `method_begin(W, H)`, given `W` -/
  start : Nat → Work → Work
  /-- `method_pixel(x, y, c)`, given `W`, `H`, `x`, `y`, `c` -/
  pixel : Nat → Nat → Nat → Nat → Word32 → Work → Byte × Work
  /-- `method_row_end(y)`, given `W` -/
  rowEnd : Nat → Work → Work

/-- A method without hooks whose index depends on the pixel and its position alone. -/
def Method.pointwise (index : Nat → Nat → Word32 → Byte) : Method where
  start := fun _ wk => wk
  pixel := fun _ _ x y c wk => (index x y c, wk)
  rowEnd := fun _ wk => wk

/-- The pixel value a method works on: snapped for the methods of `SNAP_SET` (R194). -/
def snapFor (m : DitherMethod) (c : Word32) : Word32 := if Config.snapSet m then snap c else c

/-- The transparent shortcut applies (R191). -/
def shortcut (s : State) (c : Word32) : Bool := !isOpaque c && reserved s

/-- One pixel of the raster loop: the shortcut writes 0 with index 0; the method writes `PAL[i]` with its `i`. -/
def rasterPixel (m : Method) (s : State) (w h y : Nat) (acc : Frame × Work) (x : Nat) : Frame × Work :=
  let c := getPixel acc.1 x y
  if shortcut s c then (setPixel acc.1 x y 0#32 0#8, acc.2)
  else
    let r := m.pixel w h x y c acc.2
    (setPixel acc.1 x y (palAt s r.1.toNat) r.1, r.2)

/-- One row, left to right, then the row hook. -/
def rasterRow (m : Method) (s : State) (w h : Nat) (acc : Frame × Work) (y : Nat) : Frame × Work :=
  let done := (List.range w).foldl (rasterPixel m s w h y) acc
  (done.1, m.rowEnd w done.2)

/-- All rows, top to bottom, after the start hook. -/
def raster (m : Method) (s : State) (fr : Frame) (wk : Work) : Frame × Work :=
  (List.range fr.height).foldl (rasterRow m s fr.width fr.height) (fr, m.start fr.width wk)

/-- The loop between saving the blending mode and restoring it (R64, R190). -/
def ditherFrame (m : Method) (s : State) (fr : Frame) (wk : Work) : Frame × Work :=
  let done := raster m s (setBlend fr .replace) wk
  (setBlend done.1 fr.blend, done.2)

/-- A frame without pixels is left alone, and with it the whole state (R63; assumption log 8). -/
def Frame.isEmpty (fr : Frame) : Bool := fr.width == 0 || fr.height == 0

/-- The state after a REDUCE on the present frame `fr` of slot `f`. -/
def dithered (m : Method) (f : Nat) (fr : Frame) (s : State) : State :=
  if fr.isEmpty then s
  else
    let done := ditherFrame m s fr s.work
    s.setDithered (Store.put s.frm f done.1) done.2

/-- A REDUCE command with the method `m`: the checks in the order of R190 and R276 (2), then the loop. -/
def reduceFrame (m : State → Method) (f : BitVec 16) (s : State) : Result :=
  if !s.valid then .refused .notLoaded
  else if Config.maxFrames ≤ f.toNat then .refused .operandRange
  else
    match frameAt s f.toNat with
    | none => .next s
    | some fr => .next (dithered (m s) f.toNat fr s)

end Sys2Proof.Machine
end

