-- ==== Sys2Proof/Machine/Diffusion.lean ====
section
/-! DEFINITION. The error-diffusion dithers (43_dither_diffusion.md): Floyd-Steinberg, Sierra Lite, Scatter. -/

namespace Sys2Proof.Machine

open Sys2Proof

/-- `CUR` and `NEXT` of one channel. -/
structure RowPair where
  cur : List SByte
  next : List SByte
deriving DecidableEq, Repr

/-- `method_begin`: every row grown to `W` and its first `W` entries zero (R211). -/
def startRows (w : Nat) (wk : Work) : Work :=
  { wk with cur := wk.cur.map (zeroRow w), next := wk.next.map (zeroRow w) }

/-- `method_row_end`: `CUR <- NEXT`, then `NEXT` zeroed (R212; assumption log 7). -/
def swapRows (w : Nat) (wk : Work) : Work :=
  { wk with cur := wk.next, next := wk.next.map (zeroRow w) }

/-- The target of one channel by integer addition: `clamp(o + CUR[x], 0, 255)` (R213, R214). -/
def perturbInt (o : Byte) (e : Int) : Byte := BitVec.ofInt 8 (clamp (o.toNat + e) 0 255)

/-- The target of one channel of Scatter: the error times the blue-noise multiplier, truncated, clamped (R215). -/
def perturbScaled (mult : FP) (o : Byte) (e : Int) : Byte :=
  channelOf ((FP.ofInt o.toNat).add ((FP.ofInt e).mul mult))

/-- Floyd-Steinberg's spread of one channel's residual with the weights 7, 3, 5, 1 times `w1` (R213, R215). -/
def spreadFs (w1 : FP) (w h x y : Nat) (dv : Int) (p : RowPair) : RowPair :=
  let w3 := w1.mul (FP.ofInt 3)
  let w5 := w1.mul (FP.ofInt 5)
  let w7 := w1.mul (FP.ofInt 7)
  let cur := if x + 1 < w then accumulate p.cur (x + 1) dv w7 else p.cur
  let next :=
    if y + 1 < h then
      let left := if 0 < x then accumulate p.next (x - 1) dv w3 else p.next
      let down := accumulate left x dv w5
      if x + 1 < w then accumulate down (x + 1) dv w1 else down
    else p.next
  ⟨cur, next⟩

/-- Sierra Lite's spread: `wr` to the right, `wh` down-left and down (R214). -/
def spreadSierra (wr wh : FP) (w h x y : Nat) (dv : Int) (p : RowPair) : RowPair :=
  let cur := if x + 1 < w then accumulate p.cur (x + 1) dv wr else p.cur
  let next :=
    if y + 1 < h then
      let left := if 0 < x then accumulate p.next (x - 1) dv wh else p.next
      accumulate left x dv wh
    else p.next
  ⟨cur, next⟩

/-- The residual of one channel: original less used (R217). -/
def residual (o used : Byte) : Int := (o.toNat : Int) - used.toNat

/-- The shared pixel body (R217): perturb all channels, look up once, then spread each channel's residual. -/
def diffusionPixel (dm : DitherMethod) (s : State) (perturb : Nat → Nat → Byte → Int → Byte)
    (spread : Nat → Nat → Nat → Nat → Int → RowPair → RowPair) (w h x y : Nat) (c : Word32) (wk : Work) : Byte × Work :=
  let o := rgbOf (snapFor dm c)
  let t := Tri.zip (perturb x y) o (wk.cur.map (fun row => rowAt row x))
  let i := lookup s t
  let dv := Tri.zip residual o (rgbOf (palAt s i.toNat))
  let rows := Tri.zip (spread w h x y) dv (Tri.zip RowPair.mk wk.cur wk.next)
  (i, { wk with cur := rows.map RowPair.cur, next := rows.map RowPair.next })

/-- A diffusion method from its perturbation and its spread. -/
def diffusionMethod (dm : DitherMethod) (s : State) (perturb : Nat → Nat → Byte → Int → Byte)
    (spread : Nat → Nat → Nat → Nat → Int → RowPair → RowPair) : Method where
  start := startRows
  pixel := diffusionPixel dm s perturb spread
  rowEnd := swapRows

/-- Floyd-Steinberg (R213). -/
def methodFs (s : State) : Method :=
  diffusionMethod .floydSteinberg s (fun _ _ => perturbInt) (spreadFs ((strength s).mul (FP.ofDecimal 125 3)))

/-- Sierra Lite (R214). -/
def methodSierra (s : State) : Method :=
  diffusionMethod .sierraLite s (fun _ _ => perturbInt)
    (spreadSierra (strength s) ((strength s).mul (FP.ofDecimal 5 1)))

/-- Scatter (R215). -/
def methodScatter (s : State) : Method :=
  diffusionMethod .scatter s (fun x y => perturbScaled (bnmul (bnIndex x y)))
    (spreadFs ((strength s).mul (FP.ofDecimal 140625 6)))

end Sys2Proof.Machine
end

