-- ==== Sys2Proof/Machine/Noise.lean ====
section
/-! DEFINITION. The noise-modulated ordered dithers (44_dither_noise.md): Jimenez, Blue-Noise, Chaotic-Noise. -/

namespace Sys2Proof.Machine

open Sys2Proof

/-- The first-pass index of a pixel (R230). -/
def firstPass (dm : DitherMethod) (s : State) (c : Word32) : Byte := lookup s (rgbOf (snapFor dm c))

/-- One perturbed channel: `clamp(trunc(ofInt(o) +. (adj *. ofInt(o − used))), 0, 255)` (R230). -/
def perturbBy (adj : FP) (o used : Byte) : Byte :=
  channelOf ((FP.ofInt o.toNat).add (adj.mul (FP.ofInt ((o.toNat : Int) - used.toNat))))

/-- The second-pass index, given the first-pass colour and the adjustment (R230). -/
def secondPass (dm : DitherMethod) (s : State) (c used : Word32) (adj : FP) : Byte :=
  lookup s (Tri.zip (perturbBy adj) (rgbOf (snapFor dm c)) (rgbOf used))

/-- The two-pass body for an adjustment that depends on the position alone (R230). -/
def twoPassIndex (dm : DitherMethod) (s : State) (adj : Nat → Nat → FP) (x y : Nat) (c : Word32) : Byte :=
  secondPass dm s c (palAt s (firstPass dm s c).toNat) (adj x y)

/-! ### Jimenez -/

/-- `pos` of R232. -/
def jimenezPhase (x y : Nat) : FP :=
  let t := ((FP.ofDecimal 6711056 8).mul (FP.ofInt x)).add ((FP.ofDecimal 583715 8).mul (FP.ofInt y))
  ((FP.ofDecimal 529829189 7).mul t.frac).frac

/-- `adj` of R232. -/
def jimenezAdj (str : FP) (x y : Nat) : FP :=
  (((FP.ofInt 2).mul (jimenezPhase x y)).sub FP.one).sin.mul ((FP.ofDecimal 3333 3).mul str)

/-- Jimenez (R231). -/
def methodJimenez (s : State) : Method := Method.pointwise (twoPassIndex .jimenez s (jimenezAdj (strength s)))

/-! ### Blue-Noise -/

/-- Line 1 of R234, from the texel: `(ofInt(n) +. 0.5) /. 127.5`. -/
def blueLine1 (texel : SByte) : FP :=
  ((fpOfSByte texel).add (FP.ofDecimal 5 1)).div (FP.ofDecimal 1275 1)

/-- `chk = ofInt((x + y) & 1) −. 0.5` (R234). -/
def checker (x y : Nat) : FP := (FP.ofInt ((x + y) % 2 : Nat)).sub (FP.ofDecimal 5 1)

/-- `adj` of R234 from its two texels; the last constant is `−0x1.6p−10`. -/
def blueAdjOf (str : FP) (n1 n2 : SByte) (x y : Nat) : FP :=
  let a1 := blueLine1 n1
  let a2 := a1.add (((checker x y).mul ((FP.ofDecimal 5 1).add (fpOfSByte n2))).mul (FP.ofScaled (-11) (-13)))
  a2.mul ((FP.ofDecimal 15 1).mul str)

/-- `adj` of R234. -/
def blueAdj (str : FP) (x y : Nat) : FP := blueAdjOf str (bnraw (bnIndex x y)) (bnraw (bn2Index x y)) x y

/-- Blue-Noise (R233). -/
def methodBlue (s : State) : Method := Method.pointwise (twoPassIndex .blueNoise s (blueAdj (strength s)))

/-! ### Chaotic-Noise -/

/-- The accumulator after mixing in a colour: `((S ^ zext_64(used)) * CHAOS_M) + CHAOS_K` (R235). -/
def chaosNext (sOld : Word64) (used : Word32) : Word64 :=
  (sOld ^^^ used.setWidth 64) * Config.chaosM + Config.chaosK

/-- The blue-noise value that is cubed, at the stage `CHAOTIC_BN_STAGE` names (R235). -/
def chaoticBase (str : FP) (x y : Nat) : FP :=
  match Config.chaoticBnStage with
  | .line1 => blueLine1 (bnraw (bnIndex x y))
  | .final => blueAdj str x y

/-- `adj` of R235 from the value that is cubed and the integer `v` of `Chaos3`. -/
def chaoticAdjOf (str base : FP) (v : Int) (x y : Nat) : FP :=
  let tiny := ((FP.ofScaled 3 (-50)).mul str).mul (checker x y)
  ((base.mul base).mul base).add (tiny.mul (FP.ofInt v))

/-- The pixel body of Chaotic-Noise: the two passes, with `S` updated between them (R230, R235). -/
def chaoticPixel (s : State) (_w _h x y : Nat) (c : Word32) (wk : Work) : Byte × Work :=
  let used := palAt s (firstPass .chaoticNoise s c).toNat
  let sNew := chaosNext wk.chaos used
  let v := (Config.chaos3 wk.chaos sNew).toInt
  let adj := chaoticAdjOf (strength s) (chaoticBase (strength s) x y) v x y
  (secondPass .chaoticNoise s c used adj, { wk with chaos := sNew })

/-- Chaotic-Noise (R235): `S` starts at `CHAOS_SEED`. -/
def methodChaotic (s : State) : Method where
  start := fun _ wk => { wk with chaos := Config.chaosSeed }
  pixel := chaoticPixel s
  rowEnd := fun _ wk => wk

end Sys2Proof.Machine
end

