-- ==== Sys2Proof/Machine/Pattern.lean ====
section
/-! DEFINITION. The pattern dithers (45_dither_pattern.md): Knoll and Knoll-Roberts. -/

namespace Sys2Proof.Machine

open Sys2Proof

/-- The target of one channel: `clamp(trunc(ofInt(o) +. (ofInt(e) *. strk)), 0, 255)` (R251). -/
def patternTarget (strk : FP) (o : Byte) (e : Int) : Byte :=
  channelOf ((FP.ofInt o.toNat).add ((FP.ofInt e).mul strk))

/-- The error of one channel after a candidate: `e + (o − GAM channel)` (R251). -/
def patternError (e : Int) (o used : Byte) : Int := e + ((o.toNat : Int) - used.toNat)

/-- The candidate loop from the errors `e`, `n` iterations (R251). -/
def candidateLoop (s : State) (o : Tri Byte) (strk : FP) : Nat → Tri Int → List Byte
  | 0, _ => []
  | n + 1, e =>
    let i := lookup s (Tri.zip (patternTarget strk) o e)
    let g := rgbOf (gamAt s i.toNat)
    i :: candidateLoop s o strk n
      ⟨patternError e.r o.r g.r, patternError e.g o.g g.g, patternError e.b o.b g.b⟩

/-- `candidates(c, n, strk)` (R251). -/
def candidates (dm : DitherMethod) (s : State) (c : Word32) (n : Nat) (strk : FP) : List Byte :=
  candidateLoop s (rgbOf (snapFor dm c)) strk n ⟨0, 0, 0⟩

/-- `lum(i) = OKL_L[shrink(PAL[i])]` (R252). -/
def lum (s : State) (i : Byte) : FP := (oklab (shrink (palAt s i.toNat))).l

/-- One compare-exchange: swap when the first is strictly lighter (R252). -/
def compareExchange (s : State) (cand : List Byte) (pq : Nat × Nat) : List Byte :=
  let a := cand.getD pq.1 0#8
  let b := cand.getD pq.2 0#8
  if FP.lt (lum s b) (lum s a) then (cand.set pq.1 b).set pq.2 a else cand

/-- `sortnet(CAND, NET)` (R252). -/
def sortNet (s : State) (net : List (Nat × Nat)) (cand : List Byte) : List Byte :=
  net.foldl (compareExchange s) cand

/-- The index Knoll emits (R250). -/
def knollIndex (s : State) (x y : Nat) (c : Word32) : Byte :=
  (sortNet s Config.net16 (candidates .knoll s c 16 (strength s))).getD (Config.tm16.getD (tm16Index x y) 0) 0#8

/-- `TM8[kr(x, y)]` (R257). -/
def tm8At (x y : Nat) : Nat := (Config.tm8 (Fin.ofNat 8 (krIndex x y))).val

/-- The index Knoll-Roberts emits (R257). -/
def knollRobertsIndex (s : State) (x y : Nat) (c : Word32) : Byte :=
  (sortNet s Config.net8 (candidates .knollRoberts s c 8 ((FP.ofDecimal 6 1).mul (strength s)))).getD (tm8At x y) 0#8

/-- Knoll (R250). -/
def methodKnoll (s : State) : Method := Method.pointwise (knollIndex s)

/-- Knoll-Roberts (R257). -/
def methodKnollr (s : State) : Method := Method.pointwise (knollRobertsIndex s)

end Sys2Proof.Machine
end

