-- ==== Sys2Proof/Machine/Reduce.lean ====
section
/-! DEFINITION. The ten REDUCE commands (42_dither_common.md R196, R197; 43 to 45): each is the skeleton with
its method. -/

namespace Sys2Proof.Machine

open Sys2Proof

/-- Solid: the index of the pixel's key, looked up directly (R197). -/
def solidIndex (s : State) (_x _y : Nat) (c : Word32) : Byte := lookup s (rgbOf (snapFor .solid c))

/-- Solid (R197). -/
def methodSolid (s : State) : Method := Method.pointwise (solidIndex s)

/-- The nine methods by name. -/
def ditherMethod (dm : DitherMethod) (s : State) : Method :=
  match dm with
  | .solid => methodSolid s
  | .floydSteinberg => methodFs s
  | .sierraLite => methodSierra s
  | .scatter => methodScatter s
  | .jimenez => methodJimenez s
  | .blueNoise => methodBlue s
  | .chaoticNoise => methodChaotic s
  | .knoll => methodKnoll s
  | .knollRoberts => methodKnollr s

/-- REDUCE: the command of the method the selector names (R196). -/
def execReduce (f : BitVec 16) (sel : Word32) (s : State) : Result :=
  reduceFrame (ditherMethod (methodOf (algorithmOf sel))) f s

/-- REDUCE_SOLID (R197). -/
def execReduceSolid (f : BitVec 16) (s : State) : Result := reduceFrame methodSolid f s

/-- REDUCE_FS (R213). -/
def execReduceFs (f : BitVec 16) (s : State) : Result := reduceFrame methodFs f s

/-- REDUCE_SIERRA (R214). -/
def execReduceSierra (f : BitVec 16) (s : State) : Result := reduceFrame methodSierra f s

/-- REDUCE_SCATTER (R215). -/
def execReduceScatter (f : BitVec 16) (s : State) : Result := reduceFrame methodScatter f s

/-- REDUCE_JIMENEZ (R231). -/
def execReduceJimenez (f : BitVec 16) (s : State) : Result := reduceFrame methodJimenez f s

/-- REDUCE_BLUE (R233). -/
def execReduceBlue (f : BitVec 16) (s : State) : Result := reduceFrame methodBlue f s

/-- REDUCE_CHAOTIC (R235). -/
def execReduceChaotic (f : BitVec 16) (s : State) : Result := reduceFrame methodChaotic f s

/-- REDUCE_KNOLL (R250). -/
def execReduceKnoll (f : BitVec 16) (s : State) : Result := reduceFrame methodKnoll f s

/-- REDUCE_KNOLLR (R257). -/
def execReduceKnollr (f : BitVec 16) (s : State) : Result := reduceFrame methodKnollr f s

end Sys2Proof.Machine
end

