-- ==== Sys2Proof/Machine/Dispatch.lean ====
section
/-! DEFINITION. One arm per command, each one direct call of its meaning. -/

namespace Sys2Proof.Machine

open Sys2Proof

def exec (i : Instr) (s : State) : Host.Outcome State Fault Refusal :=
  match i with
  | .setds v => Sys2Proof.Machine.execSetds v s
  | .exact n => Sys2Proof.Machine.execExact n s
  | .preload n => Sys2Proof.Machine.execPreload n s
  | .analyze l t => Sys2Proof.Machine.execAnalyze l t s
  | .seta c => Sys2Proof.Machine.execSeta c s
  | .shrink c => Sys2Proof.Machine.execShrink c s
  | .stretch k => Sys2Proof.Machine.execStretch k s
  | .diff c => Sys2Proof.Machine.execDiff c s
  | .diff3 r g b => Sys2Proof.Machine.execDiff3 r g b s
  | .reduce f sel => Sys2Proof.Machine.execReduce f sel s
  | .reduceSolid f => Sys2Proof.Machine.execReduceSolid f s
  | .reduceFs f => Sys2Proof.Machine.execReduceFs f s
  | .reduceSierra f => Sys2Proof.Machine.execReduceSierra f s
  | .reduceScatter f => Sys2Proof.Machine.execReduceScatter f s
  | .reduceJimenez f => Sys2Proof.Machine.execReduceJimenez f s
  | .reduceBlue f => Sys2Proof.Machine.execReduceBlue f s
  | .reduceChaotic f => Sys2Proof.Machine.execReduceChaotic f s
  | .reduceKnoll f => Sys2Proof.Machine.execReduceKnoll f s
  | .reduceKnollr f => Sys2Proof.Machine.execReduceKnollr f s

end Sys2Proof.Machine
end

