-- ==== Sys2Proof/Machine/HostMoves.lean ====
section
/-! DEFINITION. What HOST's pending actions do: issuing a command word, which ENGINE decodes and runs to
completion (00_scope.md R4, 20_memory.md R70), and HOST's writes of the state it owns (10_state.md R41 to R43)
under the assumptions of 70_reset_and_hazards.md R310. -/

namespace Sys2Proof.Machine

open Sys2Proof

/-- A command word: decoded, then run; a reserved word is refused (R102, R276 (1)). -/
def runWord (w : Word64) (s : State) : Result :=
  match decode w with
  | .ok i => exec i s
  | .error why => .refused (.invalid why)

/-- HOST places a frame in slot `f` or makes it absent (R41, R310 (4)). -/
def hostPutFrame (f : Nat) (fr : Option Frame) (s : State) : Result :=
  if Config.maxFrames ≤ f then .refused .hostAssumption
  else
    match fr with
    | none => .next (s.setFrames (Store.drop s.frm f))
    | some fr =>
      if !fr.inBounds then .refused .capacity
      else if !fr.wf then .refused .hostAssumption
      else .next (s.setFrames (Store.put s.frm f fr))

/-- HOST sets `NFRM`, at most `MAX_FRAMES` (R310 (6)). -/
def hostSetNfrm (n : Nat) (s : State) : Result :=
  if n ≤ Config.maxFrames then .next (s.setNfrm n) else .refused .hostAssumption

/-- HOST fills or takes away `IN` (R43). -/
def hostPutInput (src : Option (List Word32)) (s : State) : Result := .next (s.setInput src)

/-- HOST fills or takes away `INMAP`, 32 768 bytes (R43). -/
def hostPutInMap (m : Option (Memory 8)) (s : State) : Result :=
  match m with
  | none => .next (s.setInMap none)
  | some v => if Memory.wf mapSize v then .next (s.setInMap (some v)) else .refused .hostAssumption

/-- One pending action takes effect. -/
def hostAct (a : HostAction) (s : State) : Result :=
  match a with
  | .issue w => runWord w s
  | .putFrame f fr => hostPutFrame f fr s
  | .setNfrm n => hostSetNfrm n s
  | .putInput src => hostPutInput src s
  | .putInMap m => hostPutInMap m s

/-- The oldest pending action is taken off and takes effect; with none pending the machine waits unchanged
(assumption log 1). -/
def takeAction (s : State) : Result :=
  match s.host with
  | [] => .next s
  | a :: rest => hostAct a (s.setHost rest)

/-- The command word of a table row: the low `nbits` bits of `w`, zeros above. -/
def tableWord (nbits w : Nat) : Word64 := BitVec.ofNat 64 (w % 2 ^ nbits)

end Sys2Proof.Machine
end

