-- ==== Sys2Proof/Machine/Step.lean ====
section
/-! DEFINITION. One step of the machine: HOST's oldest pending action takes effect, a command word as one
atomic transition (20_memory.md R70; assumption log 1). -/

namespace Sys2Proof.Machine

open Sys2Proof

/-- One step. -/
def step (s : State) : Host.Outcome State Fault Refusal := takeAction s

/-- `s` with a command word as the very next one HOST has issued. -/
def State.withFetchWord (s : State) (nbits w : Nat) : State :=
  s.setHost (.issue (tableWord nbits w) :: s.host)

end Sys2Proof.Machine
end

