-- ==== Sys2Proof/Machine/HostView.lean ====
section
/-! DEFINITION. What HOST reads between commands in a fixed byte form (20_memory.md R65, R76): the palette and
the map as it stores them, a frame's bytes. The diagnostic scalars are the fields `cc`, `pb`, `ds` (R283). -/

namespace Sys2Proof.Machine

open Sys2Proof

/-- The 256 words of `PAL`. -/
def palWords (s : State) : List Word32 := (List.range palSize).map (palAt s)

/-- A stored `PAL`, 256 times 4 bytes, R first (R65, decision D36). -/
def palDump (s : State) : List Byte := (palWords s).flatMap colourBytes

/-- A stored `MAP`, 32 768 bytes, byte `k` the entry of key `k` (R65, R76). -/
def mapDump (s : State) : List Byte := (List.range mapSize).map (fun k => Memory.read s.map k)

/-- A frame's pixels, row-major (R63). -/
def frameWords (fr : Frame) : List Word32 :=
  (List.range fr.height).flatMap (fun y => (List.range fr.width).map (fun x => getPixel fr x y))

/-- A frame in a byte-addressed memory: 4 bytes a pixel, R at the lowest address (R63, R65). -/
def frameBytes (fr : Frame) : List Byte := (frameWords fr).flatMap colourBytes

/-- The index plane, row-major (R42). -/
def frameIndices (fr : Frame) : List Byte :=
  (List.range fr.height).flatMap (fun y => (List.range fr.width).map (fun x => getIndex fr x y))

end Sys2Proof.Machine
end

