-- ==== Sys2Proof/Safety.lean ====
section
/-! DEFINITION. The terms claims are stated in: which commands dither, the well-formedness of the stores, the
consistency of the palette store, and runs. -/

namespace Sys2Proof.Machine

open Sys2Proof

/-- The method and the frame of a REDUCE command (R100, R104); none of another command. -/
def ditherOf (i : Instr) : Option (DitherMethod × BitVec 16) :=
  match i with
  | .setds _ => none
  | .exact _ => none
  | .preload _ => none
  | .analyze _ _ => none
  | .seta _ => none
  | .shrink _ => none
  | .stretch _ => none
  | .diff _ => none
  | .diff3 _ _ _ => none
  | .reduce f sel => some (methodOf (algorithmOf sel), f)
  | .reduceSolid f => some (.solid, f)
  | .reduceFs f => some (.floydSteinberg, f)
  | .reduceSierra f => some (.sierraLite, f)
  | .reduceScatter f => some (.scatter, f)
  | .reduceJimenez f => some (.jimenez, f)
  | .reduceBlue f => some (.blueNoise, f)
  | .reduceChaotic f => some (.chaoticNoise, f)
  | .reduceKnoll f => some (.knoll, f)
  | .reduceKnollr f => some (.knollRoberts, f)

/-- The commands that load a palette (R45). -/
def loadsPalette (i : Instr) : Bool :=
  match i with
  | .setds _ => false
  | .exact _ => true
  | .preload _ => true
  | .analyze _ _ => true
  | .seta _ => false
  | .shrink _ => false
  | .stretch _ => false
  | .diff _ => false
  | .diff3 _ _ _ => false
  | .reduce _ _ => false
  | .reduceSolid _ => false
  | .reduceFs _ => false
  | .reduceSierra _ => false
  | .reduceScatter _ => false
  | .reduceJimenez _ => false
  | .reduceBlue _ => false
  | .reduceChaotic _ => false
  | .reduceKnoll _ => false
  | .reduceKnollr _ => false

/-- A present frame as R41 and R278 have it. -/
def Frame.ok (fr : Frame) : Bool := fr.inBounds && fr.wf

/-- Every store is in canonical form and within its space: `PAL`, `MAP`, `GAM`, the frame slots and each frame in
them, `NFRM`, `INMAP` (R41, R60, R310 (4), (6)). -/
def State.storesWf (s : State) : Bool :=
  Memory.wf palSize s.pal && Memory.wf mapSize s.map && Memory.wf palSize s.gam &&
    Store.wf Config.maxFrames s.frm && s.frm.all (fun e => e.2.ok) &&
    decide (s.nfrm ≤ Config.maxFrames) &&
    (match s.inMap with
      | none => true
      | some m => Memory.wf mapSize m)

/-- What the palette store's registers keep in step (R20, R21, R23, R35): the tail of `PAL` is zero, `GAM` is the
gamma table of `PAL` and `DS`, and a loaded palette has a count of 2 to 256 with its bias. -/
structure State.PaletteOk (s : State) : Prop where
  tail_zero : ∀ i, s.cc.toNat ≤ i → palAt s i = 0#32
  gamma_current : s.gam = gammaTable s.ds s.pal
  empty_count : s.valid = false → s.cc = 0#9
  loaded_count : s.valid = true → 2 ≤ s.cc.toNat ∧ s.cc.toNat ≤ 256
  loaded_bias : s.valid = true → s.pb = populationBias s.cc.toNat

/-- The states `s` and `t` agree on everything HOST cannot write (R72, R280, R310 (2)). -/
structure SameEngine (s t : State) : Prop where
  cc : t.cc = s.cc
  pb : t.pb = s.pb
  ds : t.ds = s.ds
  valid : t.valid = s.valid
  opa : t.opa = s.opa
  res : t.res = s.res
  resf : t.resf = s.resf
  pal : t.pal = s.pal
  map : t.map = s.map
  gam : t.gam = s.gam
  work : t.work = s.work

/-- The states `s` and `t` agree on the whole palette store, the strength and `VALID`. -/
structure SamePalette (s t : State) : Prop where
  cc : t.cc = s.cc
  pb : t.pb = s.pb
  ds : t.ds = s.ds
  valid : t.valid = s.valid
  pal : t.pal = s.pal
  map : t.map = s.map
  gam : t.gam = s.gam

/-- The states `s` and `t` agree on the registers of the colour primitives. -/
structure SamePrimitives (s t : State) : Prop where
  opa : t.opa = s.opa
  res : t.res = s.res
  resf : t.resf = s.resf

/-- The states `s` and `t` agree on what HOST owns besides the frames, and on what it has pending. -/
structure SameInputs (s t : State) : Prop where
  nfrm : t.nfrm = s.nfrm
  input : t.input = s.input
  inMap : t.inMap = s.inMap
  host : t.host = s.host

/-- A state some run from reset reaches, for some list of actions HOST has pending at reset. -/
inductive Reachable : State → Prop where
  | reset (l : List HostAction) : Reachable (State.reset.setHost l)
  | step {s t : State} (h : Reachable s) (hs : Machine.step s = .next t) : Reachable t

/-! ### What ANALYZE sees (R158, R159) -/

/-- Every pixel of the frames, frames in order and raster order within a frame. -/
def framePixels (frames : List Frame) : List Word32 := frames.flatMap frameWords

/-- The snapped colours of the opaque pixels, in the order met. -/
def analyzedColours (frames : List Frame) : List Word32 := ((framePixels frames).filter isOpaque).map asnap

/-- Some pixel is transparent. -/
def sawTransparent (frames : List Frame) : Bool := (framePixels frames).any (fun c => !isOpaque c)

/-- `distinct` of R158. -/
def distinctColours (frames : List Frame) : Nat := (analyzedColours frames).dedup.length

/-- `has_transparent` of R158. -/
def transparentCount (frames : List Frame) : Nat := if sawTransparent frames then 1 else 0

/-- `a` stands before `b` in the sorted list of R159: met more often, or as often and met first. -/
def sortsBefore (seen : List Word32) (a b : Word32) : Prop :=
  seen.count b < seen.count a ∨ seen.count b = seen.count a ∧ seen.idxOf a < seen.idxOf b

/-! ### What a diffusion REDUCE leaves, without its rows (R210 to R216)

`fr` is the frame before the command, `g` the frame after it. -/

/-- The residual one channel of pixel `(x, y)` has (R217). -/
def residualAt (dm : DitherMethod) (fr g : Frame) (ch : Tri Byte → Byte) (x y : Nat) : Int :=
  ((ch (rgbOf (snapFor dm (getPixel fr x y)))).toNat : Int) - (ch (rgbOf (getPixel g x y))).toNat

/-- An error slot after pixel `(x, y)` has spread its share with the weight `wt`; a short-cut pixel spreads nothing
(R191, R216). -/
def receives (s : State) (dm : DitherMethod) (fr g : Frame) (ch : Tri Byte → Byte) (wt : FP) (x y : Nat) (e : SByte) :
    SByte :=
  if shortcut s (getPixel fr x y) then e
  else sbyte ((FP.ofInt e.toInt).add ((FP.ofInt (residualAt dm fr g ch x y)).mul wt)).trunc

/-- The error pixel `(x, y)` finds in its slot under the weights 1, 3, 5, 7 times `w1`: from the row above, left to
right, then from its left neighbour (R213, R215). -/
def errorFs (s : State) (dm : DitherMethod) (w1 : FP) (fr g : Frame) (ch : Tri Byte → Byte) (x y : Nat) : SByte :=
  let above :=
    if 0 < y then
      let a := if 0 < x then receives s dm fr g ch w1 (x - 1) (y - 1) 0#8 else 0#8
      let b := receives s dm fr g ch (w1.mul (FP.ofInt 5)) x (y - 1) a
      if x + 1 < fr.width then receives s dm fr g ch (w1.mul (FP.ofInt 3)) (x + 1) (y - 1) b else b
    else 0#8
  if 0 < x then receives s dm fr g ch (w1.mul (FP.ofInt 7)) (x - 1) y above else above

/-- The error pixel `(x, y)` finds in its slot under Sierra Lite's weights (R214). -/
def errorSierra (s : State) (wr wh : FP) (fr g : Frame) (ch : Tri Byte → Byte) (x y : Nat) : SByte :=
  let above :=
    if 0 < y then
      let b := receives s .sierraLite fr g ch wh x (y - 1) 0#8
      if x + 1 < fr.width then receives s .sierraLite fr g ch wh (x + 1) (y - 1) b else b
    else 0#8
  if 0 < x then receives s .sierraLite fr g ch wr (x - 1) y above else above

/-! ### The accumulator of Chaotic-Noise along the raster (R235) -/

/-- `S` before pixel `(x, y)`: the seed, with the first-pass colour of every earlier pixel that is not short-cut
mixed in, in raster order. -/
def chaosBefore (s : State) (fr : Frame) (x y : Nat) : Word64 :=
  ((List.range (y * fr.width + x)).filter
      (fun i => !shortcut s (getPixel fr (i % fr.width) (i / fr.width)))).foldl
    (fun a i =>
      let used := palAt s (mapAt s (shrink (snap (getPixel fr (i % fr.width) (i / fr.width))))).toNat
      (a ^^^ used.setWidth 64) * 0xD1342543DE82EF95#64 + 0x91E10DA5C79E7B1D#64)
    Config.chaosSeed

/-! ### The candidates of a pattern dither, without their loop (R251) -/

/-- `cand` are the `n` candidates of the pixel value `c` under the error multiplier `strk`: candidate `it` is the lookup
of the snapped channels moved by `strk` times the error, and the error of a channel is the sum, over the earlier
candidates, of the snapped channel less that of the candidate's gamma-adjusted colour (R251). -/
def IsCandidates (s : State) (c : Word32) (n : Nat) (strk : FP) (cand : List Byte) : Prop :=
  cand.length = n ∧
  ∀ it, it < n →
    let o := snap c
    let e := fun (ch : Word32 → Byte) =>
      ((List.range it).map
        (fun j => ((ch o).toNat : Int) - (ch (gamAt s (cand.getD j 0#8).toNat)).toNat)).sum
    let target := fun (ch : Word32 → Byte) =>
      BitVec.ofInt 8 (clamp ((FP.ofInt (ch o).toNat).add ((FP.ofInt (e ch)).mul strk)).trunc 0 255)
    cand.getD it 0#8 = mapAt s (key3 (target redOf) (target greenOf) (target blueOf))

/-- The machine's Oklab coordinates of a key are finite numbers (they are under any faithful `cbrt`). -/
def finiteLab (k : Key) : Bool := (oklab k).l.isFinite && (oklab k).a.isFinite && (oklab k).b.isFinite

end Sys2Proof.Machine
end

