-- ==== Sys2Proof/Certificates/Slice0/Obligations.lean ====
section
/-! DEFINITION. The statements for the provers. Each docstring cites the rule of spec/ it formalises. -/

open Sys2Proof Sys2Proof.Machine

/-! ### Encoding -/

/-- Every well-formed command is read back from its word (30_encoding.md R98, R99, R103). -/
def Obligations.DecodeInvertsEncode : Prop :=
  ∀ i : Instr, i.wellFormed = true → decode (encode i) = .ok i

/-- A word that decodes is the word of its command, which is well formed: no bit is dropped (R98, R99, R103). -/
def Obligations.EncodeInvertsDecode : Prop :=
  ∀ (w : Word64) (i : Instr), decode w = .ok i → i.wellFormed = true ∧ encode i = w

/-- A word selects a row of the opcode table iff its masked bits match, a word that decodes selects one, and no two
rows overlap (R103). -/
def Obligations.DecoderFollowsTable : Prop :=
  (∀ w : Word64, ∀ row ∈ commandTable,
    (w &&& row.mask = row.pattern ↔ ∃ i, decode w = .ok i ∧ opcodeOf i = row.opcode)) ∧
  (∀ (w : Word64) (i : Instr), decode w = .ok i → ∃ row ∈ commandTable, opcodeOf i = row.opcode) ∧
  (∀ w : Word64, ∀ a ∈ commandTable, ∀ b ∈ commandTable,
    w &&& a.mask = a.pattern → w &&& b.mask = b.pattern → a = b)

/-- The worked encodings of R108, read and written. -/
def Obligations.WorkedEncodings : Prop :=
  (∀ wi ∈ [(0x01000000_3F800000#64, Instr.setds 0x3F800000#32), (0x02000100_00000000#64, .exact 256#16),
      (0x04000100_00000096#64, .analyze 256#16 150#32), (0x0C000000_00FF8080#64, .diff3 255#8 128#8 128#8),
      (0x10000002_00000006#64, .reduceByName 2#16 .scatter), (0x18000000_00000000#64, .reduceKnoll 0#16)],
    decode wi.1 = .ok wi.2 ∧ encode wi.2 = wi.1) ∧
  (∃ e, decode 0x02010100_00000000#64 = .error e)

/-! ### Colour formats -/

/-- `shrink` by shifts and masks; alpha is dropped (R93). -/
def Obligations.ShrinkFormula : Prop :=
  ∀ c : Word32,
    shrink c = key3 (redOf c) (greenOf c) (blueOf c) ∧
    (shrink c).setWidth 32 =
      ((c >>> 17) &&& 0x7C00#32) ||| ((c >>> 14) &&& 0x03E0#32) ||| ((c >>> 11) &&& 0x001F#32)

/-- `stretch` replicates the top three bits, and the round trip from a colour loses the low bits only (R94). -/
def Obligations.StretchFormula : Prop :=
  (∀ k : Key, stretch k = rgba (up5 (k.extractLsb' 10 5)) (up5 (k.extractLsb' 5 5)) (up5 (k.extractLsb' 0 5)) 0xFF#8) ∧
  (∀ v : BitVec 5, (up5 v).toNat = v.toNat * 8 + v.toNat / 4) ∧
  (up5 0#5 = 0#8 ∧ up5 31#5 = 255#8 ∧ up5 16#5 = 132#8) ∧
  (∀ c : Word32, stretch (shrink c) &&& 0xF8F8F800#32 = c &&& 0xF8F8F800#32 ∧
    stretch (shrink c) &&& 0xFF#32 = 0xFF#32)

/-- The snap of the dithers is the round trip through the key (R95). -/
def Obligations.SnapIsStretchShrink : Prop :=
  ∀ c : Word32,
    snap c = ((c &&& 0xF8F8F880#32) ||| (((c &&& 0xF8F8F880#32) >>> 5) &&& 0x07070700#32) ||| 0xFF#32) ∧
    snap c = stretch (shrink c) ∧ alphaOf (snap c) = 0xFF#8

/-- The analysis snap has no masking, is idempotent, and lands on the grid exactly where the low bits of each
channel were already a subset of its top bits (R96). -/
def Obligations.AnalysisSnap : Prop :=
  (∀ c : Word32,
    asnap c = (c ||| ((c >>> 5) &&& 0x07070700#32) ||| 0xFF#32) ∧
    asnap (asnap c) = asnap c ∧
    ((∃ k : Key, asnap c = stretch k) ↔
      (c >>> 5) &&& 0x07070700#32 &&& c = c &&& 0x07070700#32)) ∧
  asnap 0x070000FF#32 = 0x070000FF#32

/-- The index forms stay inside their tables (20_memory.md R69). -/
def Obligations.IndexFormsInRange : Prop :=
  (∀ x y : Nat, bnIndex x y < 4096 ∧ bn2Index x y < 4096 ∧ tm16Index x y < 16 ∧ krIndex x y < 8) ∧
  (∀ x y : Nat, bnIndex x y = x % 64 + y % 64 * 64 ∧ bn2Index x y = 19 * x % 64 + 23 * y % 64 * 64 ∧
    tm16Index x y = x % 4 + y % 4 * 4)

/-! ### Steps, HOST, reset -/

/-- When the oldest pending action is a word that decodes, a step runs the command with that action taken off the
list; a reserved word is refused `Invalid`; with nothing pending the machine waits. The list and the waiting step are
the model's form of HOST (assumption log 1). -/
def Obligations.StepRunsTheDecodedCommand : Prop :=
  ∀ s : State,
    (∀ (w : Word64) (rest : List HostAction), s.host = .issue w :: rest →
      (∀ i, decode w = .ok i → step s = exec i (s.setHost rest)) ∧
      (∀ e, decode w = .error e → step s = .refused (.invalid e))) ∧
    (s.host = [] → step s = .next s)

/-- No command changes what HOST has pending, `NFRM`, `IN` or `INMAP` (10_state.md R43, R45). -/
def Obligations.CommandsLeaveHostInputs : Prop :=
  ∀ (i : Instr) (s t : State), exec i s = .next t → SameInputs s t

/-- HOST's own writes change no register of ENGINE, nor its palette store, nor its working state (20_memory.md R72,
60_exceptions.md R280). -/
def Obligations.HostWritesLeaveEngine : Prop :=
  ∀ (s t : State) (a : HostAction) (rest : List HostAction), s.host = a :: rest → (∀ w, a ≠ .issue w) →
    step s = .next t → SameEngine s t ∧ t.host = rest

/-- The reset values the spec states (70_reset_and_hazards.md R300): every entry of the three spaces reads 0 and
the rows have capacity 0. -/
def Obligations.ResetValues : Prop :=
  State.reset.ds = ⟨0x3F000000#32⟩ ∧ State.reset.valid = false ∧ State.reset.cc = 0#9 ∧
  (∀ n, palAt State.reset n = 0#32) ∧ (∀ k, mapAt State.reset k = 0#8) ∧ (∀ n, gamAt State.reset n = 0#32) ∧
  State.reset.opa = 0#32 ∧ State.reset.res = 0#32 ∧
  State.reset.work.cur = ⟨[], [], []⟩ ∧ State.reset.work.next = ⟨[], [], []⟩

/-! ### Invariants -/

/-- Every step keeps every store canonical and inside its space (R41, R60); the canonical form is the model's choice
(assumption log 2). -/
def Obligations.StepKeepsStores : Prop :=
  ∀ s t : State, s.storesWf = true → step s = .next t → t.storesWf = true

/-- The invariants hold at reset: the stores are canonical, and the palette store is consistent (R300: `GAM` is zero
because `pow(0, 0.9) = 0`). -/
def Obligations.ResetIsGood : Prop := State.reset.storesWf = true ∧ State.reset.PaletteOk

/-- Every step keeps the palette store consistent: the tail of `PAL` zero, `GAM` the gamma table of `PAL` and `DS`,
`CC` in 2..256 with its `PB` once loaded (10_state.md R20, R21, R35, 41_palette_load.md R162). -/
def Obligations.StepKeepsPaletteConsistent : Prop :=
  ∀ s t : State, s.PaletteOk → step s = .next t → t.PaletteOk

/-- In every state that some run reaches, whatever HOST does in it, the stores are canonical and the palette store is
consistent. Runs are the model's, with HOST's actions as a list (assumption log 1). -/
def Obligations.ReachableStatesAreGood : Prop :=
  ∀ s : State, Reachable s → s.storesWf = true ∧ s.PaletteOk

/-- `VALID`: 0 after reset, set by every completing load and by nothing else, never cleared, and every REDUCE is
refused while it is 0 (10_state.md R23). -/
def Obligations.ValidBit : Prop :=
  State.reset.valid = false ∧
  (∀ (i : Instr) (s t : State), loadsPalette i = true → exec i s = .next t → t.valid = true) ∧
  (∀ (i : Instr) (s t : State), loadsPalette i = false → exec i s = .next t → t.valid = s.valid) ∧
  (∀ s t : State, s.valid = true → step s = .next t → t.valid = true) ∧
  (∀ (i : Instr) (s : State), (ditherOf i).isSome = true → s.valid = false → exec i s = .refused .notLoaded)

/-- Who writes what (10_state.md R45): each piece of state changes only under the commands the table names. -/
def Obligations.WritersOfEachState : Prop :=
  ∀ (i : Instr) (s t : State), exec i s = .next t →
    (loadsPalette i = false → t.cc = s.cc ∧ t.pb = s.pb ∧ t.pal = s.pal ∧ t.map = s.map ∧ t.valid = s.valid) ∧
    (loadsPalette i = false → (∀ v, i ≠ .setds v) → t.gam = s.gam) ∧
    ((∀ v, i ≠ .setds v) → t.ds = s.ds) ∧
    ((∀ c, i ≠ .seta c) → t.opa = s.opa) ∧
    ((∀ c, i ≠ .shrink c) → (∀ k, i ≠ .stretch k) → t.res = s.res) ∧
    ((∀ c, i ≠ .diff c) → (∀ r g b, i ≠ .diff3 r g b) → t.resf = s.resf) ∧
    ((∀ f, ditherOf i ≠ some (.floydSteinberg, f)) → (∀ f, ditherOf i ≠ some (.sierraLite, f)) →
      (∀ f, ditherOf i ≠ some (.scatter, f)) → t.work.cur = s.work.cur ∧ t.work.next = s.work.next) ∧
    ((∀ f, ditherOf i ≠ some (.chaoticNoise, f)) → t.work.chaos = s.work.chaos) ∧
    (ditherOf i = none → t.frm = s.frm) ∧ t.input = s.input ∧ t.inMap = s.inMap

/-! ### The colour primitives -/

/-- SETA (40_color_metric.md R128): its words, and `OPA <- c` with nothing else changed; never refused. That a word with
another field not zero is invalid is 30_encoding.md R99 and R102; the reason `nonzeroField` is the model's choice
(assumption log 21). -/
def Obligations.SetaResult : Prop :=
  (∀ (a : BitVec 16) (c : Word32),
    decode (0x08#8 ++ 0#8 ++ a ++ c) = if a = 0#16 then .ok (.seta c) else .error .nonzeroField) ∧
  ∀ (c : Word32) (s : State), exec (.seta c) s = .next { s with opa := c }

/-- SHRINK (R129): its words, and `RES <- shrink(c)` zero-extended with nothing else changed; never refused; alpha and
the low three bits of each channel are ignored. The reason `nonzeroField` of an invalid word is the model's choice
(R99, R102; assumption log 21). -/
def Obligations.ShrinkResult : Prop :=
  (∀ (a : BitVec 16) (c : Word32),
    decode (0x09#8 ++ 0#8 ++ a ++ c) = if a = 0#16 then .ok (.shrink c) else .error .nonzeroField) ∧
  (∀ (c : Word32) (s : State), exec (.shrink c) s = .next { s with res := 0#17 ++ shrink c }) ∧
  (∀ c : Word32, shrink (c &&& 0xF8F8F800#32) = shrink c) ∧
  shrink 0x00000000#32 = 0#15 ∧ shrink 0x000000FF#32 = 0#15 ∧ shrink 0xFF8080FF#32 = 0x7E10#15

/-- STRETCH (R130): its words, and `RES <- stretch(k)` with nothing else changed; never refused; `shrink` undoes it. The
reason `nonzeroField` of an invalid word is the model's choice (R99, R102; assumption log 21). -/
def Obligations.StretchResult : Prop :=
  (∀ (a : BitVec 16) (z : BitVec 17) (k : Key),
    decode (0x0A#8 ++ 0#8 ++ a ++ (z ++ k)) =
      if a = 0#16 ∧ z = 0#17 then .ok (.stretch k) else .error .nonzeroField) ∧
  (∀ (k : Key) (s : State), exec (.stretch k) s = .next { s with res := stretch k }) ∧
  (∀ k : Key, shrink (stretch k) = k) ∧
  stretch 0#15 = 0x000000FF#32 ∧ stretch 0x7FFF#15 = 0xFFFFFFFF#32 ∧ stretch 0x4210#15 = 0x848484FF#32

/-- DIFF (R124, R131): `+inf` on a mismatch of the alpha bits, else the distance of the keys, in `RESF`; nothing else
changes. The result is 0 for equal keys and alpha bits, where the table's entry is finite. -/
def Obligations.DiffResult : Prop :=
  ∀ (c : Word32) (s : State),
    exec (.diff c) s = .next { s with resf :=
      if (s.opa ^^^ c) &&& 0x80#32 ≠ 0#32 then ⟨0x7F800000#32⟩ else dkey (shrink s.opa) (shrink c) } ∧
    (shrink s.opa = shrink c → isOpaque s.opa = isOpaque c → finiteLab (shrink c) = true →
      exec (.diff c) s = .next { s with resf := ⟨0#32⟩ })

/-- DIFF3 (R125, R132): its words, and `+inf` for a transparent `OPA`, else the distance of the keys, in `RESF`;
nothing else changes, and it is never refused. The example of R132: with `OPA` = `0xFF0000FF`, DIFF3 255, 128, 128 is
DIFF `0xFF8080FF`. The reason `nonzeroField` of an invalid word is the model's choice (R99, R102; assumption
log 21). -/
def Obligations.Diff3Result : Prop :=
  (∀ (a : BitVec 16) (z r g b : Byte),
    decode (0x0C#8 ++ 0#8 ++ a ++ (z ++ r ++ g ++ b)) =
      if a = 0#16 ∧ z = 0#8 then .ok (.diff3 r g b) else .error .nonzeroField) ∧
  (∀ (r g b : Byte) (s : State),
    exec (.diff3 r g b) s = .next { s with resf :=
      if s.opa &&& 0x80#32 = 0#32 then ⟨0x7F800000#32⟩ else dkey (shrink s.opa) (key3 r g b) }) ∧
  ∀ s : State, s.opa = 0xFF0000FF#32 → exec (.diff3 255#8 128#8 128#8) s = exec (.diff 0xFF8080FF#32) s

/-- The Oklab table and the distance. For every key the three coordinates are R121's sums over the squared ramp of R120,
with its eighteen coefficients (`OKLAB_RAMP` at the value R5 shows, assumption log 13); the distance of two keys is R123's formula over those coordinates, with the scale of
R126. The distance is symmetric, zero between equal keys and never negative, where the coordinates are finite numbers
(R123); black has the coordinates 0, 0, 0 exactly (R122). -/
def Obligations.DistanceLaws : Prop :=
  (∀ k : Key,
    let ramp := fun (i : BitVec 5) => (FP.ofInt (i.toNat * i.toNat : Nat)).div (FP.ofInt 961)
    let rf := ramp (k.extractLsb' 10 5)
    let gf := ramp (k.extractLsb' 5 5)
    let bf := ramp (k.extractLsb' 0 5)
    let times := fun (n : Int) (v : FP) => (FP.ofDecimal n 7).mul v
    let l := (((times 4121656 rf).add (times 5362752 gf)).add (times 514576 bf)).cbrt
    let m := (((times 2118591 rf).add (times 6807190 gf)).add (times 1074066 bf)).cbrt
    let s := (((times 883098 rf).add (times 2818474 gf)).add (times 6302614 bf)).cbrt
    (oklab k).l = ((times 2104543 l).add (times 7936178 m)).sub (times 40720 s) ∧
    (oklab k).a = ((times 19779985 l).sub (times 24285922 m)).add (times 4505937 s) ∧
    (oklab k).b = ((times 259040 l).add (times 7827718 m)).sub (times 8086758 s)) ∧
  (∀ kx ky : Key,
    let dL := (oklab kx).l.sub (oklab ky).l
    let da := (oklab kx).a.sub (oklab ky).a
    let db := (oklab kx).b.sub (oklab ky).b
    dkey kx ky = (((dL.mul dL).add (da.mul da)).add (db.mul db)).mul ⟨0x4693088C#32⟩) ∧
  (∀ kx ky : Key, finiteLab kx = true → finiteLab ky = true →
    dkey kx ky = dkey ky kx ∧ dkey kx kx = ⟨0#32⟩ ∧
      (dkey kx ky).isNan = false ∧ FP.lt (dkey kx ky) FP.zero = false) ∧
  oklab 0#15 = ⟨⟨0#32⟩, ⟨0#32⟩, ⟨0#32⟩⟩

/-! ### SETDS and gamma -/

/-- SETDS (41_palette_load.md R164): its words; a finite operand stores `s /. 2`, or 0 where `s` is not above 0, with
`GAM` recomputed and nothing else changed; a NaN or an infinity is refused. The reason `nonzeroField` of an invalid
word is the model's choice (R99, R102; assumption log 21). -/
def Obligations.SetdsResult : Prop :=
  (∀ (a : BitVec 16) (v : Word32),
    decode (0x01#8 ++ 0#8 ++ a ++ v) = if a = 0#16 then .ok (.setds v) else .error .nonzeroField) ∧
  (∀ (v : Word32) (s : State), (FP.mk v).isFinite = true →
    exec (.setds v) s =
      let d := if FP.lt ⟨0#32⟩ ⟨v⟩ then (FP.mk v).div (FP.ofInt 2) else ⟨0#32⟩
      .next { s with ds := d, gam := gammaTable d s.pal }) ∧
  (∀ (v : Word32) (s : State), (FP.mk v).isFinite = false → exec (.setds v) s = .refused .operandRange) ∧
  (∀ (v : Word32) (s : State), v.msb = true → (FP.mk v).isFinite = true →
    ∃ t, exec (.setds v) s = .next t ∧ t.ds = ⟨0#32⟩) ∧
  (∀ s : State, ∃ t, exec (.setds 0x3F800000#32) s = .next t ∧ t.ds = State.reset.ds) ∧
  (∀ s : State, ∃ t, exec (.setds 0x40000000#32) s = .next t ∧ t.ds = ⟨0x3F800000#32⟩ ∧
    (gammaExponent t.ds).isZero = true)

/-- Each entry of the gamma table: R, G, B through `pow` at the exponent `1.8 *. (1 −. DS)`, alpha copied, for all 256
entries (R165). -/
def Obligations.GammaEntries : Prop :=
  ∀ (s : State) (v : Word32) (t : State), exec (.setds v) s = .next t → ∀ n, n < 256 →
    let g := (FP.ofDecimal 18 1).mul ((FP.ofInt 1).sub t.ds)
    let ch := fun (c : Byte) =>
      clamp ((((((FP.ofInt c.toNat).div (FP.ofInt 255)).pow g).mul (FP.ofInt 255)).add (FP.ofDecimal 5 1)).trunc) 0 255
    ((redOf (gamAt t n)).toNat : Int) = ch (redOf (palAt t n)) ∧
    ((greenOf (gamAt t n)).toNat : Int) = ch (greenOf (palAt t n)) ∧
    ((blueOf (gamAt t n)).toNat : Int) = ch (blueOf (palAt t n)) ∧
    alphaOf (gamAt t n) = alphaOf (palAt t n)

/-- The corners of the gamma computation that hold whatever the free functions of `Numerics` are: for a positive exponent
0 stays 0 and 255 stays 255; for an exponent of 0 every channel becomes 255; for a negative one channels 0 and 255
become 255 (R165, by the special cases of `pow` in 00_scope.md R7). The exponent 0 is taken with either sign: that
`pow(x, -0)` is 1 as `pow(x, 0)` is, is the model's reading of R7 (DEDUCED, assumption log 10). -/
def Obligations.GammaFixedPoints : Prop :=
  ∀ g : FP,
    (FP.lt FP.zero g = true → gammaChannel g 0#8 = 0#8 ∧ gammaChannel g 255#8 = 255#8) ∧
    (g.isZero = true → ∀ v : Byte, gammaChannel g v = 255#8) ∧
    (FP.lt g FP.zero = true → gammaChannel g 0#8 = 255#8 ∧ gammaChannel g 255#8 = 255#8)

/-! ### Palette loads -/

/-- The EXACT fallback (R151): `IN` absent, shorter than 2, or `n < 2`: HALTONIC is loaded slot for slot, whatever
`n` is, and `CC` is 256. -/
def Obligations.ExactFallback : Prop :=
  ∀ (n : BitVec 16) (s : State), (s.input = none ∨ (∃ src, s.input = some src ∧ src.length < 2) ∨ n.toNat < 2) →
    ∃ t, exec (.exact n) s = .next t ∧ t.valid = true ∧ t.cc = 256#9 ∧ t.pb = populationBias 256 ∧
      (∀ j, palAt t j = if j < 256 ∧ isOpaque (Config.haltonic j) then Config.haltonic j else 0#32) ∧
      t.gam = gammaTable s.ds t.pal ∧ t.ds = s.ds ∧ SamePrimitives s t ∧ SameInputs s t ∧
      t.work = s.work ∧ t.frm = s.frm

/-- EXACT on a usable input (R150): slot for slot up to `min(n, INLEN)`, transparent entries leaving zero slots, the
tail zero, `CC` counting every slot. -/
def Obligations.ExactLoadsInput : Prop :=
  ∀ (n : BitVec 16) (s : State) (src : List Word32), s.input = some src → 2 ≤ src.length → src.length ≤ 256 →
    2 ≤ n.toNat → n.toNat ≤ 256 →
    ∃ t, exec (.exact n) s = .next t ∧ t.valid = true ∧ t.cc.toNat = min n.toNat src.length ∧
      t.pb = ((FP.ofDecimal (-1375) 3).div (FP.ofInt (min n.toNat src.length : Nat))).exp ∧
      (∀ j, palAt t j =
        if j < min n.toNat src.length ∧ isOpaque (src.getD j 0#32) then src.getD j 0#32 else 0#32) ∧
      t.gam = gammaTable s.ds t.pal ∧ t.ds = s.ds ∧ SamePrimitives s t ∧ SameInputs s t ∧
      t.work = s.work ∧ t.frm = s.frm

/-- The index after EXACT or ANALYZE (R154, R155). A key that an opaque entry of slot 1 or above has is mapped to the
highest such slot. Every other key is mapped to the lowest slot from 1 up at the least distance, or to 0 if no
distance is below `+inf`. -/
def Obligations.IndexNamesNearest : Prop :=
  ∀ (i : Instr) (s t : State), ((∃ n, i = .exact n) ∨ ∃ l v, i = .analyze l v) → exec i s = .next t →
    ∀ k : Key,
      let d := fun j => diff3 (palAt t j) (up5 (keyRed k)) (up5 (keyGreen k)) (up5 (keyBlue k))
      let m := (mapAt t k).toNat
      let marks := fun j => 1 ≤ j ∧ j < t.cc.toNat ∧ isOpaque (palAt t j) = true ∧ shrink (palAt t j) = k
      ((∃ j, marks j) → marks m ∧ ∀ j, marks j → j ≤ m) ∧
      ((¬∃ j, marks j) →
        (1 ≤ m ∧ m < t.cc.toNat ∧ FP.lt (d m) FP.posInf = true ∧
          (∀ j, 1 ≤ j → j < t.cc.toNat → FP.lt (d j) (d m) = false) ∧
          (∀ j, 1 ≤ j → j < m → FP.lt (d m) (d j) = true ∨ (d j).isNan = true)) ∨
        (m = 0 ∧ ∀ j, 1 ≤ j → j < t.cc.toNat → FP.lt (d j) FP.posInf = false))

/-- PRELOAD (R156): `PAL[0..n−1]` verbatim, the tail zero, `MAP` byte for byte, `CC = n`. -/
def Obligations.PreloadCopies : Prop :=
  ∀ (n : BitVec 16) (s : State) (src : List Word32) (m : Memory 8), s.input = some src → s.inMap = some m →
    2 ≤ n.toNat → n.toNat ≤ 256 → n.toNat ≤ src.length →
    ∃ t, exec (.preload n) s = .next t ∧ t.valid = true ∧ t.cc.toNat = n.toNat ∧
      t.pb = populationBias n.toNat ∧
      (∀ j, palAt t j = if j < n.toNat then src.getD j 0#32 else 0#32) ∧
      (∀ k : Key, mapAt t k = Memory.read m k.toNat) ∧
      t.gam = gammaTable s.ds t.pal ∧ t.ds = s.ds ∧ SamePrimitives s t ∧ SameInputs s t ∧
      t.work = s.work ∧ t.frm = s.frm

/-- Carrying `PAL`, `MAP`, `CC` and `DS` to another ENGINE reproduces the palette store whole (20_memory.md R76,
70_reset_and_hazards.md R304). -/
def Obligations.PreloadRoundTrip : Prop :=
  ∀ s u : State, s.valid = true → s.storesWf = true → s.PaletteOk → u.ds = s.ds →
    u.input = some (palWords s) → u.inMap = some s.map →
    ∃ t, exec (.preload (s.cc.setWidth 16)) u = .next t ∧ SamePalette s t

/-- ANALYZE (R157, R160, R162) on present frames with `2 ≤ L ≤ 256` and `T < 2^31`: a palette of 2 to 256 slots is
loaded and the frames are only read; with fewer than two colours, transparency counted, it is the fallback. -/
def Obligations.AnalyzeCompletes : Prop :=
  ∀ (l : BitVec 16) (v : Word32) (s : State) (frames : List Frame), 2 ≤ l.toNat → l.toNat ≤ 256 → v.toNat < 2 ^ 31 →
    analyzedFrames s = some frames →
    ∃ t, exec (.analyze l v) s = .next t ∧ t.valid = true ∧ 2 ≤ t.cc.toNat ∧ t.cc.toNat ≤ 256 ∧
      t.pb = populationBias t.cc.toNat ∧ t.gam = gammaTable s.ds t.pal ∧ t.ds = s.ds ∧
      (∀ j, t.cc.toNat ≤ j → palAt t j = 0#32) ∧
      SamePrimitives s t ∧ SameInputs s t ∧ t.work = s.work ∧ t.frm = s.frm ∧
      (distinctColours frames + transparentCount frames < 2 →
        t.cc = 256#9 ∧
        ∀ j, palAt t j = if j < 256 ∧ isOpaque (Config.haltonic j) then Config.haltonic j else 0#32)

/-- The adopt branch (R161): every distinct snapped colour has exactly one slot, from slot `has_transparent` up, in the
order of R159; slot 0 is reserved iff a pixel was transparent. -/
def Obligations.AnalyzeAdopts : Prop :=
  ∀ (l : BitVec 16) (v : Word32) (s t : State) (frames : List Frame), analyzedFrames s = some frames →
    exec (.analyze l v) s = .next t →
    2 ≤ distinctColours frames + transparentCount frames →
    distinctColours frames + transparentCount frames ≤ l.toNat →
    let h := transparentCount frames
    t.cc.toNat = distinctColours frames + h ∧
    (reserved t = sawTransparent frames) ∧
    (∀ c, c ∈ analyzedColours frames ↔ ∃ j, h ≤ j ∧ j < t.cc.toNat ∧ palAt t j = c) ∧
    (∀ i j, h ≤ i → i < j → j < t.cc.toNat → sortsBefore (analyzedColours frames) (palAt t i) (palAt t j))

/-- The greedy branch (R161): slot 0 reserved, accepted colours in the order of R159 and at least `T'` apart; a colour
left out is nearer than `T'` to an accepted one before it, or the `L` slots were full before it. -/
def Obligations.AnalyzeSelectsGreedily : Prop :=
  ∀ (l : BitVec 16) (v : Word32) (s t : State) (frames : List Frame), analyzedFrames s = some frames →
    exec (.analyze l v) s = .next t →
    l.toNat < distinctColours frames + transparentCount frames →
    let seen := analyzedColours frames
    let tp := FP.ofInt (v.toNat / 4 : Nat)
    reserved t = true ∧ 2 ≤ t.cc.toNat ∧ t.cc.toNat ≤ l.toNat ∧
    (∀ j, 1 ≤ j → j < t.cc.toNat → palAt t j ∈ seen) ∧
    (∀ i j, 1 ≤ i → i < j → j < t.cc.toNat →
      sortsBefore seen (palAt t i) (palAt t j) ∧ FP.lt (diff (palAt t j) (palAt t i)) tp = false) ∧
    (∀ c ∈ seen, (∃ j, 1 ≤ j ∧ j < t.cc.toNat ∧ palAt t j = c) ∨
      (∃ j, 1 ≤ j ∧ j < t.cc.toNat ∧ sortsBefore seen (palAt t j) c ∧ FP.lt (diff c (palAt t j)) tp = true) ∨
      (t.cc.toNat = l.toNat ∧ ∀ j, 1 ≤ j → j < t.cc.toNat → sortsBefore seen (palAt t j) c))

/-- The refusals of the loads and their order (60_exceptions.md R275, R276 (3), (4)). -/
def Obligations.LoadRefusals : Prop :=
  (∀ (n : BitVec 16) (s : State) (src : List Word32), s.input = some src → 2 ≤ src.length → 2 ≤ n.toNat →
    (256 < src.length ∨ 256 < n.toNat) → exec (.exact n) s = .refused .operandRange) ∧
  (∀ (n : BitVec 16) (s : State),
    (s.input = none ∨ s.inMap = none ∨ n.toNat < 2 ∨ 256 < n.toNat ∨
      ∃ src, s.input = some src ∧ src.length < n.toNat) →
    exec (.preload n) s = .refused .operandRange) ∧
  (∀ (l : BitVec 16) (v : Word32) (s : State), v.toNat < 2 ^ 31 → (l.toNat < 2 ∨ 256 < l.toNat) →
    exec (.analyze l v) s = .refused .operandRange) ∧
  (∀ (l : BitVec 16) (v : Word32) (s : State) (j : Nat), v.toNat < 2 ^ 31 → 2 ≤ l.toNat → l.toNat ≤ 256 →
    j < s.nfrm → frameAt s j = none → exec (.analyze l v) s = .refused .frameAbsent)

/-- What SETDS, EXACT, PRELOAD and ANALYZE leave alone; and after a load no command but another load changes the
palette store, the gamma table excepted, which SETDS recomputes (R166). -/
def Obligations.LoadsAndSetdsLeave : Prop :=
  (∀ (v : Word32) (s t : State), exec (.setds v) s = .next t →
    t.pal = s.pal ∧ t.map = s.map ∧ t.cc = s.cc ∧ t.pb = s.pb) ∧
  (∀ (i : Instr) (s t : State), loadsPalette i = true → exec i s = .next t → t.ds = s.ds) ∧
  (∀ (i : Instr) (s t : State), (loadsPalette i = true ∨ ∃ v, i = .setds v) → exec i s = .next t →
    t.frm = s.frm ∧ t.work = s.work ∧ SamePrimitives s t) ∧
  (∀ (i : Instr) (s t : State), loadsPalette i = false → exec i s = .next t →
    t.pal = s.pal ∧ t.map = s.map ∧ t.cc = s.cc ∧ t.pb = s.pb ∧ ((∀ v, i ≠ .setds v) → t.gam = s.gam))

/-- A SETDS and a load may come in either order (70_reset_and_hazards.md R303). -/
def Obligations.SetdsCommutesWithLoads : Prop :=
  ∀ (i : Instr) (v : Word32) (s a b : State), loadsPalette i = true → exec i s = .next a →
    exec (.setds v) s = .next b → ∃ t, exec (.setds v) a = .next t ∧ exec i b = .next t

/-! ### The REDUCE commands -/

/-- REDUCE (42_dither_common.md R196): its words, and that it is the command of the selected method; every value from
7 up is Scatter (30_encoding.md R105). -/
def Obligations.ReduceDispatches : Prop :=
  (∀ (f : BitVec 16) (sel : Word32), decode (0x10#8 ++ 0#8 ++ f ++ sel) = .ok (.reduce f sel)) ∧
  ∀ (f : BitVec 16) (s : State),
    exec (.reduce f 0#32) s = exec (.reduceSolid f) s ∧
    exec (.reduce f 1#32) s = exec (.reduceJimenez f) s ∧
    exec (.reduce f 2#32) s = exec (.reduceKnoll f) s ∧
    exec (.reduce f 3#32) s = exec (.reduceChaotic f) s ∧
    exec (.reduce f 4#32) s = exec (.reduceFs f) s ∧
    exec (.reduce f 5#32) s = exec (.reduceBlue f) s ∧
    (∀ sel : Word32, 6 ≤ sel.toNat → exec (.reduce f sel) s = exec (.reduceScatter f) s)

/-- Every REDUCE before its loop, in the order of the checks (60_exceptions.md R275, R276): refused while nothing is
loaded, refused for a slot at or past `MAX_FRAMES`, and completing without any change for the null frame (R272) and for
a frame without pixels. That last clause is the model's reading of 20_memory.md R63 over the start hook of R190
(assumption log 8). `MAX_FRAMES` is open, so there may be no slot number at or past it (assumption log 12). -/
def Obligations.ReduceChecks : Prop :=
  ∀ (i : Instr) (dm : DitherMethod) (f : BitVec 16) (s : State), ditherOf i = some (dm, f) →
    (s.valid = false → exec i s = .refused .notLoaded) ∧
    (s.valid = true → (Config.maxFrames ≤ f.toNat ∨ frameAt s f.toNat = none) →
      exec i s = if f.toNat < Config.maxFrames then .next s else .refused .operandRange) ∧
    (∀ fr, s.valid = true → f.toNat < Config.maxFrames → frameAt s f.toNat = some fr →
      (fr.width = 0 ∨ fr.height = 0) → exec i s = .next s)

/-- Every REDUCE command (REDUCE, REDUCE_SOLID, REDUCE_FS, REDUCE_SIERRA, REDUCE_SCATTER, REDUCE_JIMENEZ, REDUCE_BLUE,
REDUCE_CHAOTIC, REDUCE_KNOLL, REDUCE_KNOLLR) on a present frame completes; it changes the pixels and the indices of that
frame and the working state, and nothing else: not the size and not the blending mode of the frame, not another frame,
not the palette store (R64, R195). -/
def Obligations.ReduceCompletesWithFrame : Prop :=
  ∀ (i : Instr) (dm : DitherMethod) (f : BitVec 16) (s : State) (fr : Frame), ditherOf i = some (dm, f) →
    s.valid = true → f.toNat < Config.maxFrames → frameAt s f.toNat = some fr → fr.wf = true →
    ∃ t g, exec i s = .next t ∧ frameAt t f.toNat = some g ∧ g.wf = true ∧
      g.width = fr.width ∧ g.height = fr.height ∧ g.blend = fr.blend ∧
      (∀ j, j ≠ f.toNat → frameAt t j = frameAt s j) ∧
      SamePalette s t ∧ SamePrimitives s t ∧ SameInputs s t

/-- After a REDUCE on a present frame every pixel is a palette entry and the index plane names it; where the palette is
reserved that entry may be the zero of slot 0 (R198). -/
def Obligations.PixelsArePaletteEntries : Prop :=
  ∀ (i : Instr) (dm : DitherMethod) (f : BitVec 16) (s : State) (fr : Frame), ditherOf i = some (dm, f) →
    s.valid = true → f.toNat < Config.maxFrames → frameAt s f.toNat = some fr → fr.wf = true →
    ∃ t g, exec i s = .next t ∧ frameAt t f.toNat = some g ∧
      ∀ x y, x < fr.width → y < fr.height → getPixel g x y = palAt t (getIndex g x y).toNat

/-- The transparent shortcut (R191): under a reserved palette a transparent pixel becomes 0 with index 0, in every
method. -/
def Obligations.TransparentBecomesZero : Prop :=
  ∀ (i : Instr) (dm : DitherMethod) (f : BitVec 16) (s t : State) (fr g : Frame), ditherOf i = some (dm, f) →
    frameAt s f.toNat = some fr → fr.wf = true → reserved s = true →
    exec i s = .next t → frameAt t f.toNat = some g →
    ∀ x y, x < fr.width → y < fr.height → isOpaque (getPixel fr x y) = false →
      getPixel g x y = 0#32 ∧ getIndex g x y = 0#8

/-- REDUCE_SOLID: each pixel becomes the palette colour its key is mapped to (R197). -/
def Obligations.SolidPixels : Prop :=
  ∀ (f : BitVec 16) (s : State) (fr : Frame), s.valid = true → f.toNat < Config.maxFrames →
    frameAt s f.toNat = some fr → fr.wf = true →
    ∃ t g, exec (.reduceSolid f) s = .next t ∧ frameAt t f.toNat = some g ∧ t.work = s.work ∧
      ∀ x y, x < fr.width → y < fr.height →
        getIndex g x y =
          (if isOpaque (getPixel fr x y) = false ∧ palAt s 0 = 0#32 then 0#8 else mapAt s (shrink (getPixel fr x y))) ∧
        getPixel g x y = palAt s (getIndex g x y).toNat

/-- A second REDUCE_SOLID changes nothing where every index of `MAP` stands for its own colour: an opaque entry's key
is mapped to that entry, and a transparent one is the reserved zero (R199). -/
def Obligations.SolidIdempotent : Prop :=
  ∀ (f : BitVec 16) (s t : State) (fr : Frame), frameAt s f.toNat = some fr → fr.wf = true →
    (∀ k : Key, if isOpaque (palAt s (mapAt s k).toNat) = true
      then mapAt s (shrink (palAt s (mapAt s k).toNat)) = mapAt s k else mapAt s k = 0#8 ∧ palAt s 0 = 0#32) →
    exec (.reduceSolid f) s = .next t →
    ∃ u, exec (.reduceSolid f) t = .next u ∧
      ∀ g h x y, frameAt t f.toNat = some g → frameAt u f.toNat = some h → x < fr.width → y < fr.height →
        getPixel h x y = getPixel g x y ∧ getIndex h x y = getIndex g x y

/-- After an EXACT whose palette reserves slot 0 and whose opaque entries have distinct keys, every index of `MAP`
stands for its own colour: the condition under which R199 holds. -/
def Obligations.DistinctKeysFixTheIndex : Prop :=
  ∀ (n : BitVec 16) (s t : State), exec (.exact n) s = .next t → palAt t 0 = 0#32 →
    (∀ i j, i < t.cc.toNat → j < t.cc.toNat → isOpaque (palAt t i) = true → isOpaque (palAt t j) = true →
      shrink (palAt t i) = shrink (palAt t j) → i = j) →
    ∀ k : Key, if isOpaque (palAt t (mapAt t k).toNat) = true
      then mapAt t (shrink (palAt t (mapAt t k).toNat)) = mapAt t k else mapAt t k = 0#8 ∧ palAt t 0 = 0#32

/-- The two ordered dithers without state: first pass, adjustment from the position by the formula of the method (R232
for Jimenez, R234 for Blue-Noise), second pass (44_dither_noise.md R230). -/
def Obligations.OrderedNoisePixels : Prop :=
  ∀ (i : Instr) (f : BitVec 16) (s : State) (fr : Frame), (i = .reduceJimenez f ∨ i = .reduceBlue f) →
    s.valid = true → f.toNat < Config.maxFrames → frameAt s f.toNat = some fr → fr.wf = true →
    ∃ t g, exec i s = .next t ∧ frameAt t f.toNat = some g ∧ t.work = s.work ∧
      ∀ x y, x < fr.width → y < fr.height →
        let str := s.ds.mul s.pb
        let half := FP.ofDecimal 5 1
        let frac := fun (v : FP) => v.sub v.floor
        let pos := frac ((FP.ofDecimal 529829189 7).mul (frac
          (((FP.ofDecimal 6711056 8).mul (FP.ofInt x)).add ((FP.ofDecimal 583715 8).mul (FP.ofInt y)))))
        let jimenez := (((FP.ofInt 2).mul pos).sub (FP.ofInt 1)).sin.mul ((FP.ofDecimal 3333 3).mul str)
        let raw := fun (n : Nat) => FP.ofInt (Config.bnraw n).toInt
        let a1 := ((raw ((x &&& 63) ||| ((y &&& 63) <<< 6))).add half).div (FP.ofDecimal 1275 1)
        let chk := (FP.ofInt ((x + y) % 2 : Nat)).sub half
        let n2 := half.add (raw (((19 * x) &&& 63) ||| (((23 * y) &&& 63) <<< 6)))
        let a2 := a1.add ((chk.mul n2).mul (FP.ofDecimal (-13427734375) 13))
        let blue := a2.mul ((FP.ofDecimal 15 1).mul str)
        let adj := if i = .reduceJimenez f then jimenez else blue
        let c := snap (getPixel fr x y)
        let used := palAt s (mapAt s (shrink c)).toNat
        let target := fun (ch : Word32 → Byte) =>
          BitVec.ofInt 8 (clamp ((FP.ofInt (ch c).toNat).add
            (adj.mul (FP.ofInt (((ch c).toNat : Int) - (ch used).toNat)))).trunc 0 255)
        getIndex g x y =
          (if isOpaque (getPixel fr x y) = false ∧ palAt s 0 = 0#32 then 0#8
          else mapAt s (key3 (target redOf) (target greenOf) (target blueOf))) ∧
        getPixel g x y = palAt s (getIndex g x y).toNat

/-- REDUCE_CHAOTIC: each pixel is adjusted, by the last lines of R235, from the accumulator that every earlier pixel of
the frame, in raster order and not short-cut, has been mixed into with its first-pass colour (R235, 10_state.md R39).
The cubed term is line 1 of R234, the value R5 shows for `CHAOTIC_BN_STAGE` (assumption log 13); that the last value
stays in `S` is the model's choice (assumption log 5). -/
def Obligations.ChaoticPixels : Prop :=
  ∀ (f : BitVec 16) (s : State) (fr : Frame), s.valid = true → f.toNat < Config.maxFrames →
    frameAt s f.toNat = some fr → fr.wf = true → 0 < fr.width → 0 < fr.height →
    ∃ t g, exec (.reduceChaotic f) s = .next t ∧ frameAt t f.toNat = some g ∧
      t.work.cur = s.work.cur ∧ t.work.next = s.work.next ∧ t.work.chaos = chaosBefore s fr 0 fr.height ∧
      ∀ x y, x < fr.width → y < fr.height →
        let str := s.ds.mul s.pb
        let half := FP.ofDecimal 5 1
        let c := snap (getPixel fr x y)
        let used := palAt s (mapAt s (shrink c)).toNat
        let before := chaosBefore s fr x y
        let after := (before ^^^ used.setWidth 64) * 0xD1342543DE82EF95#64 + 0x91E10DA5C79E7B1D#64
        let a1 := ((FP.ofInt (Config.bnraw ((x &&& 63) ||| ((y &&& 63) <<< 6))).toInt).add half).div
          (FP.ofDecimal 1275 1)
        let bn3 := (a1.mul a1).mul a1
        let chk := (FP.ofInt ((x + y) % 2 : Nat)).sub half
        let tiny := ((FP.ofScaled 3 (-50)).mul str).mul chk
        let adj := bn3.add (tiny.mul (FP.ofInt (Config.chaos3 before after).toInt))
        let target := fun (ch : Word32 → Byte) =>
          BitVec.ofInt 8 (clamp ((FP.ofInt (ch c).toNat).add
            (adj.mul (FP.ofInt (((ch c).toNat : Int) - (ch used).toNat)))).trunc 0 255)
        getIndex g x y =
          (if isOpaque (getPixel fr x y) = false ∧ palAt s 0 = 0#32 then 0#8
          else mapAt s (key3 (target redOf) (target greenOf) (target blueOf))) ∧
        getPixel g x y = palAt s (getIndex g x y).toNat

/-- REDUCE_KNOLL and REDUCE_KNOLLR: each pixel takes the candidate its threshold names from the sorted candidates of
its own snapped colour (45_dither_pattern.md R250, R257). The candidates are those of R251, `IsCandidates`; the sort is
the compare-exchanges of R252 in the order of the network, a default of R5 (assumption log 13); the threshold of a Knoll-Roberts position is read at the
index of R256, computed in binary64 (free where the sum is not finite, assumption log 18). -/
def Obligations.PatternPixels : Prop :=
  ∀ (f : BitVec 16) (s : State) (fr : Frame), s.valid = true → f.toNat < Config.maxFrames →
    frameAt s f.toNat = some fr → fr.wf = true →
    let str := s.ds.mul s.pb
    let lightness := fun (i : Byte) => (oklab (shrink (palAt s i.toNat))).l
    let exchange := fun (c : List Byte) (pq : Nat × Nat) =>
      if FP.lt (lightness (c.getD pq.2 0#8)) (lightness (c.getD pq.1 0#8)) = true
      then (c.set pq.1 (c.getD pq.2 0#8)).set pq.2 (c.getD pq.1 0#8) else c
    (∃ t g, exec (.reduceKnoll f) s = .next t ∧ frameAt t f.toNat = some g ∧ t.work = s.work ∧
      ∀ x y, x < fr.width → y < fr.height →
        ∃ cand, IsCandidates s (getPixel fr x y) 16 str cand ∧
        getIndex g x y =
          (if isOpaque (getPixel fr x y) = false ∧ palAt s 0 = 0#32 then 0#8
          else (Config.net16.foldl exchange cand).getD
            ([0, 12, 3, 15, 8, 4, 11, 7, 2, 14, 1, 13, 10, 6, 9, 5].getD ((x &&& 3) ||| ((y &&& 3) <<< 2)) 0) 0#8) ∧
        getPixel g x y = palAt s (getIndex g x y).toNat) ∧
    (∃ t g, exec (.reduceKnollr f) s = .next t ∧ frameAt t f.toNat = some g ∧ t.work = s.work ∧
      ∀ x y, x < fr.width → y < fr.height →
        let r64 := binary64.round
        let c1 := r64 (.fin false 0x1C13FA9A902A6328F (-61))
        let c2 := r64 (.fin false 0x19E3779B97F4A7C15 (-66))
        let sum := r64 ((r64 ((r64 (Datum.ofInt x)).mul c1)).add (r64 ((r64 (Datum.ofInt y)).mul c2)))
        let n := (sum.floor.toInt?).getD (Config.krOverflow x y)
        let kr := (n % 4).toNat ^^^ ((x &&& 3) ||| ((y &&& 1) <<< 2))
        kr < 8 ∧
        ∃ cand, IsCandidates s (getPixel fr x y) 8 ((FP.ofDecimal 6 1).mul str) cand ∧
        getIndex g x y =
          (if isOpaque (getPixel fr x y) = false ∧ palAt s 0 = 0#32 then 0#8
          else (Config.net8.foldl exchange cand).getD (Config.tm8 (Fin.ofNat 8 kr)).val 0#8) ∧
        getPixel g x y = palAt s (getIndex g x y).toNat)

/-- A compare-exchange network only permutes the candidates (R252, R258). -/
def Obligations.NetworkPermutes : Prop :=
  ∀ (s : State) (net : List (Nat × Nat)) (cand : List Byte),
    (∀ pq ∈ net, pq.1 < pq.2 ∧ pq.2 < cand.length) → (sortNet s net cand).Perm cand

/-- The default 8-input network sorts candidates whose lightnesses are numbers (R252, R254; assumption log
13). -/
def Obligations.EightNetworkSorts : Prop :=
  ∀ (s : State) (cand : List Byte), cand.length = 8 → (∀ i ∈ cand, (lum s i).isNan = false) →
    ∀ p q, p < q → q < 8 →
      FP.lt (lum s ((sortNet s Config.net8 cand).getD q 0#8)) (lum s ((sortNet s Config.net8 cand).getD p 0#8)) = false

/-- The default 16-input network sorts candidates whose lightnesses are numbers (R252, R253; assumption log
13). -/
def Obligations.SixteenNetworkSorts : Prop :=
  ∀ (s : State) (cand : List Byte), cand.length = 16 → (∀ i ∈ cand, (lum s i).isNan = false) →
    ∀ p q, p < q → q < 16 →
      FP.lt (lum s ((sortNet s Config.net16 cand).getD q 0#8)) (lum s ((sortNet s Config.net16 cand).getD p 0#8)) =
        false

/-- The accumulate step writes one slot: the low byte of the truncated sum, wrapping and not saturating
(43_dither_diffusion.md R216). -/
def Obligations.AccumulateWritesOneSlot : Prop :=
  (∀ (row : List SByte) (x z : Nat) (dv : Int) (w : FP), x < row.length →
    (accumulate row x dv w).length = row.length ∧
    rowAt (accumulate row x dv w) z =
      if z = x then ((FP.ofInt (rowAt row x)).add ((FP.ofInt dv).mul w)).trunc.bmod 256 else rowAt row z) ∧
  accumulate [100#8] 0 123 (FP.ofDecimal 25 2) = [BitVec.ofInt 8 (-126)] ∧
  accumulate [BitVec.ofInt 8 (-3)] 0 (-10) (FP.ofDecimal 276 3) = [BitVec.ofInt 8 (-5)]

/-- REDUCE_FS without its rows: every pixel is its snapped colour plus the error its neighbours gave it, clamped and
looked up (R213, R217). -/
def Obligations.FloydSteinbergPixels : Prop :=
  ∀ (f : BitVec 16) (s : State) (fr : Frame), s.valid = true → f.toNat < Config.maxFrames →
    frameAt s f.toNat = some fr → fr.wf = true →
    ∃ t g, exec (.reduceFs f) s = .next t ∧ frameAt t f.toNat = some g ∧
      ∀ x y, x < fr.width → y < fr.height →
        let w1 := (s.ds.mul s.pb).mul (FP.ofDecimal 125 3)
        let o := rgbOf (snap (getPixel fr x y))
        let target := fun (ch : Tri Byte → Byte) =>
          BitVec.ofInt 8 (clamp ((ch o).toNat + (errorFs s .floydSteinberg w1 fr g ch x y).toInt) 0 255)
        getIndex g x y =
          (if isOpaque (getPixel fr x y) = false ∧ palAt s 0 = 0#32 then 0#8
          else mapAt s (key3 (target Tri.r) (target Tri.g) (target Tri.b))) ∧
        getPixel g x y = palAt s (getIndex g x y).toNat

/-- REDUCE_SIERRA without its rows (R214, R217). -/
def Obligations.SierraLitePixels : Prop :=
  ∀ (f : BitVec 16) (s : State) (fr : Frame), s.valid = true → f.toNat < Config.maxFrames →
    frameAt s f.toNat = some fr → fr.wf = true →
    ∃ t g, exec (.reduceSierra f) s = .next t ∧ frameAt t f.toNat = some g ∧
      ∀ x y, x < fr.width → y < fr.height →
        let wr := s.ds.mul s.pb
        let o := rgbOf (snap (getPixel fr x y))
        let target := fun (ch : Tri Byte → Byte) =>
          BitVec.ofInt 8 (clamp ((ch o).toNat + (errorSierra s wr (wr.mul (FP.ofDecimal 5 1)) fr g ch x y).toInt) 0 255)
        getIndex g x y =
          (if isOpaque (getPixel fr x y) = false ∧ palAt s 0 = 0#32 then 0#8
          else mapAt s (key3 (target Tri.r) (target Tri.g) (target Tri.b))) ∧
        getPixel g x y = palAt s (getIndex g x y).toNat

/-- REDUCE_SCATTER without its rows: the error is multiplied by the blue-noise multiplier of the position before it is
used (R215, R217); the multiplier is R127's formula. -/
def Obligations.ScatterPixels : Prop :=
  ∀ (f : BitVec 16) (s : State) (fr : Frame), s.valid = true → f.toNat < Config.maxFrames →
    frameAt s f.toNat = some fr → fr.wf = true →
    ∃ t g, exec (.reduceScatter f) s = .next t ∧ frameAt t f.toNat = some g ∧
      ∀ x y, x < fr.width → y < fr.height →
        let w1 := (s.ds.mul s.pb).mul (FP.ofDecimal 140625 6)
        let o := rgbOf (snap (getPixel fr x y))
        let target := fun (ch : Tri Byte → Byte) =>
          BitVec.ofInt 8 (clamp ((FP.ofInt (ch o).toNat).add ((FP.ofInt (errorFs s .scatter w1 fr g ch x y).toInt).mul
            (((FP.ofInt (Config.bntri ((x &&& 63) ||| ((y &&& 63) <<< 6))).toInt).add (FP.ofDecimal 5 1)).div
              (FP.ofInt 128)).exp)).trunc 0 255)
        getIndex g x y =
          (if isOpaque (getPixel fr x y) = false ∧ palAt s 0 = 0#32 then 0#8
          else mapAt s (key3 (target Tri.r) (target Tri.g) (target Tri.b))) ∧
        getPixel g x y = palAt s (getIndex g x y).toNat

/-- The result of every REDUCE is a function of the frame store and the palette store: what the error rows and `S`
held before does not show in any pixel or index (R211, R218, R39). -/
def Obligations.EarlierDitherStateUnseen : Prop :=
  ∀ (i : Instr) (s u t : State), (ditherOf i).isSome = true → SamePalette s u → u.frm = s.frm →
    exec i s = .next t → ∃ v, exec i u = .next v ∧ v.frm = t.frm

/-- At strength zero five methods, Floyd-Steinberg, Sierra Lite, Blue-Noise, Knoll and Knoll-Roberts, give exactly what
REDUCE_SOLID gives (R192). R192 says it of Jimenez and Scatter too, whose `sin` and `exp` are values of `Numerics` that
nothing here keeps finite: they are left out. -/
def Obligations.ZeroStrengthIsSolid : Prop :=
  ∀ (i : Instr) (f : BitVec 16) (s : State) (fr : Frame),
    (i = .reduceFs f ∨ i = .reduceSierra f ∨ i = .reduceBlue f ∨ i = .reduceKnoll f ∨ i = .reduceKnollr f) →
    s.valid = true → f.toNat < Config.maxFrames → frameAt s f.toNat = some fr → fr.wf = true →
    s.ds.mul s.pb = ⟨0#32⟩ →
    ∃ t u g h, exec i s = .next t ∧ exec (.reduceSolid f) s = .next u ∧
      frameAt t f.toNat = some g ∧ frameAt u f.toNat = some h ∧
      ∀ x y, x < fr.width → y < fr.height → getPixel g x y = getPixel h x y ∧ getIndex g x y = getIndex h x y

/-- The conversions of R8: toward zero, saturating, 0 for a NaN; and the low byte read as signed. -/
def Obligations.ConversionsToInteger : Prop :=
  (∀ v : FP, v.isNan = true → v.trunc = 0) ∧
  (FP.posInf.trunc = 2147483647 ∧ (FP.mk 0xFF800000#32).trunc = -2147483648) ∧
  (∀ (v : FP) (n : Int), v.datum.toInt? = some n → v.trunc = clamp n (-2147483648) 2147483647) ∧
  (∀ n : Int, (sbyte n).toInt = n.bmod 256)
end

