-- ==== Sys2Proof/Laws/Encoding.lean ====
section
/-! SUPPORT. The four fields of a command word, each read back from an encoded word, and a word put together
again from its fields. -/

namespace Sys2Proof

/-- The value of two fields side by side. -/
theorem toNat_append_field {v w : Nat} (x : BitVec v) (y : BitVec w) : (x ++ y).toNat = x.toNat * 2 ^ w + y.toNat := by
  rw [BitVec.toNat_append, ← Nat.shiftLeft_add_eq_or_of_lt y.isLt, Nat.shiftLeft_eq]

/-- The value of a word put together from four fields. -/
theorem toNat_word (o z : BitVec 8) (a : BitVec 16) (m : BitVec 32) :
    BitVec.toNat (w := 64) (o ++ z ++ a ++ m) = ((o.toNat * 2 ^ 8 + z.toNat) * 2 ^ 16 + a.toNat) * 2 ^ 32 + m.toNat := by
  show BitVec.toNat (w := 8 + 8 + 16 + 32) (o ++ z ++ a ++ m) = _
  simp only [toNat_append_field]

/-- The value of a field. -/
theorem toNat_field (w : Word64) (lo len : Nat) : (w.extractLsb' lo len).toNat = w.toNat / 2 ^ lo % 2 ^ len := by
  rw [BitVec.extractLsb'_toNat, Nat.shiftRight_eq_div_pow]

/-- The fields of a word put together from four fields. -/
theorem fields_of_append (o z : BitVec 8) (a : BitVec 16) (m : BitVec 32) :
    opcField (o ++ z ++ a ++ m) = o ∧ zField (o ++ z ++ a ++ m) = z ∧ aField (o ++ z ++ a ++ m) = a ∧
      immField (o ++ z ++ a ++ m) = m := by
  have ho := o.isLt
  have hz := z.isLt
  have ha := a.isLt
  have hm := m.isLt
  refine ⟨?_, ?_, ?_, ?_⟩ <;> apply BitVec.eq_of_toNat_eq <;>
    simp only [opcField, zField, aField, immField, toNat_field, toNat_word] <;> omega

@[simp] theorem opcField_encode (i : Instr) : opcField (encode i) = opcodeOf i := (fields_of_append ..).1

@[simp] theorem zField_encode (i : Instr) : zField (encode i) = 0#8 := (fields_of_append ..).2.1

@[simp] theorem aField_encode (i : Instr) : aField (encode i) = operandA i := (fields_of_append ..).2.2.1

@[simp] theorem immField_encode (i : Instr) : immField (encode i) = operandImm i := (fields_of_append ..).2.2.2

/-- A word is its four fields. -/
theorem word_eq_fields (w : Word64) : opcField w ++ zField w ++ aField w ++ immField w = w := by
  have hw := w.isLt
  apply BitVec.eq_of_toNat_eq
  rw [toNat_word]
  simp only [opcField, zField, aField, immField, toNat_field]
  omega

/-- What `whenZero` answers. -/
@[simp] theorem whenZero_eq_ok {ok : Bool} {i j : Instr} : whenZero ok i = .ok j ↔ ok = true ∧ i = j := by
  cases ok <;> simp [whenZero]

end Sys2Proof
end

