-- ==== Sys2Proof/Laws/Memory.lean ====
section
/-! SUPPORT. The laws of stores and memories: what a read gives after each operation, and that every operation
keeps the canonical form. -/

namespace Sys2Proof.Machine

open Sys2Proof

/-! ### Stores -/

@[simp] theorem Store.find_nil {α : Type} (i : Nat) : Store.find ([] : Store α) i = none := rfl

theorem Store.find_cons {α : Type} (k : Nat) (v : α) (m : Store α) (i : Nat) :
    Store.find ((k, v) :: m) i = if i = k then some v else Store.find m i := rfl

@[simp] theorem Store.risingFrom_nil {α : Type} (n lo : Nat) : Store.risingFrom n lo ([] : Store α) = true := rfl

theorem Store.risingFrom_cons {α : Type} (n lo k : Nat) (v : α) (m : Store α) :
    Store.risingFrom n lo ((k, v) :: m) = true ↔ lo ≤ k ∧ k < n ∧ Store.risingFrom n (k + 1) m = true := by
  simp [Store.risingFrom, and_assoc]

/-- A lower start is a weaker demand. -/
theorem Store.risingFrom_mono {α : Type} {n lo lo' : Nat} {m : Store α} (hlo : lo' ≤ lo)
    (h : Store.risingFrom n lo m = true) : Store.risingFrom n lo' m = true := by
  cases m with
  | nil => rfl
  | cons e m =>
    obtain ⟨k, v⟩ := e
    rw [Store.risingFrom_cons] at h ⊢
    exact ⟨by omega, h.2⟩

/-- Nothing is listed below the start. -/
theorem Store.find_of_lt {α : Type} {n lo i : Nat} {m : Store α} (h : Store.risingFrom n lo m = true) (hi : i < lo) :
    Store.find m i = none := by
  induction m generalizing lo with
  | nil => rfl
  | cons e m ih =>
    obtain ⟨k, v⟩ := e
    rw [Store.risingFrom_cons] at h
    rw [Store.find_cons, if_neg (by omega)]
    exact ih h.2.2 (by omega)

/-- Nothing is listed at or above the size. -/
theorem Store.find_of_ge {α : Type} {n lo i : Nat} {m : Store α} (h : Store.risingFrom n lo m = true) (hi : n ≤ i) :
    Store.find m i = none := by
  induction m generalizing lo with
  | nil => rfl
  | cons e m ih =>
    obtain ⟨k, v⟩ := e
    rw [Store.risingFrom_cons] at h
    rw [Store.find_cons, if_neg (by omega)]
    exact ih h.2.2

/-- Reading after a put: the new entry at its index, the old ones elsewhere. -/
theorem Store.find_put {α : Type} (m : Store α) (i j : Nat) (v : α) :
    Store.find (Store.put m i v) j = if j = i then some v else Store.find m j := by
  induction m with
  | nil => simp [Store.put, Store.find]
  | cons e m ih =>
    obtain ⟨k, u⟩ := e
    unfold Store.put
    split
    · simp only [Store.find_cons]
    · split
      · subst i
        simp only [Store.find_cons]
        split <;> rfl
      · rename_i hik
        simp only [Store.find_cons, ih]
        by_cases hjk : j = k
        · subst j
          rw [if_pos rfl, if_neg (fun h => hik h.symm)]
          simp
        · simp [hjk]

/-- Reading after a drop. -/
theorem Store.find_drop {α : Type} {n lo : Nat} {m : Store α} (h : Store.risingFrom n lo m = true) (i j : Nat) :
    Store.find (Store.drop m i) j = if j = i then none else Store.find m j := by
  induction m generalizing lo with
  | nil => simp [Store.drop]
  | cons e m ih =>
    obtain ⟨k, u⟩ := e
    rw [Store.risingFrom_cons] at h
    unfold Store.drop
    split
    · rename_i hik
      split
      · subst j
        rw [Store.find_cons, if_neg (by omega), Store.find_of_lt h.2.2 (by omega)]
      · rfl
    · split
      · subst i
        rw [Store.find_cons]
        split
        · subst j
          exact Store.find_of_lt h.2.2 (by omega)
        · rfl
      · simp only [Store.find_cons, ih h.2.2]
        by_cases hjk : j = k
        · subst j
          rw [if_pos rfl, if_neg (by omega)]
          simp
        · simp [hjk]

theorem Store.risingFrom_put {α : Type} {n lo i : Nat} {m : Store α} {v : α} (h : Store.risingFrom n lo m = true)
    (hlo : lo ≤ i) (hi : i < n) : Store.risingFrom n lo (Store.put m i v) = true := by
  induction m generalizing lo with
  | nil => simp [Store.put, Store.risingFrom, hlo, hi]
  | cons e m ih =>
    obtain ⟨k, u⟩ := e
    rw [Store.risingFrom_cons] at h
    unfold Store.put
    split
    · rw [Store.risingFrom_cons, Store.risingFrom_cons]
      exact ⟨hlo, hi, by omega, h.2⟩
    · split
      · rw [Store.risingFrom_cons]
        subst i
        exact h
      · rw [Store.risingFrom_cons]
        exact ⟨h.1, h.2.1, ih h.2.2 (by omega)⟩

theorem Store.risingFrom_drop {α : Type} {n lo i : Nat} {m : Store α} (h : Store.risingFrom n lo m = true) :
    Store.risingFrom n lo (Store.drop m i) = true := by
  induction m generalizing lo with
  | nil => rfl
  | cons e m ih =>
    obtain ⟨k, u⟩ := e
    rw [Store.risingFrom_cons] at h
    unfold Store.drop
    split
    · rw [Store.risingFrom_cons]
      exact h
    · split
      · exact Store.risingFrom_mono (by omega) h.2.2
      · rw [Store.risingFrom_cons]
        exact ⟨h.1, h.2.1, ih h.2.2⟩

/-- A put keeps the canonical form. -/
theorem Store.wf_put {α : Type} {n i : Nat} {m : Store α} {v : α} (h : Store.wf n m = true) (hi : i < n) :
    Store.wf n (Store.put m i v) = true := Store.risingFrom_put h (Nat.zero_le i) hi

/-- A drop keeps the canonical form. -/
theorem Store.wf_drop {α : Type} {n i : Nat} {m : Store α} (h : Store.wf n m = true) :
    Store.wf n (Store.drop m i) = true := Store.risingFrom_drop h

/-- What a put may list: the new entry, or an old one. -/
theorem Store.mem_put {α : Type} {m : Store α} {i : Nat} {v : α} {e : Nat × α} (h : e ∈ Store.put m i v) :
    e = (i, v) ∨ e ∈ m := by
  induction m with
  | nil => exact .inl (by simpa [Store.put] using h)
  | cons d m ih =>
    obtain ⟨k, u⟩ := d
    unfold Store.put at h
    split at h
    · simpa using h
    · split at h
      · rcases List.mem_cons.mp h with h | h
        · exact .inl h
        · exact .inr (List.mem_cons_of_mem _ h)
      · rcases List.mem_cons.mp h with h | h
        · exact .inr (h ▸ List.mem_cons_self ..)
        · exact (ih h).imp id (List.mem_cons_of_mem _)

/-- What a drop lists was listed. -/
theorem Store.mem_drop {α : Type} {m : Store α} {i : Nat} {e : Nat × α} (h : e ∈ Store.drop m i) : e ∈ m := by
  induction m with
  | nil => simp [Store.drop] at h
  | cons d m ih =>
    obtain ⟨k, u⟩ := d
    unfold Store.drop at h
    split at h
    · exact h
    · split at h
      · exact List.mem_cons_of_mem _ h
      · rcases List.mem_cons.mp h with h | h
        · exact h ▸ List.mem_cons_self ..
        · exact List.mem_cons_of_mem _ (ih h)

/-- A found entry is a listed one. -/
theorem Store.mem_of_find {α : Type} {m : Store α} {i : Nat} {v : α} (h : Store.find m i = some v) : (i, v) ∈ m := by
  induction m with
  | nil => simp at h
  | cons d m ih =>
    obtain ⟨k, u⟩ := d
    rw [Store.find_cons] at h
    split at h
    · subst i
      simp_all
    · exact List.mem_cons_of_mem _ (ih h)

/-! ### Memories -/

theorem Memory.wf_iff {w n : Nat} {m : Memory w} :
    Memory.wf n m = true ↔ Store.wf n m = true ∧ ∀ e ∈ m, e.2 ≠ 0#w := by
  simp [Memory.wf]

@[simp] theorem Memory.read_nil {w : Nat} (i : Nat) : Memory.read ([] : Memory w) i = 0#w := rfl

@[simp] theorem Memory.wf_nil {w : Nat} (n : Nat) : Memory.wf n ([] : Memory w) = true := rfl

/-- Reading after a write: the new value at its index, the old ones elsewhere. -/
theorem Memory.read_write {w n : Nat} {m : Memory w} (h : Memory.wf n m = true) (i j : Nat) (v : BitVec w) :
    Memory.read (Memory.write m i v) j = if j = i then v else Memory.read m j := by
  have hs := (Memory.wf_iff.mp h).1
  unfold Memory.read Memory.write
  split
  · rw [Store.find_drop hs]
    split <;> simp_all
  · rw [Store.find_put]
    split <;> rfl

/-- A write keeps the canonical form. -/
theorem Memory.wf_write {w n i : Nat} {m : Memory w} {v : BitVec w} (h : Memory.wf n m = true) (hi : i < n) :
    Memory.wf n (Memory.write m i v) = true := by
  rw [Memory.wf_iff] at h ⊢
  unfold Memory.write
  split
  · exact ⟨Store.wf_drop h.1, fun e he => h.2 e (Store.mem_drop he)⟩
  · rename_i hv
    refine ⟨Store.wf_put h.1 hi, fun e he => ?_⟩
    rcases Store.mem_put he with rfl | he
    · exact hv
    · exact h.2 e he

/-- An entry past the size reads 0. -/
theorem Memory.read_of_ge {w n i : Nat} {m : Memory w} (h : Memory.wf n m = true) (hi : n ≤ i) :
    Memory.read m i = 0#w := by
  rw [Memory.read, Store.find_of_ge (Memory.wf_iff.mp h).1 hi]
  rfl

/-- Every entry below `lo` is skipped, the rest listed in order: the form `ofFn` builds. -/
theorem Memory.ofFn_range' {w : Nat} (f : Nat → BitVec w) (n lo len : Nat) (hn : lo + len = n) :
    let m : Memory w := (List.range' lo len).filterMap
      (fun i => if f i = 0#w then none else some (i, f i))
    Store.risingFrom n lo m = true ∧ (∀ e ∈ m, e.2 ≠ 0#w) ∧
      ∀ i, Memory.read m i = if lo ≤ i ∧ i < n then f i else 0#w := by
  induction len generalizing lo with
  | zero =>
    refine ⟨rfl, by simp, fun i => ?_⟩
    rw [if_neg (by omega)]
    rfl
  | succ len ih =>
    obtain ⟨h1, h2, h3⟩ := ih (lo + 1) (by omega)
    simp only [List.range'_succ, List.filterMap_cons]
    by_cases hf : f lo = 0#w
    · simp only [hf, if_true]
      refine ⟨Store.risingFrom_mono (by omega) h1, h2, fun i => ?_⟩
      rw [h3 i]
      by_cases hi : i = lo
      · subst i
        rw [if_neg (by omega), if_pos ⟨le_refl _, by omega⟩, hf]
      · by_cases hr : lo ≤ i ∧ i < n
        · rw [if_pos hr, if_pos (by omega)]
        · rw [if_neg hr, if_neg (by omega)]
    · simp only [hf, if_false]
      refine ⟨(Store.risingFrom_cons ..).mpr ⟨le_refl _, by omega, h1⟩, ?_, fun i => ?_⟩
      · intro e he
        rcases List.mem_cons.mp he with rfl | he
        · exact hf
        · exact h2 e he
      · have h3i := h3 i
        unfold Memory.read at h3i ⊢
        rw [Store.find_cons]
        by_cases hi : i = lo
        · subst i
          rw [if_pos rfl, if_pos ⟨le_refl _, by omega⟩]
          rfl
        · rw [if_neg hi, h3i]
          by_cases hr : lo ≤ i ∧ i < n
          · rw [if_pos hr, if_pos (by omega)]
          · rw [if_neg hr, if_neg (by omega)]

/-- Reading a memory built from a function. -/
theorem Memory.read_ofFn {w : Nat} (n : Nat) (f : Nat → BitVec w) (i : Nat) :
    Memory.read (Memory.ofFn n f) i = if i < n then f i else 0#w := by
  have h := (Memory.ofFn_range' f n 0 n (by omega)).2.2 i
  simpa [Memory.ofFn, List.range_eq_range'] using h

/-- A memory built from a function is canonical. -/
theorem Memory.wf_ofFn {w : Nat} (n : Nat) (f : Nat → BitVec w) : Memory.wf n (Memory.ofFn n f) = true := by
  have h := Memory.ofFn_range' f n 0 n (by omega)
  rw [Memory.wf_iff]
  simpa [Memory.ofFn, Store.wf, List.range_eq_range'] using And.intro h.1 h.2.1

/-- Two functions that agree below the size build the same memory. -/
theorem Memory.ofFn_congr {w n : Nat} {f g : Nat → BitVec w} (h : ∀ i < n, f i = g i) :
    Memory.ofFn n f = Memory.ofFn n g := by
  unfold Memory.ofFn
  refine List.filterMap_congr fun i hi => ?_
  simp only [h i (List.mem_range.mp hi)]

/-- Two canonical memories that read the same are the same data. -/
theorem Memory.ext_read {w n : Nat} {a b : Memory w} (ha : Memory.wf n a = true) (hb : Memory.wf n b = true)
    (h : ∀ i, Memory.read a i = Memory.read b i) : a = b := by
  suffices main : ∀ (lo : Nat) (a b : Memory w), Store.risingFrom n lo a = true → Store.risingFrom n lo b = true →
      (∀ e ∈ a, e.2 ≠ 0#w) → (∀ e ∈ b, e.2 ≠ 0#w) → (∀ i, Memory.read a i = Memory.read b i) → a = b by
    exact main 0 a b (Memory.wf_iff.mp ha).1 (Memory.wf_iff.mp hb).1 (Memory.wf_iff.mp ha).2 (Memory.wf_iff.mp hb).2 h
  clear ha hb h a b
  intro lo a
  induction a generalizing lo with
  | nil =>
    intro b _ hb _ hbz h
    cases b with
    | nil => rfl
    | cons e b =>
      obtain ⟨k, v⟩ := e
      have := h k
      simp [Memory.read, Store.find_cons] at this
      exact absurd this.symm (hbz (k, v) (List.mem_cons_self ..))
  | cons e a ih =>
    obtain ⟨k, v⟩ := e
    intro b ha hb haz hbz h
    rw [Store.risingFrom_cons] at ha
    have hv := haz (k, v) (List.mem_cons_self ..)
    cases b with
    | nil =>
      have := h k
      simp [Memory.read, Store.find_cons] at this
      exact absurd this hv
    | cons d b =>
      obtain ⟨j, u⟩ := d
      rw [Store.risingFrom_cons] at hb
      have hu := hbz (j, u) (List.mem_cons_self ..)
      have hjk : k = j := by
        rcases Nat.lt_trichotomy k j with hlt | heq | hgt
        · have := h k
          simp [Memory.read, Store.find_cons, Nat.ne_of_lt hlt, Store.find_of_lt hb.2.2 (show k < j + 1 by omega)] at this
          exact absurd this hv
        · exact heq
        · have := h j
          simp [Memory.read, Store.find_cons, Nat.ne_of_lt hgt, Store.find_of_lt ha.2.2 (show j < k + 1 by omega)] at this
          exact absurd this.symm hu
      subst j
      have huv : v = u := by
        have := h k
        simpa [Memory.read, Store.find_cons] using this
      subst u
      rw [ih (k + 1) b ha.2.2 hb.2.2 (fun e he => haz e (List.mem_cons_of_mem _ he))
        (fun e he => hbz e (List.mem_cons_of_mem _ he)) ?_]
      intro i
      have hi := h i
      unfold Memory.read at hi ⊢
      simp only [Store.find_cons] at hi
      by_cases hik : i = k
      · subst i
        rw [Store.find_of_lt ha.2.2 (by omega), Store.find_of_lt hb.2.2 (by omega)]
      · simpa [hik] using hi

/-- Reset's memories are canonical. -/
theorem reset_storesWf : State.reset.storesWf = true := by
  simp [State.reset, State.storesWf, Store.wf]

end Sys2Proof.Machine
end

