-- ==== Sys2Proof/Laws/State.lean ====
section
/-! SUPPORT. One lemma per field per update of State, and per field of the frame updates, so that no proof
unfolds a record update. -/

namespace Sys2Proof.Machine

open Sys2Proof

@[simp] theorem State.setOpa_cc (s : State) (v : Word32) : (s.setOpa v).cc = s.cc := rfl
@[simp] theorem State.setOpa_pb (s : State) (v : Word32) : (s.setOpa v).pb = s.pb := rfl
@[simp] theorem State.setOpa_ds (s : State) (v : Word32) : (s.setOpa v).ds = s.ds := rfl
@[simp] theorem State.setOpa_valid (s : State) (v : Word32) : (s.setOpa v).valid = s.valid := rfl
@[simp] theorem State.setOpa_opa (s : State) (v : Word32) : (s.setOpa v).opa = v := rfl
@[simp] theorem State.setOpa_res (s : State) (v : Word32) : (s.setOpa v).res = s.res := rfl
@[simp] theorem State.setOpa_resf (s : State) (v : Word32) : (s.setOpa v).resf = s.resf := rfl
@[simp] theorem State.setOpa_pal (s : State) (v : Word32) : (s.setOpa v).pal = s.pal := rfl
@[simp] theorem State.setOpa_map (s : State) (v : Word32) : (s.setOpa v).map = s.map := rfl
@[simp] theorem State.setOpa_gam (s : State) (v : Word32) : (s.setOpa v).gam = s.gam := rfl
@[simp] theorem State.setOpa_work (s : State) (v : Word32) : (s.setOpa v).work = s.work := rfl
@[simp] theorem State.setOpa_frm (s : State) (v : Word32) : (s.setOpa v).frm = s.frm := rfl
@[simp] theorem State.setOpa_nfrm (s : State) (v : Word32) : (s.setOpa v).nfrm = s.nfrm := rfl
@[simp] theorem State.setOpa_input (s : State) (v : Word32) : (s.setOpa v).input = s.input := rfl
@[simp] theorem State.setOpa_inMap (s : State) (v : Word32) : (s.setOpa v).inMap = s.inMap := rfl
@[simp] theorem State.setOpa_host (s : State) (v : Word32) : (s.setOpa v).host = s.host := rfl

@[simp] theorem State.setRes_cc (s : State) (v : Word32) : (s.setRes v).cc = s.cc := rfl
@[simp] theorem State.setRes_pb (s : State) (v : Word32) : (s.setRes v).pb = s.pb := rfl
@[simp] theorem State.setRes_ds (s : State) (v : Word32) : (s.setRes v).ds = s.ds := rfl
@[simp] theorem State.setRes_valid (s : State) (v : Word32) : (s.setRes v).valid = s.valid := rfl
@[simp] theorem State.setRes_opa (s : State) (v : Word32) : (s.setRes v).opa = s.opa := rfl
@[simp] theorem State.setRes_res (s : State) (v : Word32) : (s.setRes v).res = v := rfl
@[simp] theorem State.setRes_resf (s : State) (v : Word32) : (s.setRes v).resf = s.resf := rfl
@[simp] theorem State.setRes_pal (s : State) (v : Word32) : (s.setRes v).pal = s.pal := rfl
@[simp] theorem State.setRes_map (s : State) (v : Word32) : (s.setRes v).map = s.map := rfl
@[simp] theorem State.setRes_gam (s : State) (v : Word32) : (s.setRes v).gam = s.gam := rfl
@[simp] theorem State.setRes_work (s : State) (v : Word32) : (s.setRes v).work = s.work := rfl
@[simp] theorem State.setRes_frm (s : State) (v : Word32) : (s.setRes v).frm = s.frm := rfl
@[simp] theorem State.setRes_nfrm (s : State) (v : Word32) : (s.setRes v).nfrm = s.nfrm := rfl
@[simp] theorem State.setRes_input (s : State) (v : Word32) : (s.setRes v).input = s.input := rfl
@[simp] theorem State.setRes_inMap (s : State) (v : Word32) : (s.setRes v).inMap = s.inMap := rfl
@[simp] theorem State.setRes_host (s : State) (v : Word32) : (s.setRes v).host = s.host := rfl

@[simp] theorem State.setResf_cc (s : State) (v : FP) : (s.setResf v).cc = s.cc := rfl
@[simp] theorem State.setResf_pb (s : State) (v : FP) : (s.setResf v).pb = s.pb := rfl
@[simp] theorem State.setResf_ds (s : State) (v : FP) : (s.setResf v).ds = s.ds := rfl
@[simp] theorem State.setResf_valid (s : State) (v : FP) : (s.setResf v).valid = s.valid := rfl
@[simp] theorem State.setResf_opa (s : State) (v : FP) : (s.setResf v).opa = s.opa := rfl
@[simp] theorem State.setResf_res (s : State) (v : FP) : (s.setResf v).res = s.res := rfl
@[simp] theorem State.setResf_resf (s : State) (v : FP) : (s.setResf v).resf = v := rfl
@[simp] theorem State.setResf_pal (s : State) (v : FP) : (s.setResf v).pal = s.pal := rfl
@[simp] theorem State.setResf_map (s : State) (v : FP) : (s.setResf v).map = s.map := rfl
@[simp] theorem State.setResf_gam (s : State) (v : FP) : (s.setResf v).gam = s.gam := rfl
@[simp] theorem State.setResf_work (s : State) (v : FP) : (s.setResf v).work = s.work := rfl
@[simp] theorem State.setResf_frm (s : State) (v : FP) : (s.setResf v).frm = s.frm := rfl
@[simp] theorem State.setResf_nfrm (s : State) (v : FP) : (s.setResf v).nfrm = s.nfrm := rfl
@[simp] theorem State.setResf_input (s : State) (v : FP) : (s.setResf v).input = s.input := rfl
@[simp] theorem State.setResf_inMap (s : State) (v : FP) : (s.setResf v).inMap = s.inMap := rfl
@[simp] theorem State.setResf_host (s : State) (v : FP) : (s.setResf v).host = s.host := rfl

@[simp] theorem State.setStrength_cc (s : State) (v : FP) (g : Memory 32) : (s.setStrength v g).cc = s.cc := rfl
@[simp] theorem State.setStrength_pb (s : State) (v : FP) (g : Memory 32) : (s.setStrength v g).pb = s.pb := rfl
@[simp] theorem State.setStrength_ds (s : State) (v : FP) (g : Memory 32) : (s.setStrength v g).ds = v := rfl
@[simp] theorem State.setStrength_valid (s : State) (v : FP) (g : Memory 32) : (s.setStrength v g).valid = s.valid := rfl
@[simp] theorem State.setStrength_opa (s : State) (v : FP) (g : Memory 32) : (s.setStrength v g).opa = s.opa := rfl
@[simp] theorem State.setStrength_res (s : State) (v : FP) (g : Memory 32) : (s.setStrength v g).res = s.res := rfl
@[simp] theorem State.setStrength_resf (s : State) (v : FP) (g : Memory 32) : (s.setStrength v g).resf = s.resf := rfl
@[simp] theorem State.setStrength_pal (s : State) (v : FP) (g : Memory 32) : (s.setStrength v g).pal = s.pal := rfl
@[simp] theorem State.setStrength_map (s : State) (v : FP) (g : Memory 32) : (s.setStrength v g).map = s.map := rfl
@[simp] theorem State.setStrength_gam (s : State) (v : FP) (g : Memory 32) : (s.setStrength v g).gam = g := rfl
@[simp] theorem State.setStrength_work (s : State) (v : FP) (g : Memory 32) : (s.setStrength v g).work = s.work := rfl
@[simp] theorem State.setStrength_frm (s : State) (v : FP) (g : Memory 32) : (s.setStrength v g).frm = s.frm := rfl
@[simp] theorem State.setStrength_nfrm (s : State) (v : FP) (g : Memory 32) : (s.setStrength v g).nfrm = s.nfrm := rfl
@[simp] theorem State.setStrength_input (s : State) (v : FP) (g : Memory 32) : (s.setStrength v g).input = s.input := rfl
@[simp] theorem State.setStrength_inMap (s : State) (v : FP) (g : Memory 32) : (s.setStrength v g).inMap = s.inMap := rfl
@[simp] theorem State.setStrength_host (s : State) (v : FP) (g : Memory 32) : (s.setStrength v g).host = s.host := rfl

@[simp] theorem State.setPalette_cc (s : State) (p : Memory 32) (m : Memory 8) (c : BitVec 9) (b : FP) (g : Memory 32) : (s.setPalette p m c b g).cc = c := rfl
@[simp] theorem State.setPalette_pb (s : State) (p : Memory 32) (m : Memory 8) (c : BitVec 9) (b : FP) (g : Memory 32) : (s.setPalette p m c b g).pb = b := rfl
@[simp] theorem State.setPalette_ds (s : State) (p : Memory 32) (m : Memory 8) (c : BitVec 9) (b : FP) (g : Memory 32) : (s.setPalette p m c b g).ds = s.ds := rfl
@[simp] theorem State.setPalette_valid (s : State) (p : Memory 32) (m : Memory 8) (c : BitVec 9) (b : FP) (g : Memory 32) : (s.setPalette p m c b g).valid = true := rfl
@[simp] theorem State.setPalette_opa (s : State) (p : Memory 32) (m : Memory 8) (c : BitVec 9) (b : FP) (g : Memory 32) : (s.setPalette p m c b g).opa = s.opa := rfl
@[simp] theorem State.setPalette_res (s : State) (p : Memory 32) (m : Memory 8) (c : BitVec 9) (b : FP) (g : Memory 32) : (s.setPalette p m c b g).res = s.res := rfl
@[simp] theorem State.setPalette_resf (s : State) (p : Memory 32) (m : Memory 8) (c : BitVec 9) (b : FP) (g : Memory 32) : (s.setPalette p m c b g).resf = s.resf := rfl
@[simp] theorem State.setPalette_pal (s : State) (p : Memory 32) (m : Memory 8) (c : BitVec 9) (b : FP) (g : Memory 32) : (s.setPalette p m c b g).pal = p := rfl
@[simp] theorem State.setPalette_map (s : State) (p : Memory 32) (m : Memory 8) (c : BitVec 9) (b : FP) (g : Memory 32) : (s.setPalette p m c b g).map = m := rfl
@[simp] theorem State.setPalette_gam (s : State) (p : Memory 32) (m : Memory 8) (c : BitVec 9) (b : FP) (g : Memory 32) : (s.setPalette p m c b g).gam = g := rfl
@[simp] theorem State.setPalette_work (s : State) (p : Memory 32) (m : Memory 8) (c : BitVec 9) (b : FP) (g : Memory 32) : (s.setPalette p m c b g).work = s.work := rfl
@[simp] theorem State.setPalette_frm (s : State) (p : Memory 32) (m : Memory 8) (c : BitVec 9) (b : FP) (g : Memory 32) : (s.setPalette p m c b g).frm = s.frm := rfl
@[simp] theorem State.setPalette_nfrm (s : State) (p : Memory 32) (m : Memory 8) (c : BitVec 9) (b : FP) (g : Memory 32) : (s.setPalette p m c b g).nfrm = s.nfrm := rfl
@[simp] theorem State.setPalette_input (s : State) (p : Memory 32) (m : Memory 8) (c : BitVec 9) (b : FP) (g : Memory 32) : (s.setPalette p m c b g).input = s.input := rfl
@[simp] theorem State.setPalette_inMap (s : State) (p : Memory 32) (m : Memory 8) (c : BitVec 9) (b : FP) (g : Memory 32) : (s.setPalette p m c b g).inMap = s.inMap := rfl
@[simp] theorem State.setPalette_host (s : State) (p : Memory 32) (m : Memory 8) (c : BitVec 9) (b : FP) (g : Memory 32) : (s.setPalette p m c b g).host = s.host := rfl

@[simp] theorem State.setDithered_cc (s : State) (l : Store Frame) (k : Work) : (s.setDithered l k).cc = s.cc := rfl
@[simp] theorem State.setDithered_pb (s : State) (l : Store Frame) (k : Work) : (s.setDithered l k).pb = s.pb := rfl
@[simp] theorem State.setDithered_ds (s : State) (l : Store Frame) (k : Work) : (s.setDithered l k).ds = s.ds := rfl
@[simp] theorem State.setDithered_valid (s : State) (l : Store Frame) (k : Work) : (s.setDithered l k).valid = s.valid := rfl
@[simp] theorem State.setDithered_opa (s : State) (l : Store Frame) (k : Work) : (s.setDithered l k).opa = s.opa := rfl
@[simp] theorem State.setDithered_res (s : State) (l : Store Frame) (k : Work) : (s.setDithered l k).res = s.res := rfl
@[simp] theorem State.setDithered_resf (s : State) (l : Store Frame) (k : Work) : (s.setDithered l k).resf = s.resf := rfl
@[simp] theorem State.setDithered_pal (s : State) (l : Store Frame) (k : Work) : (s.setDithered l k).pal = s.pal := rfl
@[simp] theorem State.setDithered_map (s : State) (l : Store Frame) (k : Work) : (s.setDithered l k).map = s.map := rfl
@[simp] theorem State.setDithered_gam (s : State) (l : Store Frame) (k : Work) : (s.setDithered l k).gam = s.gam := rfl
@[simp] theorem State.setDithered_work (s : State) (l : Store Frame) (k : Work) : (s.setDithered l k).work = k := rfl
@[simp] theorem State.setDithered_frm (s : State) (l : Store Frame) (k : Work) : (s.setDithered l k).frm = l := rfl
@[simp] theorem State.setDithered_nfrm (s : State) (l : Store Frame) (k : Work) : (s.setDithered l k).nfrm = s.nfrm := rfl
@[simp] theorem State.setDithered_input (s : State) (l : Store Frame) (k : Work) : (s.setDithered l k).input = s.input := rfl
@[simp] theorem State.setDithered_inMap (s : State) (l : Store Frame) (k : Work) : (s.setDithered l k).inMap = s.inMap := rfl
@[simp] theorem State.setDithered_host (s : State) (l : Store Frame) (k : Work) : (s.setDithered l k).host = s.host := rfl

@[simp] theorem State.setHost_cc (s : State) (l : List HostAction) : (s.setHost l).cc = s.cc := rfl
@[simp] theorem State.setHost_pb (s : State) (l : List HostAction) : (s.setHost l).pb = s.pb := rfl
@[simp] theorem State.setHost_ds (s : State) (l : List HostAction) : (s.setHost l).ds = s.ds := rfl
@[simp] theorem State.setHost_valid (s : State) (l : List HostAction) : (s.setHost l).valid = s.valid := rfl
@[simp] theorem State.setHost_opa (s : State) (l : List HostAction) : (s.setHost l).opa = s.opa := rfl
@[simp] theorem State.setHost_res (s : State) (l : List HostAction) : (s.setHost l).res = s.res := rfl
@[simp] theorem State.setHost_resf (s : State) (l : List HostAction) : (s.setHost l).resf = s.resf := rfl
@[simp] theorem State.setHost_pal (s : State) (l : List HostAction) : (s.setHost l).pal = s.pal := rfl
@[simp] theorem State.setHost_map (s : State) (l : List HostAction) : (s.setHost l).map = s.map := rfl
@[simp] theorem State.setHost_gam (s : State) (l : List HostAction) : (s.setHost l).gam = s.gam := rfl
@[simp] theorem State.setHost_work (s : State) (l : List HostAction) : (s.setHost l).work = s.work := rfl
@[simp] theorem State.setHost_frm (s : State) (l : List HostAction) : (s.setHost l).frm = s.frm := rfl
@[simp] theorem State.setHost_nfrm (s : State) (l : List HostAction) : (s.setHost l).nfrm = s.nfrm := rfl
@[simp] theorem State.setHost_input (s : State) (l : List HostAction) : (s.setHost l).input = s.input := rfl
@[simp] theorem State.setHost_inMap (s : State) (l : List HostAction) : (s.setHost l).inMap = s.inMap := rfl
@[simp] theorem State.setHost_host (s : State) (l : List HostAction) : (s.setHost l).host = l := rfl

@[simp] theorem State.setFrames_cc (s : State) (l : Store Frame) : (s.setFrames l).cc = s.cc := rfl
@[simp] theorem State.setFrames_pb (s : State) (l : Store Frame) : (s.setFrames l).pb = s.pb := rfl
@[simp] theorem State.setFrames_ds (s : State) (l : Store Frame) : (s.setFrames l).ds = s.ds := rfl
@[simp] theorem State.setFrames_valid (s : State) (l : Store Frame) : (s.setFrames l).valid = s.valid := rfl
@[simp] theorem State.setFrames_opa (s : State) (l : Store Frame) : (s.setFrames l).opa = s.opa := rfl
@[simp] theorem State.setFrames_res (s : State) (l : Store Frame) : (s.setFrames l).res = s.res := rfl
@[simp] theorem State.setFrames_resf (s : State) (l : Store Frame) : (s.setFrames l).resf = s.resf := rfl
@[simp] theorem State.setFrames_pal (s : State) (l : Store Frame) : (s.setFrames l).pal = s.pal := rfl
@[simp] theorem State.setFrames_map (s : State) (l : Store Frame) : (s.setFrames l).map = s.map := rfl
@[simp] theorem State.setFrames_gam (s : State) (l : Store Frame) : (s.setFrames l).gam = s.gam := rfl
@[simp] theorem State.setFrames_work (s : State) (l : Store Frame) : (s.setFrames l).work = s.work := rfl
@[simp] theorem State.setFrames_frm (s : State) (l : Store Frame) : (s.setFrames l).frm = l := rfl
@[simp] theorem State.setFrames_nfrm (s : State) (l : Store Frame) : (s.setFrames l).nfrm = s.nfrm := rfl
@[simp] theorem State.setFrames_input (s : State) (l : Store Frame) : (s.setFrames l).input = s.input := rfl
@[simp] theorem State.setFrames_inMap (s : State) (l : Store Frame) : (s.setFrames l).inMap = s.inMap := rfl
@[simp] theorem State.setFrames_host (s : State) (l : Store Frame) : (s.setFrames l).host = s.host := rfl

@[simp] theorem State.setNfrm_cc (s : State) (n : Nat) : (s.setNfrm n).cc = s.cc := rfl
@[simp] theorem State.setNfrm_pb (s : State) (n : Nat) : (s.setNfrm n).pb = s.pb := rfl
@[simp] theorem State.setNfrm_ds (s : State) (n : Nat) : (s.setNfrm n).ds = s.ds := rfl
@[simp] theorem State.setNfrm_valid (s : State) (n : Nat) : (s.setNfrm n).valid = s.valid := rfl
@[simp] theorem State.setNfrm_opa (s : State) (n : Nat) : (s.setNfrm n).opa = s.opa := rfl
@[simp] theorem State.setNfrm_res (s : State) (n : Nat) : (s.setNfrm n).res = s.res := rfl
@[simp] theorem State.setNfrm_resf (s : State) (n : Nat) : (s.setNfrm n).resf = s.resf := rfl
@[simp] theorem State.setNfrm_pal (s : State) (n : Nat) : (s.setNfrm n).pal = s.pal := rfl
@[simp] theorem State.setNfrm_map (s : State) (n : Nat) : (s.setNfrm n).map = s.map := rfl
@[simp] theorem State.setNfrm_gam (s : State) (n : Nat) : (s.setNfrm n).gam = s.gam := rfl
@[simp] theorem State.setNfrm_work (s : State) (n : Nat) : (s.setNfrm n).work = s.work := rfl
@[simp] theorem State.setNfrm_frm (s : State) (n : Nat) : (s.setNfrm n).frm = s.frm := rfl
@[simp] theorem State.setNfrm_nfrm (s : State) (n : Nat) : (s.setNfrm n).nfrm = n := rfl
@[simp] theorem State.setNfrm_input (s : State) (n : Nat) : (s.setNfrm n).input = s.input := rfl
@[simp] theorem State.setNfrm_inMap (s : State) (n : Nat) : (s.setNfrm n).inMap = s.inMap := rfl
@[simp] theorem State.setNfrm_host (s : State) (n : Nat) : (s.setNfrm n).host = s.host := rfl

@[simp] theorem State.setInput_cc (s : State) (l : Option (List Word32)) : (s.setInput l).cc = s.cc := rfl
@[simp] theorem State.setInput_pb (s : State) (l : Option (List Word32)) : (s.setInput l).pb = s.pb := rfl
@[simp] theorem State.setInput_ds (s : State) (l : Option (List Word32)) : (s.setInput l).ds = s.ds := rfl
@[simp] theorem State.setInput_valid (s : State) (l : Option (List Word32)) : (s.setInput l).valid = s.valid := rfl
@[simp] theorem State.setInput_opa (s : State) (l : Option (List Word32)) : (s.setInput l).opa = s.opa := rfl
@[simp] theorem State.setInput_res (s : State) (l : Option (List Word32)) : (s.setInput l).res = s.res := rfl
@[simp] theorem State.setInput_resf (s : State) (l : Option (List Word32)) : (s.setInput l).resf = s.resf := rfl
@[simp] theorem State.setInput_pal (s : State) (l : Option (List Word32)) : (s.setInput l).pal = s.pal := rfl
@[simp] theorem State.setInput_map (s : State) (l : Option (List Word32)) : (s.setInput l).map = s.map := rfl
@[simp] theorem State.setInput_gam (s : State) (l : Option (List Word32)) : (s.setInput l).gam = s.gam := rfl
@[simp] theorem State.setInput_work (s : State) (l : Option (List Word32)) : (s.setInput l).work = s.work := rfl
@[simp] theorem State.setInput_frm (s : State) (l : Option (List Word32)) : (s.setInput l).frm = s.frm := rfl
@[simp] theorem State.setInput_nfrm (s : State) (l : Option (List Word32)) : (s.setInput l).nfrm = s.nfrm := rfl
@[simp] theorem State.setInput_input (s : State) (l : Option (List Word32)) : (s.setInput l).input = l := rfl
@[simp] theorem State.setInput_inMap (s : State) (l : Option (List Word32)) : (s.setInput l).inMap = s.inMap := rfl
@[simp] theorem State.setInput_host (s : State) (l : Option (List Word32)) : (s.setInput l).host = s.host := rfl

@[simp] theorem State.setInMap_cc (s : State) (m : Option (Memory 8)) : (s.setInMap m).cc = s.cc := rfl
@[simp] theorem State.setInMap_pb (s : State) (m : Option (Memory 8)) : (s.setInMap m).pb = s.pb := rfl
@[simp] theorem State.setInMap_ds (s : State) (m : Option (Memory 8)) : (s.setInMap m).ds = s.ds := rfl
@[simp] theorem State.setInMap_valid (s : State) (m : Option (Memory 8)) : (s.setInMap m).valid = s.valid := rfl
@[simp] theorem State.setInMap_opa (s : State) (m : Option (Memory 8)) : (s.setInMap m).opa = s.opa := rfl
@[simp] theorem State.setInMap_res (s : State) (m : Option (Memory 8)) : (s.setInMap m).res = s.res := rfl
@[simp] theorem State.setInMap_resf (s : State) (m : Option (Memory 8)) : (s.setInMap m).resf = s.resf := rfl
@[simp] theorem State.setInMap_pal (s : State) (m : Option (Memory 8)) : (s.setInMap m).pal = s.pal := rfl
@[simp] theorem State.setInMap_map (s : State) (m : Option (Memory 8)) : (s.setInMap m).map = s.map := rfl
@[simp] theorem State.setInMap_gam (s : State) (m : Option (Memory 8)) : (s.setInMap m).gam = s.gam := rfl
@[simp] theorem State.setInMap_work (s : State) (m : Option (Memory 8)) : (s.setInMap m).work = s.work := rfl
@[simp] theorem State.setInMap_frm (s : State) (m : Option (Memory 8)) : (s.setInMap m).frm = s.frm := rfl
@[simp] theorem State.setInMap_nfrm (s : State) (m : Option (Memory 8)) : (s.setInMap m).nfrm = s.nfrm := rfl
@[simp] theorem State.setInMap_input (s : State) (m : Option (Memory 8)) : (s.setInMap m).input = s.input := rfl
@[simp] theorem State.setInMap_inMap (s : State) (m : Option (Memory 8)) : (s.setInMap m).inMap = m := rfl
@[simp] theorem State.setInMap_host (s : State) (m : Option (Memory 8)) : (s.setInMap m).host = s.host := rfl

@[simp] theorem setPixel_width (fr : Frame) (x y : Nat) (v : Word32) (i : Byte) : (setPixel fr x y v i).width = fr.width := rfl
@[simp] theorem setPixel_height (fr : Frame) (x y : Nat) (v : Word32) (i : Byte) : (setPixel fr x y v i).height = fr.height := rfl
@[simp] theorem setPixel_blend (fr : Frame) (x y : Nat) (v : Word32) (i : Byte) : (setPixel fr x y v i).blend = fr.blend := rfl
@[simp] theorem setPixel_px (fr : Frame) (x y : Nat) (v : Word32) (i : Byte) : (setPixel fr x y v i).px = Memory.write fr.px (pixelIndex fr x y) v := rfl
@[simp] theorem setPixel_idx (fr : Frame) (x y : Nat) (v : Word32) (i : Byte) : (setPixel fr x y v i).idx = Memory.write fr.idx (pixelIndex fr x y) i := rfl
@[simp] theorem setBlend_width (fr : Frame) (b : Blend) : (setBlend fr b).width = fr.width := rfl
@[simp] theorem setBlend_height (fr : Frame) (b : Blend) : (setBlend fr b).height = fr.height := rfl
@[simp] theorem setBlend_blend (fr : Frame) (b : Blend) : (setBlend fr b).blend = b := rfl
@[simp] theorem setBlend_px (fr : Frame) (b : Blend) : (setBlend fr b).px = fr.px := rfl
@[simp] theorem setBlend_idx (fr : Frame) (b : Blend) : (setBlend fr b).idx = fr.idx := rfl

@[simp] theorem setBlend_getPixel (fr : Frame) (b : Blend) (x y : Nat) : getPixel (setBlend fr b) x y = getPixel fr x y := rfl
@[simp] theorem setBlend_getIndex (fr : Frame) (b : Blend) (x y : Nat) : getIndex (setBlend fr b) x y = getIndex fr x y := rfl

/-- Replacing the pending actions by themselves changes nothing. -/
@[simp] theorem State.setHost_host_self (s : State) : s.setHost s.host = s := rfl

end Sys2Proof.Machine
end

