-- ==== Sys2Proof/Laws/Loads.lean ====
section
/-! SUPPORT. What the palette loads and SETDS can do, said once: every completing load is one `finishLoad` of a
canonical palette and index with a count of 2 to 256 (41_palette_load.md R150 to R165). -/

namespace Sys2Proof.Machine

open Sys2Proof

/-! ### The tables they build -/

/-- An entry of the gamma table (R165). -/
theorem read_gammaTable (ds : FP) (pal : Memory 32) (i : Nat) :
    Memory.read (gammaTable ds pal) i = if i < palSize then gammaColour (gammaExponent ds) (Memory.read pal i) else 0#32 :=
  Memory.read_ofFn ..

theorem wf_gammaTable (ds : FP) (pal : Memory 32) : Memory.wf palSize (gammaTable ds pal) = true := Memory.wf_ofFn ..

/-- A slot of the palette EXACT builds (R150). -/
theorem read_exactPalette (src : List Word32) (plen i : Nat) :
    Memory.read (exactPalette src plen) i =
      if i < palSize then if i < plen then if isOpaque (src.getD i 0#32) then src.getD i 0#32 else 0#32 else 0#32
      else 0#32 := Memory.read_ofFn ..

theorem wf_exactPalette (src : List Word32) (plen : Nat) : Memory.wf palSize (exactPalette src plen) = true :=
  Memory.wf_ofFn ..

/-- A slot of the palette PRELOAD copies (R156). -/
theorem read_preloadPalette (src : List Word32) (n i : Nat) :
    Memory.read (preloadPalette src n) i =
      if i < palSize then if i < n then src.getD i 0#32 else 0#32 else 0#32 := Memory.read_ofFn ..

theorem wf_preloadPalette (src : List Word32) (n : Nat) : Memory.wf palSize (preloadPalette src n) = true :=
  Memory.wf_ofFn ..

/-- A slot of the palette ANALYZE fills (R161). -/
theorem read_paletteOf (cs : List Word32) (i : Nat) :
    Memory.read (paletteOf cs) i = if i < palSize then cs.getD i 0#32 else 0#32 := Memory.read_ofFn ..

theorem wf_paletteOf (cs : List Word32) : Memory.wf palSize (paletteOf cs) = true := Memory.wf_ofFn ..

/-- An entry of the map PRELOAD copies (R156). -/
theorem read_preloadMap (m : Memory 8) (k : Nat) :
    Memory.read (preloadMap m) k = if k < mapSize then Memory.read m k else 0#8 := Memory.read_ofFn ..

theorem wf_preloadMap (m : Memory 8) : Memory.wf mapSize (preloadMap m) = true := Memory.wf_ofFn ..

/-- An entry of the nearest-colour index: its mark, or the search's answer (R154, R155). -/
theorem read_buildIndex (pal : Memory 32) (cc k : Nat) :
    Memory.read (buildIndex pal cc) k =
      if k < mapSize then
        if Memory.read (premark pal cc) k = 0#8 then BitVec.ofNat 8 (searchKey pal cc (BitVec.ofNat 15 k))
        else Memory.read (premark pal cc) k
      else 0#8 := Memory.read_ofFn ..

theorem wf_buildIndex (pal : Memory 32) (cc : Nat) : Memory.wf mapSize (buildIndex pal cc) = true := Memory.wf_ofFn ..

@[simp] theorem length_haltonic : haltonic.length = palSize := by simp [haltonic]

/-! ### The tally of ANALYZE -/

/-- Counting a colour adds an entry or none. -/
theorem length_countColour (c : Word32) (l : List (Word32 × Nat)) :
    (countColour c l).length = l.length ∨ (countColour c l).length = l.length + 1 := by
  induction l with
  | nil => exact .inr rfl
  | cons e l ih =>
    obtain ⟨d, n⟩ := e
    unfold countColour
    split
    · exact .inl rfl
    · simpa using ih

@[simp] theorem length_sortedColours (t : Tally) : (sortedColours t).length = t.distinct := by
  simp [sortedColours, Tally.distinct, List.length_insertionSort]

/-- The greedy walk keeps what it has and stays within the limit (R161). -/
theorem length_greedySelect {limit : Nat} (tp : FP) (l acc : List Word32) (h : acc.length + 1 ≤ limit) :
    acc.length ≤ (greedySelect limit tp l acc).length ∧ (greedySelect limit tp l acc).length + 1 ≤ limit := by
  induction l generalizing acc with
  | nil => exact ⟨le_refl _, h⟩
  | cons c l ih =>
    unfold greedySelect
    split
    · split
      · have := ih (acc ++ [c]) (by simpa using by omega)
        simp only [List.length_append, List.length_singleton] at this
        omega
      · exact ih acc h
    · exact ⟨le_refl _, h⟩

/-- The first colour of the list is always accepted (R161). -/
theorem greedySelect_accepts_first {limit : Nat} (tp : FP) (c : Word32) (l : List Word32) (h : 2 ≤ limit) :
    1 ≤ (greedySelect limit tp (c :: l) []).length := by
  have hlt : ([] : List Word32).length + 1 < limit := by simpa using by omega
  rw [greedySelect, if_pos hlt, if_pos (by simp [farFromAll])]
  exact (length_greedySelect tp l [c] (by simpa using h)).1

/-- Step 3 fills 2 to `limit` slots where the early exit was not taken (R160, R161, R162). -/
theorem length_selectColours {limit : Nat} {t : Tally} (threshold : Word32) (he : earlyExit t = false)
    (hl : 2 ≤ limit) :
    2 ≤ (selectColours limit threshold t).length ∧ (selectColours limit threshold t).length ≤ limit := by
  have he' : 1 < t.distinct + t.transparent := by
    simpa [earlyExit, Config.exitCountsTransparent] using he
  unfold selectColours
  split
  · rename_i hfit
    have hlen : (if t.hasTransparent then [0#32] else []).length = t.transparent := by
      unfold Tally.transparent
      split <;> rfl
    rw [List.length_append, hlen, length_sortedColours]
    omega
  · rename_i hbig
    have ht : t.transparent ≤ 1 := by
      unfold Tally.transparent
      split <;> simp
    obtain ⟨c, l, hs⟩ : ∃ c l, sortedColours t = c :: l := by
      cases hs : sortedColours t with
      | nil =>
        have := length_sortedColours t
        rw [hs] at this
        simp at this
        omega
      | cons c l => exact ⟨c, l, rfl⟩
    have h1 := greedySelect_accepts_first (FP.ofInt (threshold >>> 2).toNat) c l hl
    have h2 := (length_greedySelect (limit := limit) (FP.ofInt (threshold >>> 2).toNat) (c :: l) [] (by simpa using by omega)).2
    rw [hs, List.length_cons]
    omega

/-! ### The commands -/

/-- What a load that completes leaves: the finish step on a canonical palette and index, the count 2 to 256, the
slots from the count up zero. -/
structure Loaded (s t : State) (pal : Memory 32) (map : Memory 8) (cc : Nat) : Prop where
  state : t = finishLoad pal map cc s
  pal_wf : Memory.wf palSize pal = true
  map_wf : Memory.wf mapSize map = true
  two_le : 2 ≤ cc
  le_256 : cc ≤ 256
  tail : ∀ j, cc ≤ j → Memory.read pal j = 0#32

theorem loadExact_loaded (src : List Word32) (lim : Nat) (s : State) (h2 : 2 ≤ min lim src.length)
    (h256 : min lim src.length ≤ 256) :
    Loaded s (loadExact src lim s) (exactPalette src (min lim src.length))
      (buildIndex (exactPalette src (min lim src.length)) (min lim src.length)) (min lim src.length) where
  state := rfl
  pal_wf := wf_exactPalette ..
  map_wf := wf_buildIndex ..
  two_le := h2
  le_256 := h256
  tail := fun j hj => by
    rw [read_exactPalette, if_neg (Nat.not_lt.mpr hj)]
    split <;> rfl

theorem loadHaltonic_loaded (s : State) :
    Loaded s (loadHaltonic s) (exactPalette haltonic palSize) (buildIndex (exactPalette haltonic palSize) palSize)
      palSize := by
  have h := loadExact_loaded haltonic palSize s (by simp [palSize]) (by simp [palSize])
  rwa [length_haltonic, Nat.min_self] at h

/-- EXACT, when it answers (R150, R151). -/
theorem execExact_loaded {n : BitVec 16} {s t : State} (h : execExact n s = .next t) :
    ∃ src plen, Loaded s t (exactPalette src plen) (buildIndex (exactPalette src plen) plen) plen := by
  unfold execExact at h
  split at h
  · obtain rfl : loadHaltonic s = t := by simpa using h
    exact ⟨_, _, loadHaltonic_loaded s⟩
  · split at h
    · obtain rfl : loadHaltonic s = t := by simpa using h
      exact ⟨_, _, loadHaltonic_loaded s⟩
    · split at h
      · cases h
      · obtain rfl : loadExact _ _ s = t := by simpa using h
        exact ⟨_, _, loadExact_loaded _ _ s (by simp_all; omega) (by simp_all)⟩

/-- PRELOAD, when it answers (R156). -/
theorem execPreload_loaded {n : BitVec 16} {s t : State} (h : execPreload n s = .next t) :
    ∃ src m, s.input = some src ∧ s.inMap = some m ∧
      Loaded s t (preloadPalette src n.toNat) (preloadMap m) n.toNat := by
  unfold execPreload at h
  split at h
  · rename_i src m hsrc hm
    split at h
    · cases h
    · rename_i hr
      obtain rfl : finishLoad _ _ _ s = t := by simpa using h
      simp only [Bool.or_eq_true, decide_eq_true_eq, not_or, Nat.not_lt] at hr
      exact ⟨src, m, hsrc, hm, rfl, wf_preloadPalette .., wf_preloadMap .., hr.1.1, hr.1.2, fun j hj => by
        rw [read_preloadPalette, if_neg (Nat.not_lt.mpr hj)]
        split <;> rfl⟩
  · cases h

/-- ANALYZE, when it answers (R157 to R162). -/
theorem execAnalyze_loaded {l : BitVec 16} {v : Word32} {s t : State} (h : execAnalyze l v s = .next t) :
    ∃ pal cc, Loaded s t pal (buildIndex pal cc) cc := by
  unfold execAnalyze at h
  split at h
  · cases h
  · split at h
    · cases h
    · rename_i hl
      split at h
      · cases h
      · rename_i frames _
        obtain rfl : analyzeFrames frames l.toNat v s = t := by simpa using h
        unfold analyzeFrames
        simp only
        split
        · exact ⟨_, _, loadHaltonic_loaded s⟩
        · rename_i he
          simp only [Bool.or_eq_true, decide_eq_true_eq, not_or, Nat.not_lt] at hl
          have hc := length_selectColours (limit := l.toNat) v (by simpa using he) hl.1
          exact ⟨_, _, rfl, wf_paletteOf .., wf_buildIndex .., hc.1, by omega, fun j hj => by
            rw [read_paletteOf, List.getD_eq_default _ _ hj]
            split <;> rfl⟩

/-- A load that answers is one finish step (R152, R153). -/
theorem exec_load {i : Instr} {s t : State} (hi : loadsPalette i = true) (h : exec i s = .next t) :
    ∃ pal map cc, Loaded s t pal map cc := by
  cases i <;> simp only [loadsPalette, Bool.false_eq_true] at hi
  · obtain ⟨_, _, hl⟩ := execExact_loaded h
    exact ⟨_, _, _, hl⟩
  · obtain ⟨_, _, _, _, hl⟩ := execPreload_loaded h
    exact ⟨_, _, _, hl⟩
  · obtain ⟨_, _, hl⟩ := execAnalyze_loaded h
    exact ⟨_, _, _, hl⟩

/-- SETDS, when it answers (R164). -/
theorem execSetds_next {v : Word32} {s t : State} (h : execSetds v s = .next t) :
    (FP.mk v).isFinite = true ∧ t = s.setStrength (strengthOf ⟨v⟩) (gammaTable (strengthOf ⟨v⟩) s.pal) := by
  unfold execSetds at h
  split at h
  · exact ⟨‹_›, by simpa [eq_comm] using h⟩
  · cases h

end Sys2Proof.Machine
end

