-- ==== Sys2Proof/Laws/Pattern.lean ====
section
/-! SUPPORT. What the candidate loop of the pattern dithers can do: its answer is the list R251 describes. -/

namespace Sys2Proof.Machine

open Sys2Proof

/-- The loop from the errors `e` answers `n` candidates; candidate `it` is the lookup at the error `e` plus what the
earlier candidates added (R251). -/
theorem candidateLoop_getD (s : State) (o : Tri Byte) (strk : FP) (n : Nat) :
    ∀ e : Tri Int, (candidateLoop s o strk n e).length = n ∧
      ∀ it, it < n →
        let err := fun (z : Int) (ch : Tri Byte → Byte) => z + ((List.range it).map (fun j =>
          ((ch o).toNat : Int) - (ch (rgbOf (gamAt s ((candidateLoop s o strk n e).getD j 0#8).toNat))).toNat)).sum
        (candidateLoop s o strk n e).getD it 0#8 =
          lookup s (Tri.zip (patternTarget strk) o ⟨err e.r Tri.r, err e.g Tri.g, err e.b Tri.b⟩) := by
  induction n with
  | zero => exact fun e => ⟨rfl, fun it h => absurd h (Nat.not_lt_zero _)⟩
  | succ n ih =>
    intro e
    obtain ⟨hl, hi⟩ := ih _
    refine ⟨congrArg Nat.succ hl, fun it h => ?_⟩
    cases it with
    | zero => simp [candidateLoop]
    | succ it =>
      have h1 := hi it (Nat.lt_of_succ_lt_succ h)
      simp only [candidateLoop, List.getD_cons_succ, List.range_succ_eq_map, List.map_cons, List.map_map,
        List.sum_cons, List.getD_cons_zero, Function.comp_def, patternError, Int.add_assoc,
        Nat.succ_eq_add_one] at h1 ⊢
      exact h1

/-- `candidates` answers the candidates of R251, in a method that snaps its pixel. -/
theorem candidates_isCandidates {dm : DitherMethod} {c : Word32} (hs : snapFor dm c = snap c) (s : State) (n : Nat)
    (strk : FP) : IsCandidates s c n strk (candidates dm s c n strk) := by
  obtain ⟨hl, hi⟩ := candidateLoop_getD s (rgbOf (snapFor dm c)) strk n ⟨0, 0, 0⟩
  refine ⟨hl, fun it h => ?_⟩
  simpa [hs, lookup, Tri.zip, keyOf, rgbOf, patternTarget, channelOf, candidates] using hi it h

end Sys2Proof.Machine
end

