-- ==== Sys2Proof/Laws/PerInstr.lean ====
section
/-! SUPPORT. One lemma per command: its word carries the opcode of a row of the opcode table, a zero `Z` field and
its operands (30_encoding.md R98, R100). -/

namespace Sys2Proof.Laws

open Sys2Proof

/-- The four fields of a command's word, and the row of the table its opcode names. -/
def OpcodeField.Statement (i : Instr) : Prop :=
  opcField (encode i) = opcodeOf i ∧ zField (encode i) = 0#8 ∧ aField (encode i) = operandA i ∧
    immField (encode i) = operandImm i ∧ opcodeOf i ∈ commandTable.map TableRow.opcode

/-- The fields of any command's word. -/
theorem OpcodeField.of_mem {i : Instr} (h : opcodeOf i ∈ commandTable.map TableRow.opcode) :
    OpcodeField.Statement i :=
  ⟨opcField_encode i, zField_encode i, aField_encode i, immField_encode i, h⟩

theorem OpcodeField.setds (v : Word32) : OpcodeField.Statement (.setds v) :=
  OpcodeField.of_mem (by simp [opcodeOf, commandTable])

theorem OpcodeField.exact (n : BitVec 16) : OpcodeField.Statement (.exact n) :=
  OpcodeField.of_mem (by simp [opcodeOf, commandTable])

theorem OpcodeField.preload (n : BitVec 16) : OpcodeField.Statement (.preload n) :=
  OpcodeField.of_mem (by simp [opcodeOf, commandTable])

theorem OpcodeField.analyze (l : BitVec 16) (t : Word32) : OpcodeField.Statement (.analyze l t) :=
  OpcodeField.of_mem (by simp [opcodeOf, commandTable])

theorem OpcodeField.seta (c : Word32) : OpcodeField.Statement (.seta c) :=
  OpcodeField.of_mem (by simp [opcodeOf, commandTable])

theorem OpcodeField.shrink (c : Word32) : OpcodeField.Statement (.shrink c) :=
  OpcodeField.of_mem (by simp [opcodeOf, commandTable])

theorem OpcodeField.stretch (k : Key) : OpcodeField.Statement (.stretch k) :=
  OpcodeField.of_mem (by simp [opcodeOf, commandTable])

theorem OpcodeField.diff (c : Word32) : OpcodeField.Statement (.diff c) :=
  OpcodeField.of_mem (by simp [opcodeOf, commandTable])

theorem OpcodeField.diff3 (r g b : Byte) : OpcodeField.Statement (.diff3 r g b) :=
  OpcodeField.of_mem (by simp [opcodeOf, commandTable])

theorem OpcodeField.reduce (f : BitVec 16) (sel : Word32) : OpcodeField.Statement (.reduce f sel) :=
  OpcodeField.of_mem (by simp [opcodeOf, commandTable])

theorem OpcodeField.reduceSolid (f : BitVec 16) : OpcodeField.Statement (.reduceSolid f) :=
  OpcodeField.of_mem (by simp [opcodeOf, commandTable])

theorem OpcodeField.reduceFs (f : BitVec 16) : OpcodeField.Statement (.reduceFs f) :=
  OpcodeField.of_mem (by simp [opcodeOf, commandTable])

theorem OpcodeField.reduceSierra (f : BitVec 16) : OpcodeField.Statement (.reduceSierra f) :=
  OpcodeField.of_mem (by simp [opcodeOf, commandTable])

theorem OpcodeField.reduceScatter (f : BitVec 16) : OpcodeField.Statement (.reduceScatter f) :=
  OpcodeField.of_mem (by simp [opcodeOf, commandTable])

theorem OpcodeField.reduceJimenez (f : BitVec 16) : OpcodeField.Statement (.reduceJimenez f) :=
  OpcodeField.of_mem (by simp [opcodeOf, commandTable])

theorem OpcodeField.reduceBlue (f : BitVec 16) : OpcodeField.Statement (.reduceBlue f) :=
  OpcodeField.of_mem (by simp [opcodeOf, commandTable])

theorem OpcodeField.reduceChaotic (f : BitVec 16) : OpcodeField.Statement (.reduceChaotic f) :=
  OpcodeField.of_mem (by simp [opcodeOf, commandTable])

theorem OpcodeField.reduceKnoll (f : BitVec 16) : OpcodeField.Statement (.reduceKnoll f) :=
  OpcodeField.of_mem (by simp [opcodeOf, commandTable])

theorem OpcodeField.reduceKnollr (f : BitVec 16) : OpcodeField.Statement (.reduceKnollr f) :=
  OpcodeField.of_mem (by simp [opcodeOf, commandTable])

end Sys2Proof.Laws
end

