-- ==== Sys2Proof/Laws/Raster.lean ====
section
/-! SUPPORT. What the raster loop of a REDUCE does, said once: each pixel of the result from the pixel that was
there and the dither working state that reached it (42_dither_common.md R190, 20_memory.md R74). -/

namespace Sys2Proof.Machine

open Sys2Proof

/-! ### One pixel of a frame -/

/-- The place of a pixel is within the frame. -/
theorem pixelIndex_lt {fr : Frame} {x y : Nat} (hx : x < fr.width) (hy : y < fr.height) :
    pixelIndex fr x y < fr.width * fr.height := by
  unfold pixelIndex
  calc y * fr.width + x < y * fr.width + fr.width := by omega
    _ = (y + 1) * fr.width := by rw [Nat.add_mul, Nat.one_mul]
    _ ≤ fr.height * fr.width := Nat.mul_le_mul_right _ hy
    _ = fr.width * fr.height := Nat.mul_comm ..

/-- Two positions of a frame with one place are one position. -/
theorem pixelIndex_inj {fr : Frame} {x y x' y' : Nat} (hx : x < fr.width) (hx' : x' < fr.width) :
    pixelIndex fr x y = pixelIndex fr x' y' ↔ x = x' ∧ y = y' := by
  refine ⟨fun h => ?_, fun h => by rw [h.1, h.2]⟩
  unfold pixelIndex at h
  have hw : 0 < fr.width := by omega
  have hy : y = y' := by
    have h1 : (y * fr.width + x) / fr.width = y := by
      rw [Nat.mul_comm, Nat.mul_add_div hw, Nat.div_eq_of_lt hx, Nat.add_zero]
    have h2 : (y' * fr.width + x') / fr.width = y' := by
      rw [Nat.mul_comm, Nat.mul_add_div hw, Nat.div_eq_of_lt hx', Nat.add_zero]
    rw [← h1, ← h2, h]
  subst hy
  exact ⟨by omega, rfl⟩

theorem Frame.wf_iff {fr : Frame} :
    fr.wf = true ↔ Memory.wf (fr.width * fr.height) fr.px = true ∧ Memory.wf (fr.width * fr.height) fr.idx = true := by
  simp [Frame.wf]

/-- `set_pixel` keeps a frame well formed. -/
theorem wf_setPixel {fr : Frame} {x y : Nat} {v : Word32} {i : Byte} (h : fr.wf = true) (hx : x < fr.width)
    (hy : y < fr.height) : (setPixel fr x y v i).wf = true := by
  rw [Frame.wf_iff] at h ⊢
  exact ⟨Memory.wf_write h.1 (pixelIndex_lt hx hy), Memory.wf_write h.2 (pixelIndex_lt hx hy)⟩

/-- What `get_pixel` gives after `set_pixel`. -/
theorem getPixel_setPixel {fr : Frame} {x y x' y' : Nat} {v : Word32} {i : Byte} (h : fr.wf = true)
    (hx : x < fr.width) (hx' : x' < fr.width) :
    getPixel (setPixel fr x y v i) x' y' = if x' = x ∧ y' = y then v else getPixel fr x' y' := by
  show Memory.read (Memory.write fr.px (pixelIndex fr x y) v) (pixelIndex fr x' y') = _
  rw [Memory.read_write (Frame.wf_iff.mp h).1]
  simp only [pixelIndex_inj hx' hx]
  rfl

/-- What the index plane holds after `set_pixel`. -/
theorem getIndex_setPixel {fr : Frame} {x y x' y' : Nat} {v : Word32} {i : Byte} (h : fr.wf = true)
    (hx : x < fr.width) (hx' : x' < fr.width) :
    getIndex (setPixel fr x y v i) x' y' = if x' = x ∧ y' = y then i else getIndex fr x' y' := by
  show Memory.read (Memory.write fr.idx (pixelIndex fr x y) i) (pixelIndex fr x' y') = _
  rw [Memory.read_write (Frame.wf_iff.mp h).2]
  simp only [pixelIndex_inj hx' hx]
  rfl

/-! ### The working state along the raster -/

/-- The index a pixel gets and the working state after it. -/
def pixelStep (m : Method) (s : State) (w h x y : Nat) (c : Word32) (wk : Work) : Byte × Work :=
  if shortcut s c then (0#8, wk) else m.pixel w h x y c wk

/-- The working state before pixel `x` of row `y`, from the one before the row. -/
def rowWork (m : Method) (s : State) (fr : Frame) (y : Nat) (wk : Work) : Nat → Work
  | 0 => wk
  | x + 1 => (pixelStep m s fr.width fr.height x y (getPixel fr x y) (rowWork m s fr y wk x)).2

/-- The working state before row `y`. -/
def startWork (m : Method) (s : State) (fr : Frame) (wk : Work) : Nat → Work
  | 0 => m.start fr.width wk
  | y + 1 => m.rowEnd fr.width (rowWork m s fr y (startWork m s fr wk y) fr.width)

/-- The index the raster writes at `(x, y)`. -/
def rasterIndex (m : Method) (s : State) (fr : Frame) (wk : Work) (x y : Nat) : Byte :=
  (pixelStep m s fr.width fr.height x y (getPixel fr x y) (rowWork m s fr y (startWork m s fr wk y) x)).1

/-- The shortcut writes `PAL[0]`, which is 0. -/
theorem palAt_of_shortcut {s : State} {c : Word32} (h : shortcut s c = true) : palAt s 0 = 0#32 := by
  simp only [shortcut, reserved, Bool.and_eq_true, beq_iff_eq] at h
  exact h.2

/-- One pixel of the loop is one `set_pixel` of `PAL[i]` with its `i`. -/
theorem rasterPixel_eq (m : Method) (s : State) (w h y : Nat) (acc : Frame × Work) (x : Nat) :
    rasterPixel m s w h y acc x =
      let r := pixelStep m s w h x y (getPixel acc.1 x y) acc.2
      (setPixel acc.1 x y (palAt s r.1.toNat) r.1, r.2) := by
  unfold rasterPixel pixelStep
  simp only
  split
  · rename_i hs
    simp [palAt_of_shortcut hs]
  · rfl

/-- A frame with the first pixels of `fr` in raster order done, up to `(x0, y0)`, and the others as they were. -/
structure DoneUpTo (m : Method) (s : State) (fr : Frame) (wk : Work) (x0 y0 : Nat) (g : Frame) : Prop where
  width : g.width = fr.width
  height : g.height = fr.height
  blend : g.blend = fr.blend
  wf : g.wf = true
  done : ∀ x y, x < fr.width → y < fr.height → (y < y0 ∨ y = y0 ∧ x < x0) →
    getIndex g x y = rasterIndex m s fr wk x y ∧ getPixel g x y = palAt s (rasterIndex m s fr wk x y).toNat
  rest : ∀ x y, x < fr.width → y < fr.height → ¬(y < y0 ∨ y = y0 ∧ x < x0) → getPixel g x y = getPixel fr x y

theorem rasterPixel_done {m : Method} {s : State} {fr : Frame} {wk : Work} {x y : Nat} {acc : Frame × Work}
    (hx : x < fr.width) (hy : y < fr.height) (hd : DoneUpTo m s fr wk x y acc.1)
    (hw : acc.2 = rowWork m s fr y (startWork m s fr wk y) x) :
    DoneUpTo m s fr wk (x + 1) y (rasterPixel m s fr.width fr.height y acc x).1 ∧
      (rasterPixel m s fr.width fr.height y acc x).2 = rowWork m s fr y (startWork m s fr wk y) (x + 1) := by
  have hxg : x < acc.1.width := by rw [hd.width]; exact hx
  have hyg : y < acc.1.height := by rw [hd.height]; exact hy
  have hc : getPixel acc.1 x y = getPixel fr x y := hd.rest x y hx hy (by omega)
  rw [rasterPixel_eq]
  simp only [hc, hw]
  refine ⟨⟨hd.width, hd.height, hd.blend, wf_setPixel hd.wf hxg hyg, ?_, ?_⟩, rfl⟩
  · intro x' y' hx' hy' hb
    have hx'g : x' < acc.1.width := by rw [hd.width]; exact hx'
    rw [getIndex_setPixel hd.wf hxg hx'g, getPixel_setPixel hd.wf hxg hx'g]
    by_cases he : x' = x ∧ y' = y
    · rw [if_pos he, if_pos he, he.1, he.2]
      exact ⟨rfl, rfl⟩
    · rw [if_neg he, if_neg he]
      exact hd.done x' y' hx' hy' (by omega)
  · intro x' y' hx' hy' hb
    have hx'g : x' < acc.1.width := by rw [hd.width]; exact hx'
    rw [getPixel_setPixel hd.wf hxg hx'g, if_neg (by omega)]
    exact hd.rest x' y' hx' hy' (by omega)

theorem rasterRow_pixels_done {m : Method} {s : State} {fr : Frame} {wk : Work} {y : Nat} {acc : Frame × Work}
    (hy : y < fr.height) (hd : DoneUpTo m s fr wk 0 y acc.1) (hw : acc.2 = startWork m s fr wk y) :
    ∀ n ≤ fr.width, DoneUpTo m s fr wk n y ((List.range n).foldl (rasterPixel m s fr.width fr.height y) acc).1 ∧
      ((List.range n).foldl (rasterPixel m s fr.width fr.height y) acc).2 =
        rowWork m s fr y (startWork m s fr wk y) n := by
  intro n
  induction n with
  | zero => exact fun _ => ⟨hd, hw⟩
  | succ n ih =>
    intro hn
    obtain ⟨h1, h2⟩ := ih (by omega)
    rw [List.range_succ, List.foldl_append]
    exact rasterPixel_done (by omega) hy h1 h2

theorem rasterRow_done {m : Method} {s : State} {fr : Frame} {wk : Work} {y : Nat} {acc : Frame × Work}
    (hy : y < fr.height) (hd : DoneUpTo m s fr wk 0 y acc.1) (hw : acc.2 = startWork m s fr wk y) :
    DoneUpTo m s fr wk 0 (y + 1) (rasterRow m s fr.width fr.height acc y).1 ∧
      (rasterRow m s fr.width fr.height acc y).2 = startWork m s fr wk (y + 1) := by
  obtain ⟨h1, h2⟩ := rasterRow_pixels_done hy hd hw fr.width (le_refl _)
  refine ⟨⟨h1.width, h1.height, h1.blend, h1.wf, ?_, ?_⟩, ?_⟩
  · exact fun x' y' hx' hy' hb => h1.done x' y' hx' hy' (by omega)
  · exact fun x' y' hx' hy' hb => h1.rest x' y' hx' hy' (by omega)
  · show m.rowEnd fr.width _ = _
    rw [h2]
    rfl

/-- What the raster loop leaves of a well-formed frame: its shape and mode, every index and pixel, and the working
state. -/
theorem raster_spec {m : Method} {s : State} {fr : Frame} {wk : Work} (hf : fr.wf = true) :
    DoneUpTo m s fr wk 0 fr.height (raster m s fr wk).1 ∧
      (raster m s fr wk).2 = startWork m s fr wk fr.height := by
  suffices main : ∀ n ≤ fr.height,
      DoneUpTo m s fr wk 0 n ((List.range n).foldl (rasterRow m s fr.width fr.height) (fr, m.start fr.width wk)).1 ∧
        ((List.range n).foldl (rasterRow m s fr.width fr.height) (fr, m.start fr.width wk)).2 =
          startWork m s fr wk n by
    exact main fr.height (le_refl _)
  intro n
  induction n with
  | zero =>
    exact fun _ => ⟨⟨rfl, rfl, rfl, hf, fun x y _ _ hb => by omega, fun x y _ _ _ => rfl⟩, rfl⟩
  | succ n ih =>
    intro hn
    obtain ⟨h1, h2⟩ := ih (by omega)
    rw [List.range_succ, List.foldl_append]
    exact rasterRow_done (by omega) h1 h2

/-- The index at a position of a pointwise method: 0 for the shortcut, else the method's own. -/
theorem rasterIndex_pointwise (index : Nat → Nat → Word32 → Byte) (s : State) (fr : Frame) (wk : Work) (x y : Nat) :
    rasterIndex (Method.pointwise index) s fr wk x y =
      if shortcut s (getPixel fr x y) then 0#8 else index x y (getPixel fr x y) := by
  unfold rasterIndex pixelStep
  split <;> rfl

/-- What the loop between saving and restoring the blending mode leaves of a well-formed frame (R64). -/
theorem ditherFrame_spec {m : Method} {s : State} {fr : Frame} {wk : Work} (hf : fr.wf = true) :
    let g := (ditherFrame m s fr wk).1
    g.width = fr.width ∧ g.height = fr.height ∧ g.blend = fr.blend ∧ g.wf = true ∧
      (∀ x y, x < fr.width → y < fr.height →
        getIndex g x y = rasterIndex m s fr wk x y ∧ getPixel g x y = palAt s (rasterIndex m s fr wk x y).toNat) ∧
      (ditherFrame m s fr wk).2 = startWork m s fr wk fr.height := by
  have hrow : ∀ y k x, rowWork m s (setBlend fr .replace) y k x = rowWork m s fr y k x := by
    intro y k x
    induction x with
    | zero => rfl
    | succ x ih =>
      show (pixelStep m s fr.width fr.height x y (getPixel fr x y) (rowWork m s (setBlend fr .replace) y k x)).2 = _
      rw [ih]
      rfl
  have hstart : ∀ y, startWork m s (setBlend fr .replace) wk y = startWork m s fr wk y := by
    intro y
    induction y with
    | zero => rfl
    | succ y ih =>
      show m.rowEnd fr.width (rowWork m s (setBlend fr .replace) y (startWork m s (setBlend fr .replace) wk y) fr.width) = _
      rw [hrow, ih]
      rfl
  have hidx : ∀ x y, rasterIndex m s (setBlend fr .replace) wk x y = rasterIndex m s fr wk x y := by
    intro x y
    show (pixelStep m s fr.width fr.height x y (getPixel fr x y)
      (rowWork m s (setBlend fr .replace) y (startWork m s (setBlend fr .replace) wk y) x)).1 = _
    rw [hrow, hstart]
    rfl
  obtain ⟨h1, h2⟩ := raster_spec (m := m) (s := s) (fr := setBlend fr .replace) (wk := wk) hf
  refine ⟨h1.width, h1.height, rfl, h1.wf, fun x y hx hy => ?_, h2.trans (hstart fr.height)⟩
  have h := h1.done x y hx hy (.inl hy)
  rw [hidx] at h
  exact h

/-! ### A REDUCE command -/

/-- What `reduceFrame` answers, whole. -/
theorem reduceFrame_eq (m : State → Method) (f : BitVec 16) (s : State) :
    reduceFrame m f s =
      if s.valid = true then
        if f.toNat < Config.maxFrames then
          match frameAt s f.toNat with
          | none => .next s
          | some fr => .next (dithered (m s) f.toNat fr s)
        else .refused .operandRange
      else .refused .notLoaded := by
  unfold reduceFrame
  by_cases hv : s.valid = true
  · by_cases hf : f.toNat < Config.maxFrames
    · cases frameAt s f.toNat <;> simp [hv, hf, Nat.not_le.mpr hf]
    · simp [hv, hf, Nat.not_lt.mp hf]
  · simp [hv]

/-- When `reduceFrame` answers a next state, and which. -/
theorem reduceFrame_next_iff {m : State → Method} {f : BitVec 16} {s t : State} :
    reduceFrame m f s = .next t ↔ s.valid = true ∧ f.toNat < Config.maxFrames ∧
      (frameAt s f.toNat = none ∧ t = s ∨
        ∃ fr, frameAt s f.toNat = some fr ∧ t = dithered (m s) f.toNat fr s) := by
  rw [reduceFrame_eq]
  by_cases hv : s.valid = true
  · by_cases hf : f.toNat < Config.maxFrames
    · cases h : frameAt s f.toNat <;> simp [hv, hf, eq_comm]
    · simp [hv, hf]
  · simp [hv]

/-- A REDUCE command is `reduceFrame` with the method of its row (R100, R196). -/
theorem exec_dither {i : Instr} {dm : DitherMethod} {f : BitVec 16} (h : ditherOf i = some (dm, f)) (s : State) :
    exec i s = reduceFrame (ditherMethod dm) f s := by
  cases i <;> simp only [ditherOf, Option.some.injEq, Prod.mk.injEq, reduceCtorEq] at h <;>
    (obtain ⟨rfl, rfl⟩ := h; rfl)

/-- The state after a REDUCE: `frm` and `work` alone may differ. -/
theorem dithered_fields (m : Method) (f : Nat) (fr : Frame) (s : State) :
    ∃ l k, dithered m f fr s = s.setDithered l k := by
  unfold dithered
  split
  · exact ⟨s.frm, s.work, rfl⟩
  · exact ⟨_, _, rfl⟩

end Sys2Proof.Machine
end

