-- ==== Sys2Proof/Laws/Steps.lean ====
section
/-! SUPPORT. What one step can do, said once; what each of HOST's writes leaves; the rows of the diffusion dithers
(43_dither_diffusion.md R211). -/

namespace Sys2Proof.Machine

open Sys2Proof

/-- With nothing pending the machine waits. -/
theorem step_idle {s : State} (h : s.host = []) : step s = .next s := by
  simp only [step, takeAction, h]

/-- The oldest pending action is taken off and takes effect. -/
theorem step_cons {s : State} {a : HostAction} {rest : List HostAction} (h : s.host = a :: rest) :
    step s = hostAct a (s.setHost rest) := by
  simp only [step, takeAction, h]

/-- A step that answers: the wait, or one action of HOST. -/
theorem step_next_cases {s t : State} (h : step s = .next t) :
    (s.host = [] ∧ t = s) ∨ ∃ a rest, s.host = a :: rest ∧ hostAct a (s.setHost rest) = .next t := by
  cases hs : s.host with
  | nil => exact .inl ⟨rfl, by simpa [step_idle hs, eq_comm] using h⟩
  | cons a rest => exact .inr ⟨a, rest, rfl, by rwa [step_cons hs] at h⟩

/-- A word that answers decodes, and its command ran. -/
theorem runWord_next {w : Word64} {s t : State} (h : runWord w s = .next t) :
    ∃ i, decode w = .ok i ∧ exec i s = .next t := by
  unfold runWord at h
  split at h
  · exact ⟨_, ‹_›, h⟩
  · cases h

/-- What HOST's placing of a frame leaves (R41, R310 (4)). -/
theorem hostPutFrame_next {f : Nat} {fr : Option Frame} {s t : State} (h : hostPutFrame f fr s = .next t) :
    f < Config.maxFrames ∧
      (fr = none ∧ t = s.setFrames (Store.drop s.frm f) ∨
        ∃ g, fr = some g ∧ g.inBounds = true ∧ g.wf = true ∧ t = s.setFrames (Store.put s.frm f g)) := by
  unfold hostPutFrame at h
  split at h
  · cases h
  · refine ⟨Nat.lt_of_not_le ‹_›, ?_⟩
    split at h
    · exact .inl ⟨rfl, by simpa [eq_comm] using h⟩
    · rename_i g
      split at h
      · cases h
      · split at h
        · cases h
        · refine .inr ⟨g, rfl, ?_, ?_, by simpa [eq_comm] using h⟩ <;> simp_all

/-- What HOST's setting of `NFRM` leaves (R310 (6)). -/
theorem hostSetNfrm_next {n : Nat} {s t : State} (h : hostSetNfrm n s = .next t) :
    n ≤ Config.maxFrames ∧ t = s.setNfrm n := by
  unfold hostSetNfrm at h
  split at h
  · exact ⟨‹_›, by simpa [eq_comm] using h⟩
  · cases h

/-- What HOST's filling of `IN` leaves (R43). -/
theorem hostPutInput_next {src : Option (List Word32)} {s t : State} (h : hostPutInput src s = .next t) :
    t = s.setInput src := by
  simpa [hostPutInput, eq_comm] using h

/-- What HOST's filling of `INMAP` leaves (R43). -/
theorem hostPutInMap_next {m : Option (Memory 8)} {s t : State} (h : hostPutInMap m s = .next t) :
    t = s.setInMap m ∧ ∀ v, m = some v → Memory.wf mapSize v = true := by
  unfold hostPutInMap at h
  split at h
  · exact ⟨by simpa [eq_comm] using h, by simp⟩
  · split at h
    · rename_i v hv
      exact ⟨by simpa [eq_comm] using h, fun u hu => by cases hu; exact hv⟩
    · cases h

/-! ### Rows -/

/-- A zeroed row has at least `w` entries, and no fewer than before (R37, R211). -/
@[simp] theorem length_zeroRow (w : Nat) (row : List SByte) : (zeroRow w row).length = max w row.length := by
  simp [zeroRow]
  omega

/-- The first `w` entries of a zeroed row are 0 (R211). -/
theorem rowAt_zeroRow {w x : Nat} (row : List SByte) (h : x < w) : rowAt (zeroRow w row) x = 0 := by
  have hget : (List.replicate w 0#8 ++ List.drop w row)[x]? = some 0#8 := by
    rw [List.getElem?_append_left (by simpa using h), List.getElem?_replicate, if_pos h]
  simp [rowAt, zeroRow, List.getD_eq_getElem?_getD, hget]

/-- A clamped integer is within its limits (R6). -/
theorem clamp_bounds {i lo hi : Int} (h : lo ≤ hi) : lo ≤ clamp i lo hi ∧ clamp i lo hi ≤ hi := by
  unfold clamp
  split
  · omega
  · split <;> omega

end Sys2Proof.Machine
end

