-- ==== Sys2Proof/Machine/Assembler.lean ====
section
/-! DEFINITION. The assembler syntax of a command (30_encoding.md R106): its mnemonic and its operands, comma
separated, `A` then `IMM`. -/

namespace Sys2Proof.Machine

open Sys2Proof

/-- A hexadecimal digit, capitals. -/
def hexDigit (n : Nat) : Char := ['0', '1', '2', '3', '4', '5', '6', '7', '8', '9', 'A', 'B', 'C', 'D', 'E', 'F'].getD n '0'

/-- `n` as `digits` digits in `base`. -/
def digitsOf (base digits n : Nat) : List Char :=
  (List.range digits).reverse.map (fun i => hexDigit (n / base ^ i % base))

/-- Drop leading zeros, keeping one digit. -/
def dropZeros : List Char → List Char
  | [] => ['0']
  | [c] => [c]
  | c :: rest => if c = '0' then dropZeros rest else c :: rest

/-- A natural number in decimal. -/
def decimal (n : Nat) : List Char := dropZeros (digitsOf 10 (n.log2 + 1) n)

/-- A number in hexadecimal, at least `digits` digits. -/
def hexadecimal (digits n : Nat) : List Char := ['0', 'x'] ++ digitsOf 16 digits n

/-- A finite binary32 value as an exact decimal real; none for an infinity or a NaN, which no text spells
(assumption log 23). -/
def decimalReal (v : FP) : Option (List Char) :=
  match v.datum with
  | .fin neg m e =>
    let k := (-e).toNat
    let whole := if 0 ≤ e then m <<< e.toNat else m >>> k
    let fraction := (dropZeros (digitsOf 10 k ((m % 2 ^ k) * 5 ^ k)).reverse).reverse
    some ((if neg then ['-'] else []) ++ decimal whole ++ ['.'] ++ fraction)
  | _ => none

/-- The names of R104. -/
def algorithmName (a : Algorithm) : String :=
  match a with
  | .none => "NONE"
  | .gradientNoise => "GRADIENT_NOISE"
  | .pattern => "PATTERN"
  | .chaoticNoise => "CHAOTIC_NOISE"
  | .diffusion => "DIFFUSION"
  | .blueNoise => "BLUE_NOISE"
  | .scatter => "SCATTER"

/-- A selector: by name where it has one, else by number (R106). -/
def selectorText (sel : Word32) : List Char :=
  if (algorithmOf sel).value = sel then (algorithmName (algorithmOf sel)).toList else decimal sel.toNat

/-- The mnemonic of a command (R100). -/
def mnemonicOf (i : Instr) : String :=
  match i with
  | .setds _ => "SETDS"
  | .exact _ => "EXACT"
  | .preload _ => "PRELOAD"
  | .analyze _ _ => "ANALYZE"
  | .seta _ => "SETA"
  | .shrink _ => "SHRINK"
  | .stretch _ => "STRETCH"
  | .diff _ => "DIFF"
  | .diff3 _ _ _ => "DIFF3"
  | .reduce _ _ => "REDUCE"
  | .reduceSolid _ => "REDUCE_SOLID"
  | .reduceFs _ => "REDUCE_FS"
  | .reduceSierra _ => "REDUCE_SIERRA"
  | .reduceScatter _ => "REDUCE_SCATTER"
  | .reduceJimenez _ => "REDUCE_JIMENEZ"
  | .reduceBlue _ => "REDUCE_BLUE"
  | .reduceChaotic _ => "REDUCE_CHAOTIC"
  | .reduceKnoll _ => "REDUCE_KNOLL"
  | .reduceKnollr _ => "REDUCE_KNOLLR"

/-- The operands of a command as texts: colours and keys in hexadecimal, counts and frame numbers in decimal
(R106). -/
def operandTexts (i : Instr) : Option (List (List Char)) :=
  match i with
  | .setds s => (decimalReal ⟨s⟩).map (fun t => [t])
  | .exact n => some [decimal n.toNat]
  | .preload n => some [decimal n.toNat]
  | .analyze l t => some [decimal l.toNat, decimal t.toNat]
  | .seta c => some [hexadecimal 8 c.toNat]
  | .shrink c => some [hexadecimal 8 c.toNat]
  | .stretch k => some [hexadecimal 4 k.toNat]
  | .diff c => some [hexadecimal 8 c.toNat]
  | .diff3 r g b => some [decimal r.toNat, decimal g.toNat, decimal b.toNat]
  | .reduce f sel => some [decimal f.toNat, selectorText sel]
  | .reduceSolid f => some [decimal f.toNat]
  | .reduceFs f => some [decimal f.toNat]
  | .reduceSierra f => some [decimal f.toNat]
  | .reduceScatter f => some [decimal f.toNat]
  | .reduceJimenez f => some [decimal f.toNat]
  | .reduceBlue f => some [decimal f.toNat]
  | .reduceChaotic f => some [decimal f.toNat]
  | .reduceKnoll f => some [decimal f.toNat]
  | .reduceKnollr f => some [decimal f.toNat]

/-- The operand texts, comma separated. -/
def joinOperands : List (List Char) → List Char
  | [] => []
  | [t] => t
  | t :: rest => t ++ [',', ' '] ++ joinOperands rest

/-- The assembler text of a command, as its characters; none where an operand has no text. -/
def assemblerText (i : Instr) : Option (List Char) :=
  (operandTexts i).map (fun ts => (mnemonicOf i).toList ++ [' '] ++ joinOperands ts)

end Sys2Proof.Machine
end

