-- ==== Sys2Proof/Tests/Slice0.lean ====
section
/-! SUPPORT. The model's own tests. Expected results come from spec/95_test_vectors.md (the vector is named) or from
a rule's worked example; a witness shows one concrete state and operands that meet the hypotheses of an obligation. -/

namespace Sys2Proof.Tests

open Sys2Proof Sys2Proof.Machine

-- One thread at a time: the kernel evaluations below would each hold a stack of their own.
set_option Elab.async false

/-! ### Small states -/

/-- The palette `BW` of 95_test_vectors.md: reserved slot, black, white. -/
def bwPal : Memory 32 := [(1, 0x000000FF#32), (2, 0xFFFFFFFF#32)]

/-- `BW` loaded at the reset strength, its index listed at the keys a test needs, with `PB = 0x3F21E0D1` (vector 3.1). -/
def bw (map : Memory 8) (frm : Store Frame) : State :=
  { State.reset with
    cc := 3#9, pb := ⟨0x3F21E0D1#32⟩, valid := true, pal := bwPal, map := map, gam := bwPal, frm := frm }

/-- A frame of one row of pixels. -/
def row (px : List Word32) : Frame :=
  ⟨px.length, 1, .other 7, Memory.ofFn px.length (fun i => px.getD i 0#32), []⟩

/-- The 4 by 2 frame of V5.1 to V7.2, every pixel 0x808080FF. -/
def grey42 : Frame := ⟨4, 2, .replace, Memory.ofFn 8 (fun _ => 0x808080FF#32), []⟩

/-- The indices of slot 0's frame after a command. -/
def indicesAfter (i : Instr) (s : State) : List Nat :=
  match exec i s with
  | .next t =>
    match frameAt t 0 with
    | some fr => (frameIndices fr).map BitVec.toNat
    | none => []
  | _ => []

/-- The pixels of slot 0's frame after a command. -/
def pixelsAfter (i : Instr) (s : State) : List Word32 :=
  match exec i s with
  | .next t =>
    match frameAt t 0 with
    | some fr => frameWords fr
    | none => []
  | _ => []

/-- Why a command was refused, if it was. -/
def refusalOf (i : Instr) (s : State) : Option Refusal :=
  match exec i s with
  | .refused r => some r
  | _ => none

/-- The frame number operand of slot 0. -/
def f0 : BitVec 16 := 0#16

theorem slot0_exists : f0.toNat < Config.maxFrames := Nat.succ_pos _

/-! ### Well-formedness and decoding (vectors 8.1, 8.2) -/

theorem test_threshold_bit31_ill_formed : (Instr.analyze 256#16 0x80000000#32).wellFormed = false := by decide

theorem test_threshold_max_well_formed : (Instr.analyze 256#16 0x7FFFFFFF#32).wellFormed = true := by decide

theorem test_decode_setds : decode 0x010000003F800000#64 = .ok (.setds 0x3F800000#32) := by decide
theorem test_decode_exact : decode 0x0200010000000000#64 = .ok (.exact 256#16) := by decide
theorem test_decode_preload : decode 0x0300000300000000#64 = .ok (.preload 3#16) := by decide
theorem test_decode_analyze : decode 0x0400010000000096#64 = .ok (.analyze 256#16 150#32) := by decide
theorem test_decode_seta : decode 0x08000000FF0000FF#64 = .ok (.seta 0xFF0000FF#32) := by decide
theorem test_decode_shrink : decode 0x09000000FF8080FF#64 = .ok (.shrink 0xFF8080FF#32) := by decide
theorem test_decode_stretch : decode 0x0A00000000004210#64 = .ok (.stretch 0x4210#15) := by decide
theorem test_decode_diff : decode 0x0B00000000FF00FF#64 = .ok (.diff 0x00FF00FF#32) := by decide
theorem test_decode_diff3 : decode 0x0C00000000FF8080#64 = .ok (.diff3 255#8 128#8 128#8) := by decide
theorem test_decode_reduce : decode 0x1000000100000004#64 = .ok (.reduce 1#16 4#32) := by decide
theorem test_decode_solid : decode 0x1100000000000000#64 = .ok (.reduceSolid 0#16) := by decide
theorem test_decode_fs : decode 0x1200000100000000#64 = .ok (.reduceFs 1#16) := by decide
theorem test_decode_sierra : decode 0x1300000000000000#64 = .ok (.reduceSierra 0#16) := by decide
theorem test_decode_scatter : decode 0x1400000000000000#64 = .ok (.reduceScatter 0#16) := by decide
theorem test_decode_jimenez : decode 0x1500000000000000#64 = .ok (.reduceJimenez 0#16) := by decide
theorem test_decode_blue : decode 0x1600000000000000#64 = .ok (.reduceBlue 0#16) := by decide
theorem test_decode_chaotic : decode 0x1700000000000000#64 = .ok (.reduceChaotic 0#16) := by decide
theorem test_decode_knoll : decode 0x1800000000000000#64 = .ok (.reduceKnoll 0#16) := by decide
theorem test_decode_knollr : decode 0x1900000300000000#64 = .ok (.reduceKnollr 3#16) := by decide

/-- The invalid words of vector 8.2, each with its reason. -/
theorem test_invalid_words :
    [0x0000000000000000#64, 0x0500000000000000#64, 0x1A00000000000000#64, 0xFF00000000000000#64,
      0x0201010000000000#64, 0x0200010000000001#64, 0x010000013F800000#64, 0x0A00000000008000#64,
      0x0C00000001FF8080#64, 0x0400010080000000#64, 0x1100000000000001#64].map decode =
    [.error .reservedOpcode, .error .reservedOpcode, .error .reservedOpcode, .error .reservedOpcode,
      .error .nonzeroZ, .error .nonzeroField, .error .nonzeroField, .error .nonzeroField,
      .error .nonzeroField, .error .nonzeroField, .error .nonzeroField] := by decide

theorem test_encode_reduce : encode (.reduce 2#16 6#32) = 0x1000000200000006#64 := by decide

theorem test_table_word : decodeTableWord 64 0x0200010000000000 = some (.exact 256#16) := by decide

/-- The examples of R106. -/
theorem test_assembler :
    [Instr.setds 0x3F800000#32, .exact 256#16, .analyze 256#16 150#32, .seta 0xFF0000FF#32, .diff3 255#8 128#8 128#8,
      .stretch 0x4210#15, .reduce 0#16 4#32, .reduceFs 0#16].map (fun i => (assemblerText i).map String.ofList) =
    [some "SETDS 1.0", some "EXACT 256", some "ANALYZE 256, 150", some "SETA 0xFF0000FF", some "DIFF3 255, 128, 128",
      some "STRETCH 0x4210", some "REDUCE 0, DIFFUSION", some "REDUCE_FS 0"] := by decide +kernel

/-! ### Formats and arithmetic -/

/-- Vector 2.1. -/
theorem test_formats :
    [shrink 0x12345678#32, shrink 0x070000FF#32, shrink 0xFF8080FF#32] = [0x08CA#15, 0#15, 0x7E10#15] ∧
    [snap 0x12345678#32, snap 0x070000FF#32] = [0x103152FF#32, 0x000000FF#32] ∧
    [asnap 0x12345678#32, asnap 0x070000FF#32, asnap 0xF80000FF#32] = [0x123556FF#32, 0x070000FF#32, 0xFF0000FF#32] := by
  decide

/-- Constants the vectors give as binary32 patterns (2.2, 3.13, V5.1, V5.3, V6.1, V6.3). -/
theorem test_fp_constants :
    ramp 16#5 = ⟨0x3E88642A#32⟩ ∧ gammaExponent ⟨0x3F000000#32⟩ = ⟨0x3F666666#32⟩ ∧
    gammaExponent ⟨0x3E800000#32⟩ = ⟨0x3FACCCCC#32⟩ ∧ gammaExponent ⟨0x3FC00000#32⟩ = ⟨0xBF666666#32⟩ ∧
    FP.mul ⟨0x3F000000#32⟩ ⟨0x3F21E0D1#32⟩ = ⟨0x3EA1E0D1#32⟩ ∧
    FP.mul ⟨0x3EA1E0D1#32⟩ (FP.ofDecimal 125 3) = ⟨0x3D21E0D1#32⟩ ∧
    FP.mul ⟨0x3EA1E0D1#32⟩ (FP.ofDecimal 140625 6) = ⟨0x3D361CEB#32⟩ ∧
    FP.ofDecimal 6711056 8 = ⟨0x3D897143#32⟩ ∧ FP.ofDecimal 583715 8 = ⟨0x3BBF4590#32⟩ ∧
    FP.ofDecimal 529829189 7 = ⟨0x4253EE82#32⟩ ∧ FP.ofDecimal 3333 3 = ⟨0x40554FDF#32⟩ ∧
    FP.ofScaled 3 (-50) = ⟨0x27400000#32⟩ := by decide +kernel

/-- Vector 5.0. -/
theorem test_accumulate :
    accumulate [100#8] 0 123 (FP.ofDecimal 25 2) = [BitVec.ofInt 8 (-126)] ∧
    accumulate [BitVec.ofInt 8 (-3)] 0 (-10) (FP.ofDecimal 276 3) = [BitVec.ofInt 8 (-5)] ∧
    accumulate [0#8] 0 (-123) (FP.ofDecimal 2766472995 10) = [BitVec.ofInt 8 (-34)] ∧
    accumulate [127#8] 0 255 FP.one = [126#8] := by decide +kernel

/-- The table of V7.2, rows 0 to 3. -/
theorem test_kr :
    (List.range 4).map (fun y => (List.range 8).map (fun x => krIndex x y)) =
      [[0, 3, 2, 1, 0, 3, 2, 1], [4, 7, 6, 5, 4, 7, 6, 5], [0, 3, 2, 1, 0, 2, 3, 0], [5, 6, 7, 4, 5, 6, 7, 4]] := by
  decide +kernel

/-! ### The colour primitives (program P2, vector 2.5) -/

theorem test_seta : exec (.seta 0xFF0000FF#32) State.reset = .next (State.reset.setOpa 0xFF0000FF#32) := rfl

theorem test_shrink : exec (.shrink 0xFF8080FF#32) State.reset = .next (State.reset.setRes 0x00007E10#32) := rfl

theorem test_stretch : exec (.stretch 0x7E10#15) State.reset = .next (State.reset.setRes 0xFF8484FF#32) := rfl

theorem test_diff_alpha_mismatch :
    exec (.diff 0x000000FF#32) State.reset = .next (State.reset.setResf ⟨0x7F800000#32⟩) := rfl

theorem test_diff_black : diff State.reset.opa 0x00000000#32 = ⟨0#32⟩ := by decide +kernel

theorem test_diff3_transparent :
    exec (.diff3 255#8 128#8 128#8) (State.reset.setOpa 0xFF000000#32) =
      .next ((State.reset.setOpa 0xFF000000#32).setResf ⟨0x7F800000#32⟩) := rfl

theorem test_diff3_black : diff3 0x000000FF#32 7#8 0#8 3#8 = ⟨0#32⟩ := by decide +kernel

/-! ### SETDS and the loads (vectors 3.3 to 3.14) -/

/-- Vector 3.13, SETDS 2.0: every channel becomes 255, alpha is copied, the tail too. -/
theorem test_setds_two :
    [0, 1, 2, 3, 4].map (Memory.read (gammaTable (strengthOf ⟨0x40000000#32⟩)
      [(1, 0x808080FF#32), (2, 0x40C0FF80#32), (3, 0xFFFFFFFF#32)])) =
      [0xFFFFFF00#32, 0xFFFFFFFF#32, 0xFFFFFF80#32, 0xFFFFFFFF#32, 0xFFFFFF00#32] := by decide +kernel

theorem test_setds_strength :
    [0x3F800000#32, 0xBF800000#32, 0x80000000#32, 0x40400000#32].map (fun v => strengthOf ⟨v⟩) =
      [⟨0x3F000000#32⟩, ⟨0#32⟩, ⟨0#32⟩, ⟨0x3FC00000#32⟩] ∧
    refusalOf (.setds 0x7FC00000#32) State.reset = some .operandRange ∧
    refusalOf (.setds 0x7F800000#32) State.reset = some .operandRange := by decide +kernel

/-- Vectors 3.4 and 3.5: the slots EXACT fills, and the pre-marks of equal keys. -/
theorem test_exact_slots :
    (List.range 4).map (Memory.read (exactPalette [0xFF0000FF#32, 0x00FF0000#32, 0x0000FFFF#32] 3)) =
      [0xFF0000FF#32, 0#32, 0x0000FFFF#32, 0#32] ∧
    Memory.read (premark [(1, 0xFF0000FF#32), (2, 0xF80000FF#32), (3, 0x0000FFFF#32)] 4) 0x7C00 = 2#8 := by
  decide +kernel

/-- Vector 3.8. -/
theorem test_exact_refusals :
    refusalOf (.exact 256#16) (State.reset.setInput (some (List.replicate 300 0#32))) = some .operandRange ∧
    refusalOf (.exact 257#16) (State.reset.setInput (some (List.replicate 3 0#32))) = some .operandRange ∧
    refusalOf (.exact 300#16) State.reset = none := by decide +kernel

/-- Vector 3.14. -/
theorem test_preload_refusals :
    refusalOf (.preload 1#16) ((State.reset.setInput (some bwPal.unzip.2)).setInMap (some [])) = some .operandRange ∧
    refusalOf (.preload 3#16) ((State.reset.setInput (some bwPal.unzip.2)).setInMap (some [])) = some .operandRange ∧
    refusalOf (.preload 2#16) (State.reset.setInput (some bwPal.unzip.2)) = some .operandRange := by decide +kernel

/-- The palette, the count and one entry of the index after a PRELOAD of 2. -/
theorem test_preload :
    (match exec (.preload 2#16) ((State.reset.setInput (some [0#32, 0xFF0000FF#32, 7#32])).setInMap (some [(5, 9#8)])) with
    | .next t => ((List.range 3).map (palAt t), t.cc, mapAt t 5#15, t.valid)
    | _ => ([], 0#9, 0#8, false)) = ([0#32, 0xFF0000FF#32, 0#32], 2#9, 9#8, true) := by decide +kernel

/-- Vectors A4, A5 and A3d: what the adopt branch selects. -/
theorem test_analyze_adopts :
    (let t := tallyFrame ⟨[], false⟩ (row [0x0000FFFF#32, 0x00FF00FF#32, 0xFF0000FF#32, 0x00FF00FF#32]);
      selectColours 256 150#32 t = [0x00FF00FF#32, 0x0000FFFF#32, 0xFF0000FF#32]) ∧
    (let t := tallyFrame ⟨[], false⟩ (row [0xF80000FF#32, 0xFF000080#32, 0#32]);
      selectColours 256 150#32 t = [0#32, 0xFF0000FF#32]) := by decide +kernel

/-- Vector A2: at the limit 2 slot 0 is reserved and the commonest colour is taken. Vector 3.12: the refusals. -/
theorem test_analyze_greedy_and_refusals :
    (let t := tallyFrame ⟨[], false⟩
        (row [0xFF0000FF#32, 0xFF0000FF#32, 0xFF0000FF#32, 0x00FF00FF#32, 0x00FF00FF#32, 0x0000FFFF#32]);
      selectColours 2 150#32 t = [0#32, 0xFF0000FF#32]) ∧
    refusalOf (.analyze 1#16 150#32) State.reset = some .operandRange ∧
    refusalOf (.analyze 257#16 150#32) State.reset = some .operandRange ∧
    refusalOf (.analyze 256#16 150#32) ((bw [] [(0, grey42)]).setNfrm 2) = some .frameAbsent ∧
    refusalOf (.analyze 256#16 0x80000000#32) State.reset = some (.invalid .nonzeroField) := by decide +kernel

/-! ### The REDUCE commands -/

/-- Vectors 4.3, 4.4 and 4.7: a transparent pixel with and without a reserved slot, and the refusal. -/
theorem test_solid :
    indicesAfter (.reduceSolid f0) (bw [(0x7FFF, 2#8)] [(0, row [0xFFFFFF7F#32, 0xFFFFFF80#32])]) = [0, 2] ∧
    pixelsAfter (.reduceSolid f0) (bw [(0x7FFF, 2#8)] [(0, row [0xFFFFFF7F#32, 0xFFFFFF80#32])]) = [0#32, 0xFFFFFFFF#32] ∧
    refusalOf (.reduceSolid f0) State.reset = some .notLoaded := by decide +kernel

/-- The keys of V5.1 and V5.2 with their indices under `BW`. -/
def greyMap : Memory 8 :=
  [(0x1CE7, 1#8), (0x2108, 1#8), (0x2529, 1#8), (0x2D6B, 2#8), (0x318C, 2#8), (0x3DEF, 2#8), (0x4210, 2#8)]

/-- V5.1. -/
theorem test_fs : indicesAfter (.reduceFs f0) (bw greyMap [(0, grey42)]) = [2, 2, 2, 2, 2, 1, 2, 1] := by
  decide +kernel

/-- V5.2. -/
theorem test_sierra : indicesAfter (.reduceSierra f0) (bw greyMap [(0, grey42)]) = [2, 2, 2, 2, 2, 1, 2, 1] := by
  decide +kernel

/-- The selector 4 is REDUCE_FS (vector 4.6). -/
theorem test_reduce_selects :
    indicesAfter (.reduce f0 4#32) (bw greyMap [(0, grey42)]) = [2, 2, 2, 2, 2, 1, 2, 1] := by decide +kernel

/-- R215's example: the scaled error is truncated after the addition. -/
theorem test_scatter_perturb : perturbScaled ⟨0x3F000000#32⟩ 100#8 (-5) = 97#8 := by decide +kernel

/-- Vector 4.4 for the methods whose other pixels need an open parameter. -/
theorem test_shortcut_scatter : indicesAfter (.reduceScatter f0) (bw [] [(0, row [0xFFFFFF7F#32])]) = [0] := by decide +kernel
theorem test_shortcut_jimenez : pixelsAfter (.reduceJimenez f0) (bw [] [(0, row [0xFFFFFF7F#32])]) = [0#32] := by decide +kernel
theorem test_shortcut_blue : pixelsAfter (.reduceBlue f0) (bw [] [(0, row [0xFFFFFF7F#32])]) = [0#32] := by decide +kernel
theorem test_shortcut_chaotic : pixelsAfter (.reduceChaotic f0) (bw [] [(0, row [0xFFFFFF7F#32])]) = [0#32] := by decide +kernel
theorem test_shortcut_knoll : pixelsAfter (.reduceKnoll f0) (bw [] [(0, row [0xFFFFFF7F#32])]) = [0#32] := by decide +kernel
theorem test_shortcut_knollr : pixelsAfter (.reduceKnollr f0) (bw [] [(0, row [0xFFFFFF7F#32])]) = [0#32] := by decide +kernel

/-- V6.1, the phase at (0, 0), and R230's perturbation with the `adj` of V6.1 at (3, 0) and (1, 1). -/
theorem test_jimenez_parts :
    jimenezPhase 0 0 = ⟨0#32⟩ ∧ perturbBy ⟨0x3EB10467#32⟩ 132#8 255#8 = 89#8 ∧
    perturbBy ⟨0x3F33E4F9#32⟩ 132#8 255#8 = 45#8 := by decide +kernel

/-- V6.2, pixels (0, 0), (1, 0) and (2, 1), from their texels. -/
theorem test_blue_adjustment :
    blueAdjOf ⟨0x3EA1E0D1#32⟩ (BitVec.ofInt 8 (-87)) (BitVec.ofInt 8 (-87)) 0 0 = ⟨0xBEB2D623#32⟩ ∧
    blueAdjOf ⟨0x3EA1E0D1#32⟩ (BitVec.ofInt 8 (-14)) 20#8 1 0 = ⟨0xBD686AA1#32⟩ ∧
    blueAdjOf ⟨0x3EA1E0D1#32⟩ 123#8 63#8 2 1 = ⟨0x3EE0D8F3#32⟩ := by decide +kernel

/-- V6.3, the first two updates of the accumulator. -/
theorem test_chaotic_accumulator :
    chaosNext 0#64 0xFFFFFFFF#32 = 0x9F2FD7F6E91B8B88#64 ∧
    chaosNext 0x9F2FD7F6E91B8B88#64 0xFFFFFFFF#32 = 0xC7F5EA67B9BF5D60#64 := by decide +kernel

/-- The keys of V7.1 and V7.2 with their indices under `BW`: black below the channel 88, white from it up. -/
def diagonal : Memory 8 := (List.range 32).map (fun v => (v * 1057, if v ≤ 10 then 1#8 else 2#8))

/-- V7.1, the candidate loop. -/
theorem test_knoll_candidates :
    (candidates .knoll (bw diagonal []) 0x808080FF#32 16 ⟨0x3EA1E0D1#32⟩).map BitVec.toNat =
      [2, 2, 1, 2, 1, 2, 1, 2, 1, 2, 1, 2, 1, 2, 1, 2] := by decide +kernel

/-- V7.2, the candidate loop. -/
theorem test_knollr_candidates :
    (candidates .knollRoberts (bw diagonal []) 0x808080FF#32 8 ((FP.ofDecimal 6 1).mul ⟨0x3EA1E0D1#32⟩)).map BitVec.toNat =
      [2, 2, 1, 2, 1, 2, 2, 1] := by decide +kernel

/-- HOST's frame is placed by one step, and the word after it by the next (log 1). -/
theorem test_steps :
    (match step (State.reset.setHost [.putFrame 3 none, .issue 0x080000000000000F#64]) with
    | .next t =>
      (match step t with
      | .next u => (u.opa, u.host)
      | _ => (0#32, []))
    | _ => (0#32, [])) = (if 3 < Config.maxFrames then (0xF#32, []) else (0#32, [])) := by
  by_cases h : 3 < Config.maxFrames
  · rw [if_pos h]
    rw [step_cons (s := State.reset.setHost [.putFrame 3 none, .issue 0x080000000000000F#64]) rfl]
    simp only [hostAct, hostPutFrame, if_neg (Nat.not_le.mpr h)]
    rfl
  · rw [if_neg h]
    rw [step_cons (s := State.reset.setHost [.putFrame 3 none, .issue 0x080000000000000F#64]) rfl]
    simp only [hostAct, hostPutFrame, if_pos (Nat.not_lt.mp h)]

/-- The host's interface: the word stored is the next one that runs. -/
theorem test_with_fetch_word :
    step (State.reset.withFetchWord 64 0x08000000FF0000FF) = .next (State.reset.setOpa 0xFF0000FF#32) := rfl

/-! ### Witnesses: each meets all the hypotheses of the obligation it is named for, at their boundary values -/

theorem witness_DecodeInvertsEncode : (Instr.analyze 65535#16 0x7FFFFFFF#32).wellFormed = true := by decide

theorem witness_EncodeInvertsDecode : decode 0x04FFFF007FFFFFFF#64 = .error .nonzeroZ ∧
    decode 0x0400FFFF7FFFFFFF#64 = .ok (.analyze 65535#16 0x7FFFFFFF#32) := by decide

theorem witness_StepRunsTheDecodedCommand :
    (State.reset.setHost [.issue 0x0800000000000001#64]).host = [.issue 0x0800000000000001#64] ∧
    decode 0x0800000000000001#64 = .ok (.seta 1#32) ∧
    (State.reset.setHost [.issue 0#64]).host = [.issue 0#64] ∧ decode 0#64 = .error .reservedOpcode ∧
    State.reset.host = [] := ⟨rfl, by decide, rfl, by decide, rfl⟩

theorem witness_CommandsLeaveHostInputs :
    exec (.seta 1#32) (bw [] []) = .next ((bw [] []).setOpa 1#32) := rfl

theorem witness_HostWritesLeaveEngine :
    (State.reset.setHost [.putInput none]).host = [.putInput none] ∧ (∀ w, HostAction.putInput none ≠ .issue w) ∧
    step (State.reset.setHost [.putInput none]) = .next State.reset := ⟨rfl, by simp, rfl⟩

theorem bw_storesWf (map : Memory 8) (h : Memory.wf mapSize map = true) : (bw map []).storesWf = true := by
  have hp : Memory.wf palSize bwPal = true := by decide
  simp [State.storesWf, bw, State.reset, hp, h, Store.wf]

theorem witness_StepKeepsStores :
    ((bw greyMap []).setHost [.putFrame 0 (some (row [5#32]))]).storesWf = true ∧ 0 < Config.maxFrames ∧
    (row [5#32]).inBounds = true ∧
    step ((bw greyMap []).setHost [.putFrame 0 (some (row [5#32]))]) =
      .next ((bw greyMap []).setFrames [(0, row [5#32])]) := by
  have hb : (row [5#32]).inBounds = true := by
    simp [Frame.inBounds, row, Config.maxW, Config.maxH]
  have hw : (row [5#32]).wf = true := by decide
  refine ⟨bw_storesWf greyMap (by decide), Nat.succ_pos _, hb, ?_⟩
  rw [step_cons (s := (bw greyMap []).setHost [.putFrame 0 (some (row [5#32]))]) rfl]
  simp only [hostAct, hostPutFrame, if_neg (Nat.not_le.mpr (show 0 < Config.maxFrames from Nat.succ_pos _)), hb, hw]
  rfl

/-- A loaded palette store is consistent; `PB` is the free value of `exp`, so it stands as such. -/
def bwLoaded (map : Memory 8) : State := { bw map [] with pb := populationBias 3 }

theorem bwLoaded_paletteOk (map : Memory 8) : (bwLoaded map).PaletteOk where
  tail_zero := fun i hi => by
    have hi' : 3 ≤ i := hi
    exact Memory.read_of_ge (n := 3) (m := bwPal) (by decide) hi'
  gamma_current := by
    have h : bwPal = gammaTable ⟨0x3F000000#32⟩ bwPal := by decide +kernel
    exact h
  empty_count := fun h => by cases h
  loaded_count := fun _ => (by decide : 2 ≤ (3#9).toNat ∧ (3#9).toNat ≤ 256)
  loaded_bias := fun _ => congrArg populationBias (by decide : 3 = (3#9).toNat)

theorem witness_StepKeepsPaletteConsistent :
    ((bwLoaded greyMap).setHost [.issue 0x0100000040000000#64]).PaletteOk ∧
    ∃ t, step ((bwLoaded greyMap).setHost [.issue 0x0100000040000000#64]) = .next t :=
  ⟨⟨(bwLoaded_paletteOk greyMap).tail_zero, (bwLoaded_paletteOk greyMap).gamma_current,
    (bwLoaded_paletteOk greyMap).empty_count, (bwLoaded_paletteOk greyMap).loaded_count,
    (bwLoaded_paletteOk greyMap).loaded_bias⟩, _, rfl⟩

theorem witness_ReachableStatesAreGood : Reachable (State.reset.setOpa 0xFF0000FF#32) :=
  .step (.reset [.issue 0x08000000FF0000FF#64]) rfl

theorem witness_ValidBit :
    loadsPalette (.exact 0#16) = true ∧ exec (.exact 0#16) State.reset = .next (loadHaltonic State.reset) ∧
    loadsPalette (.seta 1#32) = false ∧ exec (.seta 1#32) State.reset = .next (State.reset.setOpa 1#32) ∧
    (bw [] []).valid = true ∧ step (bw [] []) = .next (bw [] []) ∧
    (ditherOf (.reduce 0#16 0xFFFFFFFF#32)).isSome = true ∧ State.reset.valid = false :=
  ⟨rfl, rfl, rfl, rfl, rfl, rfl, rfl, rfl⟩

theorem witness_WritersOfEachState :
    exec (.shrink 1#32) State.reset = .next (State.reset.setRes 0#32) ∧ loadsPalette (.shrink 1#32) = false ∧
    ditherOf (.shrink 1#32) = none ∧ (∀ v, Instr.shrink 1#32 ≠ .setds v) ∧ (∀ c, Instr.shrink 1#32 ≠ .seta c) ∧
    (∀ c, Instr.shrink 1#32 ≠ .diff c) ∧ (∀ r g b, Instr.shrink 1#32 ≠ .diff3 r g b) ∧
    exec (.seta 1#32) State.reset = .next (State.reset.setOpa 1#32) ∧
    (∀ c, Instr.seta 1#32 ≠ .shrink c) ∧ (∀ k, Instr.seta 1#32 ≠ .stretch k) :=
  ⟨rfl, rfl, rfl, by simp, by simp, by simp, by simp, rfl, by simp, by simp⟩

theorem witness_DiffResult :
    shrink State.reset.opa = shrink 0x0000007F#32 ∧ isOpaque State.reset.opa = isOpaque 0x0000007F#32 ∧
    finiteLab (shrink 0x0000007F#32) = true := by decide +kernel

theorem witness_DistanceLaws : finiteLab 0#15 = true := by decide +kernel

/-- The greatest finite operand, the smallest infinity, and negative zero. -/
theorem witness_SetdsResult :
    (FP.mk 0x7F7FFFFF#32).isFinite = true ∧ (FP.mk 0x7F800000#32).isFinite = false ∧
    (0x80000000#32).msb = true ∧ (FP.mk 0x80000000#32).isFinite = true := by decide

theorem witness_GammaEntries : ∃ t, exec (.setds 0x7F7FFFFF#32) (bw [] []) = .next t ∧ 255 < 256 := ⟨_, rfl, by decide⟩

theorem witness_GammaFixedPoints :
    FP.lt FP.zero ⟨0x00000001#32⟩ = true ∧ (FP.mk 0#32).isZero = true ∧ (FP.mk 0x80000000#32).isZero = true ∧
    FP.lt ⟨0x80000001#32⟩ FP.zero = true := by decide

theorem witness_ExactFallback :
    State.reset.input = none ∧ (State.reset.setInput (some [7#32])).input = some [7#32] ∧ [7#32].length < 2 ∧
    (1#16).toNat < 2 := by decide

theorem witness_ExactLoadsInput :
    (State.reset.setInput (some (List.replicate 2 5#32))).input = some (List.replicate 2 5#32) ∧
    2 ≤ (List.replicate 2 5#32).length ∧ (List.replicate 256 5#32).length ≤ 256 ∧ 2 ≤ (2#16).toNat ∧
    (256#16).toNat ≤ 256 :=
  ⟨rfl, by decide, by decide +kernel, by decide, by decide⟩

/-- Slots: reserved, black, black again, red. The key of black is marked, the key of red too; white is marked by none. -/
def markedInput : List Word32 := [0#32, 0x000000FF#32, 0x070707FF#32, 0xFF0000FF#32]

theorem marked_eq : exec (.exact 256#16) (State.reset.setInput (some markedInput)) =
    .next (loadExact markedInput 256 (State.reset.setInput (some markedInput))) := rfl

theorem palAt_marked (j : Nat) (hj : j < 4) :
    palAt (loadExact markedInput 256 (State.reset.setInput (some markedInput))) j = markedInput.getD j 0#32 := by
  show Memory.read (exactPalette markedInput 4) j = _
  rw [read_exactPalette, if_pos (show j < palSize by simp [palSize]; omega), if_pos hj]
  interval_cases j <;> rfl

theorem witness_IndexNamesNearest :
    (∃ t, exec (.exact 256#16) (State.reset.setInput (some markedInput)) = .next t ∧ t.cc = 4#9 ∧
      isOpaque (palAt t 2) = true ∧ shrink (palAt t 2) = 0#15 ∧ shrink (palAt t 1) = 0#15 ∧
      (∀ j, 1 ≤ j → j < t.cc.toNat → shrink (palAt t j) ≠ 0x7FFF#15)) ∧
    ∃ t, exec (.analyze 2#16 0#32) State.reset = .next t := by
  refine ⟨⟨_, marked_eq, rfl, ?_, ?_, ?_, ?_⟩, _, rfl⟩
  · rw [palAt_marked 2 (by decide)]; rfl
  · rw [palAt_marked 2 (by decide)]; rfl
  · rw [palAt_marked 1 (by decide)]; rfl
  · intro j h1 h2
    have h4 : j < 4 := h2
    rw [palAt_marked j h4]
    interval_cases j <;> decide

theorem witness_PreloadCopies :
    (∃ s : State, s.input = some (List.replicate 2 5#32) ∧ s.inMap = some ([] : Memory 8) ∧ 2 ≤ (2#16).toNat ∧
      (2#16).toNat ≤ 256 ∧ (2#16).toNat ≤ (List.replicate 2 5#32).length) ∧
    ∃ s : State, s.input = some (List.replicate 256 5#32) ∧ s.inMap = some ([] : Memory 8) ∧ 2 ≤ (256#16).toNat ∧
      (256#16).toNat ≤ 256 ∧ (256#16).toNat ≤ (List.replicate 256 5#32).length :=
  ⟨⟨(State.reset.setInput (some (List.replicate 2 5#32))).setInMap (some []), rfl, rfl, by decide, by decide, by decide +kernel⟩,
    ⟨(State.reset.setInput (some (List.replicate 256 5#32))).setInMap (some []), rfl, rfl, by decide, by decide, by decide +kernel⟩⟩

theorem witness_PreloadRoundTrip :
    ∃ s u : State, s.valid = true ∧ s.storesWf = true ∧ s.PaletteOk ∧ u.ds = s.ds ∧ u.input = some (palWords s) ∧
      u.inMap = some s.map :=
  ⟨bwLoaded greyMap, (State.reset.setInput (some (palWords (bwLoaded greyMap)))).setInMap (some greyMap), rfl,
    bw_storesWf greyMap (by decide), bwLoaded_paletteOk greyMap, rfl, rfl, rfl⟩

/-- The frames of vectors A4 (three colours), A2 (three colours) and of a lone transparent pixel. -/
def withFrame (fr : Frame) : State := (bw [] [(0, fr)]).setNfrm 1

theorem analyzed_withFrame (fr : Frame) : analyzedFrames (withFrame fr) = some [fr] := rfl

theorem witness_AnalyzeCompletes :
    2 ≤ (2#16).toNat ∧ (256#16).toNat ≤ 256 ∧ (0x7FFFFFFF#32).toNat < 2 ^ 31 ∧
    analyzedFrames (withFrame (row [0#32])) = some [row [0#32]] ∧
    distinctColours [row [0#32]] + transparentCount [row [0#32]] < 2 ∧ analyzedFrames State.reset = some [] := by
  refine ⟨by decide, by decide, by decide, rfl, by decide +kernel, rfl⟩

theorem witness_AnalyzeAdopts :
    let fr := row [0x0000FFFF#32, 0x00FF00FF#32, 0xFF0000FF#32, 0x00FF00FF#32]
    (∃ t, exec (.analyze 3#16 150#32) (withFrame fr) = .next t) ∧
    2 ≤ distinctColours [fr] + transparentCount [fr] ∧
    distinctColours [fr] + transparentCount [fr] ≤ (3#16).toNat := by
  exact ⟨⟨_, rfl⟩, by decide +kernel, by decide +kernel⟩

theorem witness_AnalyzeSelectsGreedily :
    let fr := row [0x0000FFFF#32, 0x00FF00FF#32, 0xFF0000FF#32, 0x00FF00FF#32]
    (∃ t, exec (.analyze 2#16 150#32) (withFrame fr) = .next t) ∧
    (2#16).toNat < distinctColours [fr] + transparentCount [fr] := by
  exact ⟨⟨_, rfl⟩, by decide +kernel⟩

theorem witness_LoadRefusals :
    (∃ s : State, s.input = some (List.replicate 257 0#32) ∧ 2 ≤ (List.replicate 257 0#32).length ∧
      256 < (List.replicate 257 0#32).length) ∧
    (∃ s : State, s.input = some [0#32, 0#32] ∧ s.inMap = none ∧ [0#32, 0#32].length < (3#16).toNat ∧
      2 ≤ (257#16).toNat ∧ 256 < (257#16).toNat) ∧
    State.reset.input = none ∧ (1#16).toNat < 2 ∧ (0x7FFFFFFF#32).toNat < 2 ^ 31 ∧
    ∃ s : State, 0 < s.nfrm ∧ frameAt s 0 = none ∧ 2 ≤ (2#16).toNat ∧ (256#16).toNat ≤ 256 :=
  ⟨⟨State.reset.setInput (some (List.replicate 257 0#32)), rfl, by decide +kernel, by decide +kernel⟩,
    ⟨State.reset.setInput (some [0#32, 0#32]), rfl, rfl, by decide, by decide, by decide⟩, rfl, by decide, by decide,
    State.reset.setNfrm 1, by decide, rfl, by decide, by decide⟩

theorem witness_LoadsAndSetdsLeave :
    (∃ t, exec (.setds 0x40000000#32) (bw [] []) = .next t) ∧ loadsPalette (.exact 1#16) = true ∧
    ∃ t, exec (.exact 1#16) (bw [] []) = .next t := ⟨⟨_, rfl⟩, rfl, _, rfl⟩

theorem witness_SetdsCommutesWithLoads :
    loadsPalette (.exact 1#16) = true ∧ (∃ a, exec (.exact 1#16) (bw [] []) = .next a) ∧
    ∃ b, exec (.setds 0x40000000#32) (bw [] []) = .next b := ⟨rfl, ⟨_, rfl⟩, _, rfl⟩

theorem witness_ReduceDispatches : 6 ≤ (6#32).toNat ∧ 6 ≤ (0xFFFFFFFF#32).toNat := by decide

/-- Every method, named by its own command or by a selector, is asked about by the statements on REDUCE. -/
theorem witness_ReduceChecks :
    ditherOf (.reduce 0#16 7#32) = some (.scatter, 0#16) ∧ State.reset.valid = false ∧ (bw [] []).valid = true ∧
    frameAt (bw [] []) 0 = none ∧ (0#16).toNat < Config.maxFrames ∧
    (∃ fr, frameAt (bw [] [(0, row [])]) 0 = some fr ∧ (fr.width = 0 ∨ fr.height = 0)) :=
  ⟨rfl, rfl, rfl, rfl, slot0_exists, row [], rfl, .inl rfl⟩

/-- The state the statements on present frames start from: `BW`, the 4 by 2 grey frame with one transparent pixel. -/
def spotted : Frame :=
  ⟨4, 2, .other 7, Memory.ofFn 8 (fun i => if i = 1 then 0x80808000#32 else 0x808080FF#32), []⟩

theorem present :
    (bw greyMap [(0, spotted)]).valid = true ∧ f0.toNat < Config.maxFrames ∧
    frameAt (bw greyMap [(0, spotted)]) f0.toNat = some spotted ∧ spotted.wf = true :=
  ⟨rfl, slot0_exists, rfl, by decide⟩

theorem witness_ReduceCompletesWithFrame : ditherOf (.reduceKnollr f0) = some (.knollRoberts, f0) ∧
    (bw greyMap [(0, spotted)]).valid = true ∧ f0.toNat < Config.maxFrames ∧
    frameAt (bw greyMap [(0, spotted)]) f0.toNat = some spotted ∧ spotted.wf = true := ⟨rfl, present⟩

theorem witness_PixelsArePaletteEntries : ditherOf (.reduceFs f0) = some (.floydSteinberg, f0) ∧
    (bw greyMap [(0, spotted)]).valid = true ∧ f0.toNat < Config.maxFrames ∧
    frameAt (bw greyMap [(0, spotted)]) f0.toNat = some spotted ∧ spotted.wf = true := ⟨rfl, present⟩

/-- A REDUCE on a present frame answers. -/
theorem reduce_answers (i : Instr) (dm : DitherMethod) (h : ditherOf i = some (dm, f0)) (m : Memory 8) (fr : Frame) :
    exec i (bw m [(0, fr)]) = .next (dithered (ditherMethod dm (bw m [(0, fr)])) 0 fr (bw m [(0, fr)])) := by
  rw [exec_dither h, reduceFrame_next_iff]
  exact ⟨rfl, slot0_exists, .inr ⟨fr, rfl, rfl⟩⟩

theorem witness_TransparentBecomesZero :
    ditherOf (.reduceChaotic f0) = some (.chaoticNoise, f0) ∧ reserved (bw greyMap [(0, spotted)]) = true ∧
    (∃ t, exec (.reduceChaotic f0) (bw greyMap [(0, spotted)]) = .next t ∧ ∃ g, frameAt t f0.toNat = some g) ∧
    isOpaque (getPixel spotted 1 0) = false :=
  ⟨rfl, by decide, ⟨_, reduce_answers _ _ rfl _ _, _, rfl⟩, by decide⟩

theorem witness_SolidPixels : (bw greyMap [(0, spotted)]).valid = true ∧ f0.toNat < Config.maxFrames ∧
    frameAt (bw greyMap [(0, spotted)]) f0.toNat = some spotted ∧ spotted.wf = true := present

/-- The keys of black and white, mapped to their own slots. -/
def ownMap : Memory 8 := [(0, 1#8), (0x7FFF, 2#8)]

theorem witness_SolidIdempotent :
    frameAt (bw ownMap [(0, spotted)]) f0.toNat = some spotted ∧ spotted.wf = true ∧
    (∀ k : Key, if isOpaque (palAt (bw ownMap [(0, spotted)]) (mapAt (bw ownMap [(0, spotted)]) k).toNat) = true
      then mapAt (bw ownMap [(0, spotted)])
          (shrink (palAt (bw ownMap [(0, spotted)]) (mapAt (bw ownMap [(0, spotted)]) k).toNat)) =
        mapAt (bw ownMap [(0, spotted)]) k
      else mapAt (bw ownMap [(0, spotted)]) k = 0#8 ∧ palAt (bw ownMap [(0, spotted)]) 0 = 0#32) ∧
    ∃ t, exec (.reduceSolid f0) (bw ownMap [(0, spotted)]) = .next t := by
  refine ⟨rfl, by decide, fun k => ?_, _, reduce_answers _ _ rfl _ _⟩
  have hk : mapAt (bw ownMap [(0, spotted)]) k = 0#8 ∨ mapAt (bw ownMap [(0, spotted)]) k = 1#8 ∨
      mapAt (bw ownMap [(0, spotted)]) k = 2#8 := by
    show Memory.read ownMap k.toNat = 0#8 ∨ Memory.read ownMap k.toNat = 1#8 ∨ Memory.read ownMap k.toNat = 2#8
    unfold Memory.read ownMap
    simp only [Store.find_cons, Store.find_nil]
    split
    · exact .inr (.inl rfl)
    · split
      · exact .inr (.inr rfl)
      · exact .inl rfl
  rcases hk with hk | hk | hk <;> rw [hk] <;> decide

theorem witness_DistinctKeysFixTheIndex :
    ∃ t, exec (.exact 256#16) (State.reset.setInput (some [0#32, 0x000000FF#32, 0xFFFFFFFF#32])) = .next t ∧
      palAt t 0 = 0#32 ∧
      (∀ i j, i < t.cc.toNat → j < t.cc.toNat → isOpaque (palAt t i) = true → isOpaque (palAt t j) = true →
        shrink (palAt t i) = shrink (palAt t j) → i = j) := by
  refine ⟨_, rfl, by decide +kernel, ?_⟩
  have h : ∀ i < 3, ∀ j < 3, isOpaque (Memory.read (exactPalette [0#32, 0x000000FF#32, 0xFFFFFFFF#32] 3) i) = true →
      isOpaque (Memory.read (exactPalette [0#32, 0x000000FF#32, 0xFFFFFFFF#32] 3) j) = true →
      shrink (Memory.read (exactPalette [0#32, 0x000000FF#32, 0xFFFFFFFF#32] 3) i) =
        shrink (Memory.read (exactPalette [0#32, 0x000000FF#32, 0xFFFFFFFF#32] 3) j) → i = j := by decide +kernel
  exact fun i j hi hj => h i hi j hj

theorem witness_OrderedNoisePixels : (Instr.reduceBlue f0 = .reduceJimenez f0 ∨ Instr.reduceBlue f0 = .reduceBlue f0) ∧
    (bw greyMap [(0, spotted)]).valid = true ∧ f0.toNat < Config.maxFrames ∧
    frameAt (bw greyMap [(0, spotted)]) f0.toNat = some spotted ∧ spotted.wf = true := ⟨.inr rfl, present⟩

theorem witness_ChaoticPixels : (bw greyMap [(0, spotted)]).valid = true ∧ f0.toNat < Config.maxFrames ∧
    frameAt (bw greyMap [(0, spotted)]) f0.toNat = some spotted ∧ spotted.wf = true ∧ 0 < spotted.width ∧
    0 < spotted.height := ⟨present.1, present.2.1, present.2.2.1, present.2.2.2, by decide, by decide⟩

theorem witness_PatternPixels : (bw greyMap [(0, spotted)]).valid = true ∧ f0.toNat < Config.maxFrames ∧
    frameAt (bw greyMap [(0, spotted)]) f0.toNat = some spotted ∧ spotted.wf = true := present

theorem witness_NetworkPermutes :
    (∀ pq ∈ Config.net16, pq.1 < pq.2 ∧ pq.2 < (List.replicate 16 0#8).length) ∧
    ∀ pq ∈ Config.net8, pq.1 < pq.2 ∧ pq.2 < (List.replicate 8 0#8).length := by decide

theorem witness_EightNetworkSorts :
    (List.replicate 8 1#8).length = 8 ∧ ∀ i ∈ List.replicate 8 1#8, (lum (bw [] []) i).isNan = false := by
  decide +kernel

theorem witness_SixteenNetworkSorts :
    (List.replicate 16 1#8).length = 16 ∧ ∀ i ∈ List.replicate 16 1#8, (lum (bw [] []) i).isNan = false := by
  decide +kernel

theorem witness_AccumulateWritesOneSlot : 0 < [100#8].length := by decide

theorem witness_FloydSteinbergPixels : (bw greyMap [(0, spotted)]).valid = true ∧ f0.toNat < Config.maxFrames ∧
    frameAt (bw greyMap [(0, spotted)]) f0.toNat = some spotted ∧ spotted.wf = true := present

theorem witness_SierraLitePixels : (bw greyMap [(0, spotted)]).valid = true ∧ f0.toNat < Config.maxFrames ∧
    frameAt (bw greyMap [(0, spotted)]) f0.toNat = some spotted ∧ spotted.wf = true := present

theorem witness_ScatterPixels : (bw greyMap [(0, spotted)]).valid = true ∧ f0.toNat < Config.maxFrames ∧
    frameAt (bw greyMap [(0, spotted)]) f0.toNat = some spotted ∧ spotted.wf = true := present

theorem witness_EarlierDitherStateUnseen :
    let s := bw greyMap [(0, spotted)]
    let u := s.setDithered s.frm ⟨⟨[1#8], [2#8], []⟩, ⟨[], [], [3#8]⟩, 5#64⟩
    (ditherOf (.reduceScatter f0)).isSome = true ∧ SamePalette s u ∧ u.frm = s.frm ∧
    ∃ t, exec (.reduceScatter f0) s = .next t :=
  ⟨rfl, ⟨rfl, rfl, rfl, rfl, rfl, rfl, rfl⟩, rfl, _, reduce_answers _ _ rfl _ _⟩

theorem witness_ZeroStrengthIsSolid :
    let s := (bw greyMap [(0, spotted)]).setStrength ⟨0#32⟩ []
    s.valid = true ∧ f0.toNat < Config.maxFrames ∧ frameAt s f0.toNat = some spotted ∧ spotted.wf = true ∧
    s.ds.mul s.pb = ⟨0#32⟩ :=
  ⟨rfl, slot0_exists, rfl, by decide, by decide +kernel⟩

theorem witness_ConversionsToInteger :
    (FP.mk 0x7F800001#32).isNan = true ∧ (FP.mk 0xCF000001#32).datum.toInt? = some (-2147483904) := by decide +kernel

end Sys2Proof.Tests
end

section
/-! SUPPORT. What a command word does in a step (20_memory.md R70); the conversions to integer of 00_scope.md R8. -/

namespace Sys2Proof.Machine

open Sys2Proof

/-! ### A step that takes a command word -/

/-- A word that decodes runs its command. -/
theorem runWord_of_decode_ok {w : Word64} {i : Instr} (h : decode w = .ok i) (s : State) :
    runWord w s = exec i s := by
  simp only [runWord, h]

/-- A reserved word is refused with the decoder's reason (30_encoding.md R102). -/
theorem runWord_of_decode_error {w : Word64} {e : DecodeError} (h : decode w = .error e) (s : State) :
    runWord w s = .refused (.invalid e) := by
  simp only [runWord, h]

/-- With a word as HOST's oldest pending action, a step runs that word with the action taken off. -/
theorem step_issue {s : State} {w : Word64} {rest : List HostAction} (h : s.host = .issue w :: rest) :
    step s = runWord w (s.setHost rest) :=
  step_cons h

/-- Settles O10: a step at a word is `runWord`, and what the decoder answers says which of its two cases it is. -/
theorem stepRunsTheDecodedCommand : Obligations.StepRunsTheDecodedCommand := by
  refine fun s => ⟨fun w rest hs => ⟨fun i hi => ?decodes, fun e he => ?reserved⟩, step_idle⟩
  case decodes => rw [step_issue hs, runWord_of_decode_ok hi]
  case reserved => rw [step_issue hs, runWord_of_decode_error he]

end Sys2Proof.Machine

namespace Sys2Proof

/-! ### The conversions of R8 -/

/-- A pattern is read as a NaN when its exponent field is all ones and its fraction is not zero. -/
theorem FloatFormat.unpack_eq_nan_iff (f : FloatFormat) (bits : Nat) :
    f.unpack bits = .nan ↔
      bits / 2 ^ f.frac % 2 ^ f.expo = f.maxExpField ∧ bits % 2 ^ f.frac ≠ 0 := by
  unfold FloatFormat.unpack
  by_cases hexp : bits / 2 ^ f.frac % 2 ^ f.expo = f.maxExpField
  · by_cases hfrac : bits % 2 ^ f.frac = 0 <;> simp [hexp, hfrac]
  · simp only [hexp, if_false, false_and, iff_false]
    split <;> exact Datum.noConfusion

end Sys2Proof

namespace Sys2Proof.FP

open Sys2Proof

/-! ### `trunc`, one equation for each kind of datum -/

theorem trunc_of_datum_nan {v : FP} (h : v.datum = .nan) : v.trunc = 0 := by
  simp only [trunc, h]

theorem trunc_of_datum_inf {v : FP} {neg : Bool} (h : v.datum = .inf neg) :
    v.trunc = if neg then -2147483648 else 2147483647 := by
  simp only [trunc, h]
  rfl

/-- A datum with an integer part is finite, and `trunc` saturates that integer part. -/
theorem trunc_of_toInt? {v : FP} {n : Int} (h : v.datum.toInt? = some n) :
    v.trunc = clamp n (-2147483648) 2147483647 := by
  cases hd : v.datum with
  | nan => simp [hd, Datum.toInt?] at h
  | inf neg => simp [hd, Datum.toInt?] at h
  | fin neg m e =>
    rw [hd] at h
    simp only [trunc, hd, h, Option.getD_some]
    rfl

/-! ### A NaN pattern stands for the datum `nan` -/

/-- The bit tests of `isNan`, on the value of the pattern. -/
theorem isNan_iff_fields (v : FP) :
    v.isNan = true ↔ v.bits.toNat / 2 ^ 23 % 2 ^ 8 = 255 ∧ v.bits.toNat % 2 ^ 23 ≠ 0 := by
  have hexp : v.bits.extractLsb' 23 8 = 0xFF#8 ↔ v.bits.toNat / 2 ^ 23 % 2 ^ 8 = 255 := by
    rw [← BitVec.toNat_inj, BitVec.extractLsb'_toNat, Nat.shiftRight_eq_div_pow]; rfl
  have hfrac : v.bits.extractLsb' 0 23 = 0#23 ↔ v.bits.toNat % 2 ^ 23 = 0 := by
    rw [← BitVec.toNat_inj, BitVec.extractLsb'_toNat, Nat.shiftRight_zero]; rfl
  simp only [isNan, isFinite, Bool.and_eq_true, Bool.not_eq_true', bne_eq_false_iff_eq, bne_iff_ne, ne_eq, hexp,
    hfrac]

/-- The bit tests of `isNan` agree with the reading of the pattern. -/
theorem isNan_iff_datum_nan {v : FP} : v.isNan = true ↔ v.datum = .nan :=
  (isNan_iff_fields v).trans (FloatFormat.unpack_eq_nan_iff binary32 v.bits.toNat).symm

end Sys2Proof.FP

namespace Sys2Proof

/-- The low 8 bits read as signed are the balanced residue (R8). -/
theorem toInt_sbyte (n : Int) : (sbyte n).toInt = n.bmod 256 :=
  BitVec.toInt_ofInt n

/-- Settles O60: `trunc` by the kind of datum its operand stands for, `sbyte` by its residue. -/
theorem conversionsToInteger : Obligations.ConversionsToInteger := by
  refine ⟨fun v hv => ?nan, ⟨?posInf, ?negInf⟩, fun v n hn => ?finite, toInt_sbyte⟩
  case nan => exact FP.trunc_of_datum_nan (FP.isNan_iff_datum_nan.mp hv)
  case posInf => exact FP.trunc_of_datum_inf (neg := false) rfl
  case negInf => exact FP.trunc_of_datum_inf (neg := true) rfl
  case finite => exact FP.trunc_of_toInt? hn

end Sys2Proof
end

section
/-! SUPPORT. What a command that answers has done, said once by the part of the state it writes (10_state.md R45),
and what each part of a command leaves of the dither working state. -/

namespace Sys2Proof.Machine

open Sys2Proof

/-! ### The dither working state through a REDUCE (R37, R39) -/

/-- The three hooks of a method leave the part `g` of the working state. -/
structure Method.Keeps {α : Type} (m : Method) (g : Work → α) : Prop where
  start : ∀ w wk, g (m.start w wk) = g wk
  pixel : ∀ w h x y c wk, g (m.pixel w h x y c wk).2 = g wk
  rowEnd : ∀ w wk, g (m.rowEnd w wk) = g wk

/-- A method without hooks leaves the whole working state. -/
theorem Method.pointwise_keeps {α : Type} (index : Nat → Nat → Word32 → Byte) (g : Work → α) :
    (Method.pointwise index).Keeps g :=
  ⟨fun _ _ => rfl, fun _ _ _ _ _ _ => rfl, fun _ _ => rfl⟩

/-- A diffusion dither writes the rows and leaves `S`. -/
theorem diffusionMethod_keeps_chaos (dm : DitherMethod) (s : State) (perturb : Nat → Nat → Byte → Int → Byte)
    (spread : Nat → Nat → Nat → Nat → Int → RowPair → RowPair) :
    (diffusionMethod dm s perturb spread).Keeps Work.chaos :=
  ⟨fun _ _ => rfl, fun _ _ _ _ _ _ => rfl, fun _ _ => rfl⟩

/-- Both error rows, every channel (R37). -/
def Work.rows (wk : Work) : ErrorRows × ErrorRows := (wk.cur, wk.next)

/-- A write of `S` leaves the rows. -/
theorem Work.rows_of_chaos_write (wk : Work) (v : Word64) : Work.rows { wk with chaos := v } = wk.rows := rfl

/-- A pixel of Chaotic-Noise writes `S` alone (R235). -/
theorem chaoticPixel_work (s : State) (w h x y : Nat) (c : Word32) (wk : Work) :
    (chaoticPixel s w h x y c wk).2 =
      { wk with chaos := chaosNext wk.chaos (palAt s (firstPass .chaoticNoise s c).toNat) } := rfl

/-- Chaotic-Noise writes `S` and leaves the rows. -/
theorem methodChaotic_keeps_rows (s : State) : (methodChaotic s).Keeps Work.rows where
  start := fun _ wk => Work.rows_of_chaos_write wk _
  pixel := fun w h x y c wk =>
    (congrArg Work.rows (chaoticPixel_work s w h x y c wk)).trans (Work.rows_of_chaos_write wk _)
  rowEnd := fun _ _ => rfl

/-- The methods that diffuse no error leave the rows. -/
theorem ditherMethod_keeps_rows {dm : DitherMethod} (s : State) (hfs : dm ≠ .floydSteinberg)
    (hsierra : dm ≠ .sierraLite) (hscatter : dm ≠ .scatter) : (ditherMethod dm s).Keeps Work.rows := by
  cases dm with
  | floydSteinberg => exact absurd rfl hfs
  | sierraLite => exact absurd rfl hsierra
  | scatter => exact absurd rfl hscatter
  | chaoticNoise => exact methodChaotic_keeps_rows s
  | solid | jimenez | blueNoise | knoll | knollRoberts => exact Method.pointwise_keeps ..

/-- Every method but Chaotic-Noise leaves `S`. -/
theorem ditherMethod_keeps_chaos {dm : DitherMethod} (s : State) (hchaotic : dm ≠ .chaoticNoise) :
    (ditherMethod dm s).Keeps Work.chaos := by
  cases dm with
  | chaoticNoise => exact absurd rfl hchaotic
  | floydSteinberg | sierraLite | scatter => exact diffusionMethod_keeps_chaos ..
  | solid | jimenez | blueNoise | knoll | knollRoberts => exact Method.pointwise_keeps ..

section Keeps

variable {α : Type} {m : Method} {g : Work → α}

/-- One pixel leaves what the method leaves, on the shortcut too. -/
theorem Method.Keeps.rasterPixel (hm : m.Keeps g) (s : State) (w h y : Nat) (acc : Frame × Work) (x : Nat) :
    g (rasterPixel m s w h y acc x).2 = g acc.2 := by
  rw [rasterPixel_eq]
  unfold pixelStep
  split
  · rfl
  · exact hm.pixel ..

theorem Method.Keeps.rasterRow (hm : m.Keeps g) (s : State) (w h : Nat) (acc : Frame × Work) (y : Nat) :
    g (rasterRow m s w h acc y).2 = g acc.2 :=
  (hm.rowEnd w _).trans <|
    List.foldlRecOn (motive := fun a => g a.2 = g acc.2) (List.range w) _ rfl
      fun a ha x _ => (hm.rasterPixel s w h y a x).trans ha

/-- The whole loop leaves what the method leaves. -/
theorem Method.Keeps.raster (hm : m.Keeps g) (s : State) (fr : Frame) (wk : Work) :
    g (raster m s fr wk).2 = g wk :=
  List.foldlRecOn (motive := fun a => g a.2 = g wk) (List.range fr.height) _ (hm.start fr.width wk)
    fun a ha y _ => (hm.rasterRow s fr.width fr.height a y).trans ha

theorem Method.Keeps.dithered (hm : m.Keeps g) (f : Nat) (fr : Frame) (s : State) :
    g (dithered m f fr s).work = g s.work := by
  unfold Machine.dithered
  split
  · rfl
  · exact hm.raster s (setBlend fr .replace) s.work

end Keeps

/-- A REDUCE that answers leaves what its method leaves. -/
theorem reduceFrame_keeps_work {α : Type} {m : State → Method} {g : Work → α} {f : BitVec 16} {s t : State}
    (hm : (m s).Keeps g) (h : reduceFrame m f s = .next t) : g t.work = g s.work := by
  obtain ⟨-, -, ⟨-, rfl⟩ | ⟨fr, -, rfl⟩⟩ := reduceFrame_next_iff.mp h
  · rfl
  · exact hm.dithered ..

/-- A REDUCE that answers writes nothing but the frame store and the working state (R195). -/
theorem reduceFrame_next_setDithered {m : State → Method} {f : BitVec 16} {s t : State}
    (h : reduceFrame m f s = .next t) : ∃ frm wk, t = s.setDithered frm wk := by
  obtain ⟨-, -, ⟨-, rfl⟩ | ⟨fr, -, rfl⟩⟩ := reduceFrame_next_iff.mp h
  · exact ⟨t.frm, t.work, rfl⟩
  · exact dithered_fields ..

/-! ### What a command does -/

/-- What a command that answers has done: the finish step of a load, a new strength with its gamma table, a write of
one register of the colour primitives, or the loop of a REDUCE. -/
inductive Effect (s : State) : Instr → State → Prop where
  | load {i : Instr} {t : State} {pal : Memory 32} {map : Memory 8} {cc : Nat} (hi : loadsPalette i = true)
      (hl : Loaded s t pal map cc) : Effect s i t
  | setds (v : Word32) :
      Effect s (.setds v) (s.setStrength (strengthOf ⟨v⟩) (gammaTable (strengthOf ⟨v⟩) s.pal))
  | seta (c : Word32) : Effect s (.seta c) (s.setOpa c)
  | shrink (c : Word32) : Effect s (.shrink c) (s.setRes ((shrink c).setWidth 32))
  | stretch (k : Key) : Effect s (.stretch k) (s.setRes (stretch k))
  | diff (c : Word32) : Effect s (.diff c) (s.setResf (diff s.opa c))
  | diff3 (r g b : Byte) : Effect s (.diff3 r g b) (s.setResf (diff3 s.opa r g b))
  | reduce {i : Instr} {t : State} {dm : DitherMethod} {f : BitVec 16} (hi : ditherOf i = some (dm, f))
      (hr : reduceFrame (ditherMethod dm) f s = .next t) : Effect s i t

/-- Every command that answers has one of these effects. -/
theorem exec_effect {i : Instr} {s t : State} (h : exec i s = .next t) : Effect s i t := by
  cases hd : ditherOf i with
  | some p => exact .reduce hd (by rwa [← exec_dither hd])
  | none =>
    cases hl : loadsPalette i with
    | true =>
      obtain ⟨_, _, _, hloaded⟩ := exec_load hl h
      exact .load hl hloaded
    | false =>
      cases i with
      | setds v =>
        obtain ⟨-, rfl⟩ := execSetds_next h
        exact .setds v
      | seta c => cases h; exact .seta c
      | shrink c => cases h; exact .shrink c
      | stretch k => cases h; exact .stretch k
      | diff c => cases h; exact .diff c
      | diff3 r g b => cases h; exact .diff3 r g b
      | exact | preload | analyze => cases hl
      | reduce | reduceSolid | reduceFs | reduceSierra | reduceScatter | reduceJimenez | reduceBlue | reduceChaotic
      | reduceKnoll | reduceKnollr => cases hd

/-- A load that answers sets `VALID` (R23, R153). -/
theorem Loaded.valid {s t : State} {pal : Memory 32} {map : Memory 8} {cc : Nat} (h : Loaded s t pal map cc) :
    t.valid = true := by
  rw [h.state]
  rfl

end Sys2Proof.Machine
end

section
/-! SUPPORT. Which state each command may write (10_state.md R45). -/

namespace Sys2Proof.Machine

open Sys2Proof

/-- Settles O11: no effect of a command reaches what HOST alone writes. -/
theorem commandsLeaveHostInputs : Obligations.CommandsLeaveHostInputs := by
  intro i s t h
  cases exec_effect h with
  | load _ hl => rw [hl.state]; exact ⟨rfl, rfl, rfl, rfl⟩
  | reduce _ hr =>
    obtain ⟨_, _, rfl⟩ := reduceFrame_next_setDithered hr
    exact ⟨rfl, rfl, rfl, rfl⟩
  | setds | seta | shrink | stretch | diff | diff3 => exact ⟨rfl, rfl, rfl, rfl⟩

/-- Settles O19, by the effects of R45's table; for a REDUCE its method says which part of the working state stays. -/
theorem writersOfEachState : Obligations.WritersOfEachState := by
  intro i s t h
  cases exec_effect h with
  | load hi hl => simp [hl.state, finishLoad, hi]
  | setds v => simp
  | seta c => simp
  | shrink c => simp
  | stretch k => simp
  | diff c => simp
  | diff3 r g b => simp
  | @reduce _ _ dm f hi hr =>
    have hrows (hfs : dm ≠ .floydSteinberg) (hsierra : dm ≠ .sierraLite) (hscatter : dm ≠ .scatter) :
        t.work.cur = s.work.cur ∧ t.work.next = s.work.next :=
      Prod.mk.inj (reduceFrame_keeps_work (ditherMethod_keeps_rows s hfs hsierra hscatter) hr)
    have hchaos (hc : dm ≠ .chaoticNoise) : t.work.chaos = s.work.chaos :=
      reduceFrame_keeps_work (ditherMethod_keeps_chaos s hc) hr
    obtain ⟨_, _, rfl⟩ := reduceFrame_next_setDithered hr
    exact ⟨fun _ => ⟨rfl, rfl, rfl, rfl, rfl⟩, fun _ _ => rfl, fun _ => rfl, fun _ => rfl, fun _ _ => rfl,
      fun _ _ => rfl,
      fun hfs hsierra hscatter =>
        hrows (fun e => hfs f (e ▸ hi)) (fun e => hsierra f (e ▸ hi)) (fun e => hscatter f (e ▸ hi)),
      fun hc => hchaos (fun e => hc f (e ▸ hi)), fun hnone => absurd (hnone.symm.trans hi) (by simp), rfl, rfl⟩

end Sys2Proof.Machine
end

section
/-! SUPPORT. The invariants of a run: the palette store stays consistent (10_state.md R20, R21, R23, R35) and the stores
stay canonical (R41, R60), at every command, every write of HOST and so in every reachable state. -/

namespace Sys2Proof.Machine

open Sys2Proof

/-! ### What HOST's own actions leave -/

/-- Taking actions off the list leaves ENGINE. -/
theorem sameEngine_setHost (s : State) (l : List HostAction) : SameEngine s (s.setHost l) := by
  constructor <;> rfl

theorem SameEngine.trans {s t u : State} (hst : SameEngine s t) (htu : SameEngine t u) : SameEngine s u where
  cc := htu.cc.trans hst.cc
  pb := htu.pb.trans hst.pb
  ds := htu.ds.trans hst.ds
  valid := htu.valid.trans hst.valid
  opa := htu.opa.trans hst.opa
  res := htu.res.trans hst.res
  resf := htu.resf.trans hst.resf
  pal := htu.pal.trans hst.pal
  map := htu.map.trans hst.map
  gam := htu.gam.trans hst.gam
  work := htu.work.trans hst.work

/-- ENGINE's state holds the palette store. -/
theorem SameEngine.samePalette {s t : State} (h : SameEngine s t) : SamePalette s t :=
  ⟨h.cc, h.pb, h.ds, h.valid, h.pal, h.map, h.gam⟩

/-- An action that answers is a command word, or a write of HOST that leaves ENGINE (R72, R280). -/
theorem hostAct_next_cases {a : HostAction} {s t : State} (h : hostAct a s = .next t) :
    (∃ i, exec i s = .next t) ∨ SameEngine s t := by
  cases a with
  | issue w =>
    obtain ⟨i, -, hi⟩ := runWord_next h
    exact .inl ⟨i, hi⟩
  | putFrame f fr =>
    obtain ⟨-, ⟨-, rfl⟩ | ⟨g, -, -, -, rfl⟩⟩ := hostPutFrame_next h <;> exact .inr (by constructor <;> rfl)
  | setNfrm n =>
    obtain ⟨-, rfl⟩ := hostSetNfrm_next h
    exact .inr (by constructor <;> rfl)
  | putInput src =>
    obtain rfl := hostPutInput_next h
    exact .inr (by constructor <;> rfl)
  | putInMap m =>
    obtain ⟨rfl, -⟩ := hostPutInMap_next h
    exact .inr (by constructor <;> rfl)

/-- A step that answers runs a command, or leaves ENGINE. -/
theorem step_next_engine {s t : State} (h : step s = .next t) :
    (∃ i rest, exec i (s.setHost rest) = .next t) ∨ SameEngine s t := by
  obtain ⟨-, rfl⟩ | ⟨a, rest, -, ha⟩ := step_next_cases h
  · exact .inr (by constructor <;> rfl)
  · obtain ⟨i, hi⟩ | hsame := hostAct_next_cases ha
    · exact .inl ⟨i, rest, hi⟩
    · exact .inr ((sameEngine_setHost s rest).trans hsame)

/-! ### The palette store is consistent -/

/-- Consistency speaks of the palette store alone. -/
theorem State.PaletteOk.of_samePalette {s t : State} (hs : s.PaletteOk) (h : SamePalette s t) : t.PaletteOk where
  tail_zero := fun i hi => by
    rw [palAt, h.pal]
    exact hs.tail_zero i (h.cc ▸ hi)
  gamma_current := by rw [h.gam, h.ds, h.pal]; exact hs.gamma_current
  empty_count := fun hv => by rw [h.cc]; exact hs.empty_count (h.valid ▸ hv)
  loaded_count := fun hv => by rw [h.cc]; exact hs.loaded_count (h.valid ▸ hv)
  loaded_bias := fun hv => by rw [h.pb, h.cc]; exact hs.loaded_bias (h.valid ▸ hv)

/-- A count of at most 256 fits the nine bits of `CC` (R20). -/
theorem toNat_ofNat_count {cc : Nat} (h : cc ≤ 256) : (BitVec.ofNat 9 cc).toNat = cc := by
  rw [BitVec.toNat_ofNat]
  omega

/-- A load makes the palette store consistent, whatever it was before (R152, R153, R162). -/
theorem Loaded.paletteOk {s t : State} {pal : Memory 32} {map : Memory 8} {cc : Nat} (h : Loaded s t pal map cc) :
    t.PaletteOk := by
  have hcc := toNat_ofNat_count h.le_256
  rw [h.state]
  exact {
    tail_zero := fun i hi => h.tail i (hcc ▸ hi)
    gamma_current := rfl
    empty_count := fun hv => Bool.noConfusion hv
    loaded_count := fun _ => ⟨hcc.symm ▸ h.two_le, hcc.symm ▸ h.le_256⟩
    loaded_bias := fun _ => congrArg populationBias hcc.symm }

/-- SETDS recomputes `GAM` with the strength it stores (R164). -/
theorem paletteOk_setStrength {s : State} (hs : s.PaletteOk) (v : FP) :
    (s.setStrength v (gammaTable v s.pal)).PaletteOk :=
  ⟨hs.tail_zero, rfl, hs.empty_count, hs.loaded_count, hs.loaded_bias⟩

theorem exec_keeps_paletteOk {i : Instr} {s t : State} (hs : s.PaletteOk) (h : exec i s = .next t) : t.PaletteOk := by
  cases exec_effect h with
  | load _ hl => exact hl.paletteOk
  | setds v => exact paletteOk_setStrength hs _
  | reduce _ hr =>
    obtain ⟨_, _, rfl⟩ := reduceFrame_next_setDithered hr
    exact hs.of_samePalette (by constructor <;> rfl)
  | seta | shrink | stretch | diff | diff3 => exact hs.of_samePalette (by constructor <;> rfl)

/-- Settles O16: a step runs a command, which keeps the consistency by its effect, or leaves ENGINE. -/
theorem stepKeepsPaletteConsistent : Obligations.StepKeepsPaletteConsistent := by
  intro s t hs h
  obtain ⟨i, rest, hi⟩ | hsame := step_next_engine h
  · exact exec_keeps_paletteOk (hs.of_samePalette (sameEngine_setHost s rest).samePalette) hi
  · exact hs.of_samePalette hsame.samePalette

/-- At reset `DS` is 0.5 and the gamma of black is black, since `pow(0, 0.9) = 0` (R300). -/
theorem gammaTable_reset : gammaTable State.reset.ds [] = [] := by
  have hblack : gammaColour (gammaExponent State.reset.ds) 0#32 = 0#32 := by decide +kernel
  refine Memory.ext_read (wf_gammaTable _ _) (Memory.wf_nil palSize) fun i => ?_
  rw [read_gammaTable, Memory.read_nil, hblack, ite_self]

theorem reset_paletteOk : State.reset.PaletteOk where
  tail_zero := fun _ _ => rfl
  gamma_current := gammaTable_reset.symm
  empty_count := fun _ => rfl
  loaded_count := fun hv => Bool.noConfusion hv
  loaded_bias := fun hv => Bool.noConfusion hv

/-! ### The stores are canonical -/

/-- The frame slots are in canonical form and each frame is one HOST may place (R41, R310 (4)). -/
def FramesOk (frm : Store Frame) : Prop := Store.wf Config.maxFrames frm = true ∧ ∀ e ∈ frm, e.2.ok = true

theorem FramesOk.put {frm : Store Frame} {f : Nat} {fr : Frame} (h : FramesOk frm) (hf : f < Config.maxFrames)
    (hfr : fr.ok = true) : FramesOk (Store.put frm f fr) := by
  refine ⟨Store.wf_put h.1 hf, fun e he => ?_⟩
  obtain rfl | hold := Store.mem_put he
  · exact hfr
  · exact h.2 e hold

theorem FramesOk.drop {frm : Store Frame} (h : FramesOk frm) (f : Nat) : FramesOk (Store.drop frm f) :=
  ⟨Store.wf_drop h.1, fun e he => h.2 e (Store.mem_drop he)⟩

theorem FramesOk.find {frm : Store Frame} {f : Nat} {fr : Frame} (h : FramesOk frm)
    (hfr : Store.find frm f = some fr) : fr.ok = true :=
  h.2 _ (Store.mem_of_find hfr)

theorem Frame.ok_iff {fr : Frame} : fr.ok = true ↔ fr.inBounds = true ∧ fr.wf = true := by
  simp [Frame.ok]

/-- What `storesWf` says, store by store. -/
theorem State.storesWf_iff {s : State} :
    s.storesWf = true ↔ Memory.wf palSize s.pal = true ∧ Memory.wf mapSize s.map = true ∧
      Memory.wf palSize s.gam = true ∧ FramesOk s.frm ∧ s.nfrm ≤ Config.maxFrames ∧
      ∀ m, s.inMap = some m → Memory.wf mapSize m = true := by
  cases hm : s.inMap <;> simp [State.storesWf, FramesOk, hm, and_assoc]

/-- The loop of a REDUCE leaves a frame of the same size, in canonical form (R63, R64). -/
theorem ditherFrame_ok {m : Method} {s : State} {fr : Frame} {wk : Work} (h : fr.ok = true) :
    (ditherFrame m s fr wk).1.ok = true := by
  obtain ⟨hbounds, hwf⟩ := Frame.ok_iff.mp h
  obtain ⟨hwidth, hheight, -, hwf', -, -⟩ := ditherFrame_spec (m := m) (s := s) (wk := wk) hwf
  refine Frame.ok_iff.mpr ⟨?_, hwf'⟩
  rwa [Frame.inBounds, hwidth, hheight]

/-- A REDUCE that answers keeps the frame store. -/
theorem reduceFrame_keeps_frames {m : State → Method} {f : BitVec 16} {s t : State} (hs : FramesOk s.frm)
    (h : reduceFrame m f s = .next t) : FramesOk t.frm := by
  obtain ⟨-, hf, ⟨-, rfl⟩ | ⟨fr, hfr, rfl⟩⟩ := reduceFrame_next_iff.mp h
  · exact hs
  · unfold dithered
    split
    · exact hs
    · exact hs.put hf (ditherFrame_ok (hs.find hfr))

theorem exec_keeps_storesWf {i : Instr} {s t : State} (hs : s.storesWf = true) (h : exec i s = .next t) :
    t.storesWf = true := by
  obtain ⟨hpal, hmap, hgam, hfrm, hnfrm, hin⟩ := State.storesWf_iff.mp hs
  refine State.storesWf_iff.mpr ?_
  cases exec_effect h with
  | load _ hl =>
    rw [hl.state]
    exact ⟨hl.pal_wf, hl.map_wf, wf_gammaTable .., hfrm, hnfrm, hin⟩
  | setds v => exact ⟨hpal, hmap, wf_gammaTable .., hfrm, hnfrm, hin⟩
  | reduce _ hr =>
    have hfrm' := reduceFrame_keeps_frames hfrm hr
    obtain ⟨_, _, rfl⟩ := reduceFrame_next_setDithered hr
    exact ⟨hpal, hmap, hgam, hfrm', hnfrm, hin⟩
  | seta | shrink | stretch | diff | diff3 => exact ⟨hpal, hmap, hgam, hfrm, hnfrm, hin⟩

/-- HOST's writes are checked before they take effect (R310). -/
theorem hostAct_keeps_storesWf {a : HostAction} {s t : State} (hs : s.storesWf = true) (h : hostAct a s = .next t) :
    t.storesWf = true := by
  obtain ⟨hpal, hmap, hgam, hfrm, hnfrm, hin⟩ := State.storesWf_iff.mp hs
  cases a with
  | issue w =>
    obtain ⟨i, -, hi⟩ := runWord_next h
    exact exec_keeps_storesWf hs hi
  | putFrame f fr =>
    refine State.storesWf_iff.mpr ?_
    obtain ⟨hf, ⟨-, rfl⟩ | ⟨g, -, hbounds, hwf, rfl⟩⟩ := hostPutFrame_next h
    · exact ⟨hpal, hmap, hgam, hfrm.drop f, hnfrm, hin⟩
    · exact ⟨hpal, hmap, hgam, hfrm.put hf (Frame.ok_iff.mpr ⟨hbounds, hwf⟩), hnfrm, hin⟩
  | setNfrm n =>
    obtain ⟨hn, rfl⟩ := hostSetNfrm_next h
    exact State.storesWf_iff.mpr ⟨hpal, hmap, hgam, hfrm, hn, hin⟩
  | putInput src =>
    obtain rfl := hostPutInput_next h
    exact State.storesWf_iff.mpr ⟨hpal, hmap, hgam, hfrm, hnfrm, hin⟩
  | putInMap m =>
    obtain ⟨rfl, hm⟩ := hostPutInMap_next h
    exact State.storesWf_iff.mpr ⟨hpal, hmap, hgam, hfrm, hnfrm, hm⟩

/-- The list of pending actions is no store. -/
@[simp] theorem State.storesWf_setHost (s : State) (l : List HostAction) : (s.setHost l).storesWf = s.storesWf := rfl

theorem step_keeps_storesWf {s t : State} (hs : s.storesWf = true) (h : step s = .next t) : t.storesWf = true := by
  obtain ⟨-, rfl⟩ | ⟨a, rest, -, ha⟩ := step_next_cases h
  · exact hs
  · exact hostAct_keeps_storesWf (by rwa [State.storesWf_setHost]) ha

/-! ### Runs -/

/-- What holds at reset, whatever HOST has pending, and survives every step holds in every reachable state. -/
theorem Reachable.invariant {P : State → Prop} (hreset : ∀ l, P (State.reset.setHost l))
    (hstep : ∀ s t, P s → Machine.step s = .next t → P t) {s : State} (h : Reachable s) : P s := by
  induction h with
  | reset l => exact hreset l
  | step _ hs ih => exact hstep _ _ ih hs

/-- Settles O17: both invariants hold at reset and survive every step. -/
theorem reachableStatesAreGood : Obligations.ReachableStatesAreGood :=
  fun _ h => ⟨
    h.invariant (fun _ => reset_storesWf) fun _ _ => step_keeps_storesWf,
    h.invariant (fun l => reset_paletteOk.of_samePalette (sameEngine_setHost _ l).samePalette)
      stepKeepsPaletteConsistent⟩

/-! ### `VALID` (R23) -/

/-- A command that loads no palette leaves `VALID`. -/
theorem exec_valid_of_not_load {i : Instr} {s t : State} (hi : loadsPalette i = false) (h : exec i s = .next t) :
    t.valid = s.valid := by
  obtain ⟨hpalette, -⟩ := writersOfEachState i s t h
  obtain ⟨-, -, -, -, hvalid⟩ := hpalette hi
  exact hvalid

theorem exec_valid_of_load {i : Instr} {s t : State} (hi : loadsPalette i = true) (h : exec i s = .next t) :
    t.valid = true := by
  obtain ⟨_, _, _, hl⟩ := exec_load hi h
  exact hl.valid

theorem exec_keeps_valid {i : Instr} {s t : State} (hs : s.valid = true) (h : exec i s = .next t) :
    t.valid = true := by
  cases hi : loadsPalette i with
  | true => exact exec_valid_of_load hi h
  | false => rw [exec_valid_of_not_load hi h, hs]

theorem step_keeps_valid {s t : State} (hs : s.valid = true) (h : step s = .next t) : t.valid = true := by
  obtain ⟨i, rest, hi⟩ | hsame := step_next_engine h
  · exact exec_keeps_valid (s := s.setHost rest) hs hi
  · rw [hsame.valid, hs]

/-- With nothing loaded every REDUCE is refused first of all (R276 (2)). -/
theorem exec_refused_notLoaded {i : Instr} {s : State} (hi : (ditherOf i).isSome = true) (hs : s.valid = false) :
    exec i s = .refused .notLoaded := by
  obtain ⟨⟨dm, f⟩, hd⟩ := Option.isSome_iff_exists.mp hi
  rw [exec_dither hd, reduceFrame_eq, if_neg (by simp [hs])]

/-- Settles O18, clause by clause. -/
theorem validBit : Obligations.ValidBit :=
  ⟨rfl, fun _ _ _ => exec_valid_of_load, fun _ _ _ => exec_valid_of_not_load, fun _ _ => step_keeps_valid,
    fun _ _ => exec_refused_notLoaded⟩

end Sys2Proof.Machine
end

section
/-! SUPPORT. The memory model (20_memory.md): the stores stay canonical (R60), HOST's own writes stay off ENGINE (R72), a
saved palette store comes back whole (R76), and the index forms stay inside their tables (R69). -/

namespace Sys2Proof.Machine

open Sys2Proof

/-! ### Stores -/

/-- Settles O14: a step waits, writes what it has checked, or has one of the effects of a command. -/
theorem stepKeepsStores : Obligations.StepKeepsStores := fun _ _ => step_keeps_storesWf

/-! ### HOST's own writes -/

/-- A write of HOST's own that answers reaches the frame slots, `NFRM`, `IN` and `INMAP` alone (R72). -/
theorem hostAct_next_of_ne_issue {a : HostAction} {s t : State} (ha : ∀ w, a ≠ .issue w) (h : hostAct a s = .next t) :
    ∃ frm nfrm input inMap, t = { s with frm := frm, nfrm := nfrm, input := input, inMap := inMap } := by
  cases a with
  | issue w => exact absurd rfl (ha w)
  | putFrame f fr => obtain ⟨-, ⟨-, rfl⟩ | ⟨g, -, -, -, rfl⟩⟩ := hostPutFrame_next h <;> exact ⟨_, _, _, _, rfl⟩
  | setNfrm n => obtain ⟨-, rfl⟩ := hostSetNfrm_next h; exact ⟨_, _, _, _, rfl⟩
  | putInput src => obtain rfl := hostPutInput_next h; exact ⟨_, _, _, _, rfl⟩
  | putInMap m => obtain ⟨rfl, -⟩ := hostPutInMap_next h; exact ⟨_, _, _, _, rfl⟩

/-- Settles O12: the step takes the action off the list, and the action writes only what HOST owns. -/
theorem hostWritesLeaveEngine : Obligations.HostWritesLeaveEngine := by
  intro s t a rest hs ha h
  rw [step_cons hs] at h
  obtain ⟨frm, nfrm, input, inMap, rfl⟩ := hostAct_next_of_ne_issue ha h
  exact ⟨(sameEngine_setHost s rest).trans (by constructor <;> rfl), rfl⟩

/-! ### A saved palette store -/

/-- PRELOAD on a usable input (R156). -/
theorem exec_preload_of_usable {n : BitVec 16} {s : State} {src : List Word32} {m : Memory 8} (hsrc : s.input = some src)
    (hm : s.inMap = some m) (h2 : 2 ≤ n.toNat) (h256 : n.toNat ≤ 256) (hlen : n.toNat ≤ src.length) :
    exec (.preload n) s = .next (finishLoad (preloadPalette src n.toNat) (preloadMap m) n.toNat s) := by
  have hr : (n.toNat < 2 || n.toNat > 256 || src.length < n.toNat) = false := by simp; omega
  show execPreload n s = _
  simp only [execPreload, hsrc, hm, hr, Bool.false_eq_true, if_false]

@[simp] theorem length_palWords (s : State) : (palWords s).length = palSize := by simp [palWords]

/-- The saved words are the entries of `PAL` (R76). -/
theorem getD_palWords (s : State) {i : Nat} (hi : i < palSize) : (palWords s).getD i 0#32 = palAt s i := by
  simp [palWords, hi]

/-- Loading the saved words reproduces a canonical `PAL` whose tail is zero: entry by entry the two read the same. -/
theorem preloadPalette_palWords {s : State} {n : Nat} (hwf : Memory.wf palSize s.pal = true)
    (htail : ∀ i, n ≤ i → palAt s i = 0#32) : preloadPalette (palWords s) n = s.pal := by
  refine Memory.ext_read (wf_preloadPalette ..) hwf fun i => ?_
  rw [read_preloadPalette]
  split
  case isTrue hi =>
    split
    · exact getD_palWords s hi
    · exact (htail i (by omega)).symm
  case isFalse hi => exact (Memory.read_of_ge hwf (by omega)).symm

/-- Loading a canonical index reproduces it. -/
theorem preloadMap_of_wf {m : Memory 8} (hwf : Memory.wf mapSize m = true) : preloadMap m = m := by
  refine Memory.ext_read (wf_preloadMap m) hwf fun k => ?_
  rw [read_preloadMap]
  split
  · rfl
  · exact (Memory.read_of_ge hwf (by omega)).symm

/-- Settles O33: `PAL` and `MAP` are reproduced as data, and the count, the bias and `GAM` follow from them by the
consistency of the saved store. -/
theorem preloadRoundTrip : Obligations.PreloadRoundTrip := by
  intro s u hv hs hok hds hsrc hm
  obtain ⟨hpal, hmap, -⟩ := State.storesWf_iff.mp hs
  obtain ⟨h2, h256⟩ := hok.loaded_count hv
  have hn : (s.cc.setWidth 16).toNat = s.cc.toNat := BitVec.toNat_setWidth_of_le (by decide)
  refine ⟨_, exec_preload_of_usable hsrc hm (by omega) (by omega) (by rw [length_palWords, palSize]; omega), ?_⟩
  rw [hn, preloadPalette_palWords hpal hok.tail_zero, preloadMap_of_wf hmap]
  exact {
    cc := (BitVec.ofNat_toNat 9 s.cc).trans (BitVec.setWidth_eq _)
    pb := (hok.loaded_bias hv).symm
    ds := hds
    valid := hv.symm
    pal := rfl
    map := rfl
    gam := by rw [hok.gamma_current, ← hds]; rfl }

/-! ### Index forms -/

/-- The low `k` bits of `a` below those of `b`, as every index form puts them together, are `a mod 2^k` plus `b`
times `2^k`. -/
theorem and_mask_or_shiftLeft (a b k : Nat) : (a &&& (2 ^ k - 1)) ||| (b <<< k) = a % 2 ^ k + b * 2 ^ k := by
  rw [Nat.and_two_pow_sub_one_eq_mod, Nat.or_comm,
    ← Nat.shiftLeft_add_eq_or_of_lt (Nat.mod_lt a (Nat.two_pow_pos k)), Nat.shiftLeft_eq, Nat.add_comm]

theorem bnIndex_eq (x y : Nat) : bnIndex x y = x % 64 + y % 64 * 64 := by
  rw [← Nat.and_two_pow_sub_one_eq_mod y 6]
  exact and_mask_or_shiftLeft x _ 6

/-- `bn2` is `bn` at the scaled position (R69). -/
theorem bn2Index_eq (x y : Nat) : bn2Index x y = 19 * x % 64 + 23 * y % 64 * 64 := bnIndex_eq (19 * x) (23 * y)

theorem tm16Index_eq (x y : Nat) : tm16Index x y = x % 4 + y % 4 * 4 := by
  rw [← Nat.and_two_pow_sub_one_eq_mod y 2]
  exact and_mask_or_shiftLeft x _ 2

/-- `kr` is an exclusive or of two numbers of three bits, whatever the binary64 sum is (R69, R256). -/
theorem krIndex_lt (x y : Nat) : krIndex x y < 8 := by
  have hfloor : (BitVec.ofInt 2 (krFloor x y)).toNat < 2 ^ 3 := by omega
  have hposition : (x &&& 3) ||| ((y &&& 1) <<< 2) < 2 ^ 3 := by
    have hsum : (x &&& 3) ||| ((y &&& 1) <<< 2) = x % 4 + (y &&& 1) * 4 := and_mask_or_shiftLeft x _ 2
    rw [hsum, Nat.and_one_is_mod]
    omega
  exact Nat.xor_lt_two_pow hfloor hposition

/-- Settles O9: the forms with remainders are in range, and `kr` has three bits. -/
theorem indexFormsInRange : Obligations.IndexFormsInRange := by
  refine ⟨fun x y => ⟨?_, ?_, ?_, krIndex_lt x y⟩, fun x y => ⟨bnIndex_eq x y, bn2Index_eq x y, tm16Index_eq x y⟩⟩
  · rw [bnIndex_eq]; omega
  · rw [bn2Index_eq]; omega
  · rw [tm16Index_eq]; omega

end Sys2Proof.Machine
end

section
/-! SUPPORT. The channels of a colour (30_encoding.md R90), by which its formats are reasoned about: a colour is its
four channels, and each of its operations acts on them. -/

namespace Sys2Proof.Machine

open Sys2Proof

/-- The channels of a colour put together from four bytes. -/
theorem channels_rgba (r g b a : Byte) :
    redOf (rgba r g b a) = r ∧ greenOf (rgba r g b a) = g ∧ blueOf (rgba r g b a) = b ∧ alphaOf (rgba r g b a) = a := by
  have hr := r.isLt
  have hg := g.isLt
  have hb := b.isLt
  have ha := a.isLt
  have hrgba : (rgba r g b a).toNat = ((r.toNat * 2 ^ 8 + g.toNat) * 2 ^ 8 + b.toNat) * 2 ^ 8 + a.toNat := by
    show BitVec.toNat (w := 8 + 8 + 8 + 8) (r ++ g ++ b ++ a) = _
    simp only [toNat_append_field]
  refine ⟨?_, ?_, ?_, ?_⟩ <;> apply BitVec.eq_of_toNat_eq <;>
    simp only [redOf, greenOf, blueOf, alphaOf, BitVec.extractLsb'_toNat, Nat.shiftRight_eq_div_pow, hrgba] <;> omega

@[simp] theorem redOf_rgba (r g b a : Byte) : redOf (rgba r g b a) = r := (channels_rgba r g b a).1

@[simp] theorem greenOf_rgba (r g b a : Byte) : greenOf (rgba r g b a) = g := (channels_rgba r g b a).2.1

@[simp] theorem blueOf_rgba (r g b a : Byte) : blueOf (rgba r g b a) = b := (channels_rgba r g b a).2.2.1

@[simp] theorem alphaOf_rgba (r g b a : Byte) : alphaOf (rgba r g b a) = a := (channels_rgba r g b a).2.2.2

/-- A colour is its four channels. -/
theorem rgba_channels (c : Word32) : rgba (redOf c) (greenOf c) (blueOf c) (alphaOf c) = c := by
  have hrg : redOf c ++ greenOf c = c.extractLsb' 16 16 := BitVec.extractLsb'_append_extractLsb'_eq_extractLsb' rfl
  have hba : c.extractLsb' 8 24 ++ alphaOf c = c.extractLsb' 0 32 :=
    BitVec.extractLsb'_append_extractLsb'_eq_extractLsb' rfl
  have hrgb : c.extractLsb' 16 16 ++ blueOf c = c.extractLsb' 8 24 :=
    BitVec.extractLsb'_append_extractLsb'_eq_extractLsb' rfl
  rw [rgba, hrg, hrgb, hba, BitVec.extractLsb'_eq_self]

/-- Two colours are equal where their channels are. -/
theorem colour_eq_iff {c d : Word32} :
    c = d ↔ redOf c = redOf d ∧ greenOf c = greenOf d ∧ blueOf c = blueOf d ∧ alphaOf c = alphaOf d := by
  refine ⟨fun h => h ▸ ⟨rfl, rfl, rfl, rfl⟩, fun ⟨hr, hg, hb, ha⟩ => ?_⟩
  rw [← rgba_channels c, ← rgba_channels d, hr, hg, hb, ha]

end Sys2Proof.Machine
end

section
/-! SUPPORT. The decoder and the encoder (30_encoding.md R98 to R103): which words decode and to what, said once, and
the opcode table row by row. -/

namespace Sys2Proof

/-! ### What the decoder answers -/

/-- The decoder answers a well-formed command on the fields of its word. -/
theorem decodeFields_operands {i : Instr} (hi : i.wellFormed = true) :
    decodeFields (opcodeOf i) (operandA i) (operandImm i) = .ok i := by
  cases i with
  | analyze l t => exact whenZero_eq_ok.mpr ⟨hi, rfl⟩
  | stretch k =>
    have hunused : (0#17 ++ k).extractLsb' 15 17 = 0#17 := BitVec.extractLsb'_append_eq_left
    have hkey : (0#17 ++ k).extractLsb' 0 15 = k := BitVec.extractLsb'_append_eq_right
    exact whenZero_eq_ok.mpr ⟨beq_iff_eq.mpr hunused, congrArg Instr.stretch hkey⟩
  | diff3 r g b =>
    obtain ⟨hunused, hr, hg, hb⟩ := Machine.channels_rgba 0#8 r g b
    exact whenZero_eq_ok.mpr ⟨beq_iff_eq.mpr hunused, (Instr.diff3.injEq ..).mpr ⟨hr, hg, hb⟩⟩
  | _ => simp [decodeFields, opcodeOf, operandA, operandImm]

/-- What the decoder answers is well formed and spells the fields it was read from. -/
theorem operands_of_decodeFields {opc : BitVec 8} {a : BitVec 16} {imm : Word32} {i : Instr}
    (h : decodeFields opc a imm = .ok i) :
    i.wellFormed = true ∧ opc = opcodeOf i ∧ a = operandA i ∧ imm = operandImm i := by
  unfold decodeFields at h
  split at h
  -- the operand is `IMM`: SETDS, SETA, SHRINK, DIFF
  case h_1 hopc | h_5 hopc | h_6 hopc | h_8 hopc =>
    obtain ⟨ha, rfl⟩ := whenZero_eq_ok.mp h
    exact ⟨rfl, BitVec.eq_of_toNat_eq hopc, eq_of_beq ha, rfl⟩
  -- the operand is `A`: EXACT, PRELOAD, and every REDUCE with its method in the opcode
  case h_2 hopc | h_3 hopc | h_11 hopc | h_12 hopc | h_13 hopc | h_14 hopc | h_15 hopc | h_16 hopc | h_17 hopc
      | h_18 hopc | h_19 hopc =>
    obtain ⟨himm, rfl⟩ := whenZero_eq_ok.mp h
    exact ⟨rfl, BitVec.eq_of_toNat_eq hopc, rfl, eq_of_beq himm⟩
  -- ANALYZE
  case h_4 hopc =>
    obtain ⟨ht, rfl⟩ := whenZero_eq_ok.mp h
    exact ⟨ht, BitVec.eq_of_toNat_eq hopc, rfl, rfl⟩
  -- STRETCH: `IMM` is the zero bits above the key, and the key
  case h_7 hopc =>
    obtain ⟨hzero, rfl⟩ := whenZero_eq_ok.mp h
    obtain ⟨ha, hunused⟩ := Bool.and_eq_true_iff.mp hzero
    refine ⟨rfl, BitVec.eq_of_toNat_eq hopc, eq_of_beq ha, ?_⟩
    rw [operandImm, ← eq_of_beq hunused]
    exact (BitVec.extractLsb'_append_extractLsb' (w := 17) (len := 15) (x := imm)).symm
  -- DIFF3: `IMM` is a zero byte and the three channels
  case h_9 hopc =>
    obtain ⟨hzero, rfl⟩ := whenZero_eq_ok.mp h
    obtain ⟨ha, hunused⟩ := Bool.and_eq_true_iff.mp hzero
    refine ⟨rfl, BitVec.eq_of_toNat_eq hopc, eq_of_beq ha, ?_⟩
    rw [operandImm, ← eq_of_beq hunused]
    exact (Machine.rgba_channels imm).symm
  -- REDUCE
  case h_10 hopc =>
    cases h
    exact ⟨rfl, BitVec.eq_of_toNat_eq hopc, rfl, rfl⟩
  -- no opcode
  case h_20 => cases h

/-- A word decodes when its `Z` field is zero and its other fields do. -/
theorem decode_eq_ok_iff_fields {w : Word64} {i : Instr} :
    decode w = .ok i ↔ zField w = 0#8 ∧ decodeFields (opcField w) (aField w) (immField w) = .ok i := by
  unfold decode
  split <;> simp_all

/-- The words that decode are exactly the words of the well-formed commands (R103). -/
theorem decode_eq_ok_iff {w : Word64} {i : Instr} : decode w = .ok i ↔ i.wellFormed = true ∧ encode i = w := by
  rw [decode_eq_ok_iff_fields]
  constructor
  · rintro ⟨hz, h⟩
    obtain ⟨hi, hopc, ha, himm⟩ := operands_of_decodeFields h
    exact ⟨hi, by rw [encode, ← hopc, ← ha, ← himm, ← hz, word_eq_fields]⟩
  · rintro ⟨hi, rfl⟩
    simpa using decodeFields_operands hi

/-- Settles O1: the word of a well-formed command is one of the words that decode. -/
theorem decodeInvertsEncode : Obligations.DecodeInvertsEncode := fun _ hi => decode_eq_ok_iff.mpr ⟨hi, rfl⟩

/-- Settles O2: every word that decodes is such a word. -/
theorem encodeInvertsDecode : Obligations.EncodeInvertsDecode := fun _ _ => decode_eq_ok_iff.mp

/-- Settles O4: the word of each command is computed, and decoding follows. -/
theorem workedEncodings : Obligations.WorkedEncodings := by
  refine ⟨fun wi hwi => ?_, .nonzeroZ, rfl⟩
  have hword : wi.2.wellFormed = true ∧ encode wi.2 = wi.1 := by
    revert wi
    decide
  exact ⟨decode_eq_ok_iff.mpr hword, hword.2⟩

end Sys2Proof
end

section
/-! SUPPORT. The opcode table (30_encoding.md R103): each row is given by its opcode and by how many low bits its
command uses of `A` and of `IMM`; the bits above them are the must-be-zero bits of its mask. -/

namespace Sys2Proof

/-! ### Rows by the widths of their operands -/

/-- The opcode of each row, and how many low bits of `A` and of `IMM` its command uses (R99). -/
def operandBits : List (BitVec 8 × Nat × Nat) :=
  [(0x01#8, 0, 32), (0x02#8, 16, 0), (0x03#8, 16, 0), (0x04#8, 16, 31), (0x08#8, 0, 32), (0x09#8, 0, 32),
   (0x0A#8, 0, 15), (0x0B#8, 0, 32), (0x0C#8, 0, 24), (0x10#8, 16, 32), (0x11#8, 16, 0), (0x12#8, 16, 0),
   (0x13#8, 16, 0), (0x14#8, 16, 0), (0x15#8, 16, 0), (0x16#8, 16, 0), (0x17#8, 16, 0), (0x18#8, 16, 0),
   (0x19#8, 16, 0)]

/-- The row of an opcode whose command uses the low `aBits` bits of `A` and the low `immBits` bits of `IMM`. -/
def rowOf (opc : BitVec 8) (aBits immBits : Nat) : TableRow where
  opcode := opc
  pattern := opc ++ 0#8 ++ 0#16 ++ 0#32
  mask := 0xFF#8 ++ 0xFF#8 ++ BitVec.allOnes 16 <<< aBits ++ BitVec.allOnes 32 <<< immBits

theorem commandTable_eq_map_rowOf : commandTable = operandBits.map fun r => rowOf r.1 r.2.1 r.2.2 := by decide

/-! ### The words that match a row -/

/-- A mask of the bits from `n` up tests whether the value is below `2 ^ n`. -/
theorem and_allOnes_shiftLeft_eq_zero_iff {w : Nat} (x : BitVec w) (n : Nat) :
    x &&& BitVec.allOnes w <<< n = 0#w ↔ x.toNat < 2 ^ n := by
  have hle : x.toNat / 2 ^ n * 2 ^ n < 2 ^ w := (Nat.div_mul_le_self ..).trans_lt x.isLt
  rw [← BitVec.shiftLeft_ushiftRight, ← BitVec.toNat_inj, BitVec.toNat_shiftLeft, BitVec.toNat_ushiftRight,
    Nat.shiftRight_eq_div_pow, Nat.shiftLeft_eq, Nat.mod_eq_of_lt hle, BitVec.toNat_ofNat, Nat.zero_mod,
    Nat.mul_eq_zero, Nat.div_eq_zero_iff]
  simp

/-- Two words put together from four fields are equal where the fields are. -/
theorem append_fields_inj {o o' z z' : BitVec 8} {a a' : BitVec 16} {m m' : BitVec 32} :
    o ++ z ++ a ++ m = o' ++ z' ++ a' ++ m' ↔ o = o' ∧ z = z' ∧ a = a' ∧ m = m' := by
  refine ⟨fun h => ?_, fun ⟨ho, hz, ha, hm⟩ => by rw [ho, hz, ha, hm]⟩
  obtain ⟨ho, hz, ha, hm⟩ := fields_of_append o z a m
  obtain ⟨ho', hz', ha', hm'⟩ := fields_of_append o' z' a' m'
  rw [h] at ho hz ha hm
  exact ⟨ho.symm.trans ho', hz.symm.trans hz', ha.symm.trans ha', hm.symm.trans hm'⟩

/-- A word matches a row when it has the row's opcode, a zero `Z` field, and operands no wider than the row's. -/
theorem matches_rowOf_iff (w : Word64) (opc : BitVec 8) (aBits immBits : Nat) :
    w &&& (rowOf opc aBits immBits).mask = (rowOf opc aBits immBits).pattern ↔
      opcField w = opc ∧ zField w = 0#8 ∧ (aField w).toNat < 2 ^ aBits ∧ (immField w).toNat < 2 ^ immBits := by
  have hmask : w &&& (rowOf opc aBits immBits).mask = (opcField w &&& 0xFF#8) ++ (zField w &&& 0xFF#8) ++
      (aField w &&& BitVec.allOnes 16 <<< aBits) ++ (immField w &&& BitVec.allOnes 32 <<< immBits) := by
    rw [← BitVec.and_append, ← BitVec.and_append, ← BitVec.and_append, word_eq_fields]
    rfl
  have hbyte : ∀ v : BitVec 8, v &&& 0xFF#8 = v := fun _ => BitVec.and_allOnes
  rw [hmask, rowOf, append_fields_inj, hbyte, hbyte, and_allOnes_shiftLeft_eq_zero_iff,
    and_allOnes_shiftLeft_eq_zero_iff]

/-! ### The words that decode to a row's command -/

/-- The bits of `IMM` from `n` up are zero where its value is below `2 ^ n`. -/
theorem extractLsb'_high_eq_zero_iff {n len : Nat} (hlen : n + len = 32) (imm : Word32) :
    imm.extractLsb' n len = 0#len ↔ imm.toNat < 2 ^ n := by
  have hlt : imm.toNat / 2 ^ n < 2 ^ len := by
    rw [Nat.div_lt_iff_lt_mul (Nat.two_pow_pos n), ← Nat.pow_add, Nat.add_comm, hlen]
    exact imm.isLt
  rw [← BitVec.toNat_inj, BitVec.extractLsb'_toNat, Nat.shiftRight_eq_div_pow, Nat.mod_eq_of_lt hlt,
    BitVec.toNat_ofNat, Nat.zero_mod, Nat.div_eq_zero_iff]
  simp

/-- The decoder accepts the fields of a row exactly when its operands are no wider than the row's. -/
theorem exists_decodeFields_iff {r : BitVec 8 × Nat × Nat} (hr : r ∈ operandBits) (a : BitVec 16) (imm : Word32) :
    (∃ i, decodeFields r.1 a imm = .ok i) ↔ a.toNat < 2 ^ r.2.1 ∧ imm.toNat < 2 ^ r.2.2 := by
  have ha : a = 0#16 ↔ a.toNat = 0 := BitVec.toNat_inj.symm
  have himm : imm = 0#32 ↔ imm.toNat = 0 := BitVec.toNat_inj.symm
  have hkey : imm.extractLsb' 15 17 = 0#17 ↔ imm.toNat < 2 ^ 15 := extractLsb'_high_eq_zero_iff rfl imm
  have hrgb : imm.extractLsb' 24 8 = 0#8 ↔ imm.toNat < 2 ^ 24 := extractLsb'_high_eq_zero_iff rfl imm
  have ha16 := a.isLt
  have himm32 := imm.isLt
  fin_cases hr <;> simp [decodeFields, ha, himm, hkey, hrgb] <;> omega

/-- A row selects the words that decode to a command with its opcode. -/
theorem matches_row_iff_decodes {row : TableRow} (hrow : row ∈ commandTable) (w : Word64) :
    w &&& row.mask = row.pattern ↔ ∃ i, decode w = .ok i ∧ opcodeOf i = row.opcode := by
  rw [commandTable_eq_map_rowOf, List.mem_map] at hrow
  obtain ⟨r, hr, rfl⟩ := hrow
  rw [matches_rowOf_iff, ← exists_decodeFields_iff hr]
  constructor
  · rintro ⟨hopc, hz, i, hi⟩
    rw [← hopc] at hi
    have hdecode : decode w = .ok i := decode_eq_ok_iff_fields.mpr ⟨hz, hi⟩
    exact ⟨i, hdecode, (operands_of_decodeFields hi).2.1.symm.trans hopc⟩
  · rintro ⟨i, hdecode, hopc⟩
    obtain ⟨hz, hi⟩ := decode_eq_ok_iff_fields.mp hdecode
    have hopcode : opcField w = r.1 := (operands_of_decodeFields hi).2.1.trans hopc
    exact ⟨hopcode, hz, i, hopcode ▸ hi⟩

/-! ### Rows and opcodes -/

/-- Every command has a row. -/
theorem opcodeOf_mem_commandTable (i : Instr) : opcodeOf i ∈ commandTable.map TableRow.opcode := by
  cases i <;> simp [opcodeOf, commandTable]

/-- No opcode has two rows. -/
theorem row_eq_of_opcode_eq {a b : TableRow} (ha : a ∈ commandTable) (hb : b ∈ commandTable)
    (h : a.opcode = b.opcode) : a = b :=
  List.inj_on_of_nodup_map (f := TableRow.opcode) (by decide) ha hb h

/-- Settles O3: rows that match one word name the opcode of the one command it decodes to. -/
theorem decoderFollowsTable : Obligations.DecoderFollowsTable := by
  refine ⟨fun w row hrow => matches_row_iff_decodes hrow w, fun w i _ => ?hasRow, fun w a ha b hb hwa hwb => ?disjoint⟩
  case hasRow =>
    obtain ⟨row, hrow, hopc⟩ := List.mem_map.mp (opcodeOf_mem_commandTable i)
    exact ⟨row, hrow, hopc.symm⟩
  case disjoint =>
    obtain ⟨i, hi, hia⟩ := (matches_row_iff_decodes ha w).mp hwa
    obtain ⟨j, hj, hjb⟩ := (matches_row_iff_decodes hb w).mp hwb
    obtain rfl : i = j := Except.ok.inj (hi.symm.trans hj)
    exact row_eq_of_opcode_eq ha hb (hia.symm.trans hjb)

end Sys2Proof
end

section
/-! SUPPORT. The colour formats (30_encoding.md R93 to R96), channel by channel: a key holds the top five bits of each
channel, `up5` fills a channel from them, and both snaps replicate the top bits of each channel. -/

namespace Sys2Proof.Machine

open Sys2Proof

/-! ### One channel -/

/-- A channel with its top three bits or-ed into its low three: what both snaps do to a channel. -/
def replicateTop (v : Byte) : Byte := v ||| v >>> 5

theorem top5_up5 : ∀ v : BitVec 5, top5 (up5 v) = v := by decide

theorem toNat_up5 : ∀ v : BitVec 5, (up5 v).toNat = v.toNat * 8 + v.toNat / 4 := by decide

theorem up5_top5 : ∀ v : Byte, up5 (top5 v) = replicateTop (v &&& 0xF8#8) := by decide

theorem up5_top5_and_high : ∀ v : Byte, up5 (top5 v) &&& 0xF8#8 = v &&& 0xF8#8 := by decide

theorem top5_replicateTop : ∀ v : Byte, top5 (replicateTop v) = top5 v := by decide

theorem replicateTop_idem : ∀ v : Byte, replicateTop (replicateTop v) = replicateTop v := by decide

/-- Replicating the top bits of an unmasked channel fills it as `up5` does just where the low bits it keeps are
a subset of the top ones. -/
theorem replicateTop_eq_up5_iff : ∀ v : Byte,
    replicateTop v = up5 (top5 v) ↔ v >>> 5 &&& v = v &&& 7#8 := by decide

/-! ### The channels of the bit operations -/

theorem channels_and (c d : Word32) :
    redOf (c &&& d) = redOf c &&& redOf d ∧ greenOf (c &&& d) = greenOf c &&& greenOf d ∧
      blueOf (c &&& d) = blueOf c &&& blueOf d ∧ alphaOf (c &&& d) = alphaOf c &&& alphaOf d :=
  ⟨BitVec.extractLsb'_and, BitVec.extractLsb'_and, BitVec.extractLsb'_and, BitVec.extractLsb'_and⟩

theorem channels_or (c d : Word32) :
    redOf (c ||| d) = redOf c ||| redOf d ∧ greenOf (c ||| d) = greenOf c ||| greenOf d ∧
      blueOf (c ||| d) = blueOf c ||| blueOf d ∧ alphaOf (c ||| d) = alphaOf c ||| alphaOf d :=
  ⟨BitVec.extractLsb'_or, BitVec.extractLsb'_or, BitVec.extractLsb'_or, BitVec.extractLsb'_or⟩

/-- Shifted right by five, the low three bits of a byte of a word are the top three bits of the same byte. -/
theorem extractLsb'_ushiftRight_five_and_seven (c : Word32) (lo : Nat) :
    (c >>> 5).extractLsb' lo 8 &&& 7#8 = c.extractLsb' lo 8 >>> 5 := by
  have hseven : ∀ i, i < 8 → (7#8).getLsbD i = decide (5 + i < 8) := by decide
  ext i hi
  rw [BitVec.getElem_and, BitVec.getElem_ushiftRight, BitVec.getElem_extractLsb', BitVec.getLsbD_ushiftRight,
    BitVec.getLsbD_extractLsb', ← BitVec.getLsbD_eq_getElem, hseven i hi, Bool.and_comm, Nat.add_left_comm]

/-- The top three bits of R, G and B, moved to the low three of the same channel: the term both snaps or in. -/
theorem ushiftRight_five_and_mask (c : Word32) :
    c >>> 5 &&& 0x07070700#32 = rgba (redOf c >>> 5) (greenOf c >>> 5) (blueOf c >>> 5) 0#8 := by
  obtain ⟨hr, hg, hb, ha⟩ := channels_and (c >>> 5) 0x07070700#32
  rw [colour_eq_iff, hr, hg, hb, ha, redOf_rgba, greenOf_rgba, blueOf_rgba, alphaOf_rgba]
  exact ⟨extractLsb'_ushiftRight_five_and_seven c 24, extractLsb'_ushiftRight_five_and_seven c 16,
    extractLsb'_ushiftRight_five_and_seven c 8, BitVec.and_zero⟩

/-! ### Keys -/

/-- The fields of a key put together from three channels are their top five bits (R92). -/
theorem fields_key3 (r g b : Byte) :
    keyRed (key3 r g b) = top5 r ∧ keyGreen (key3 r g b) = top5 g ∧ keyBlue (key3 r g b) = top5 b := by
  refine ⟨?red, ?green, BitVec.extractLsb'_append_eq_right⟩
  case red => exact (BitVec.extractLsb'_append_eq_of_le (by decide)).trans BitVec.extractLsb'_append_eq_left
  case green => exact (BitVec.extractLsb'_append_eq_of_le (by decide)).trans BitVec.extractLsb'_append_eq_right

/-- A key is its three fields. -/
theorem key_eq_fields (k : Key) : keyRed k ++ keyGreen k ++ keyBlue k = k := by
  have hrg : keyRed k ++ keyGreen k = k.extractLsb' 5 10 := BitVec.extractLsb'_append_extractLsb'_eq_extractLsb' rfl
  rw [hrg]
  exact BitVec.extractLsb'_append_extractLsb' (w := 10) (len := 5) (x := k)

/-- `shrink` undoes `stretch` (R93, R94). -/
theorem shrink_stretch (k : Key) : shrink (stretch k) = k := by
  rw [shrink, stretch, redOf_rgba, greenOf_rgba, blueOf_rgba, key3, top5_up5, top5_up5, top5_up5, key_eq_fields]

/-- The round trip through the key, channel by channel. -/
theorem stretch_shrink (c : Word32) :
    stretch (shrink c) = rgba (up5 (top5 (redOf c))) (up5 (top5 (greenOf c))) (up5 (top5 (blueOf c))) 0xFF#8 := by
  obtain ⟨hr, hg, hb⟩ := fields_key3 (redOf c) (greenOf c) (blueOf c)
  rw [stretch, shrink, hr, hg, hb]

/-- The top five bits of a byte of a colour, as one field of the colour. -/
theorem top5_extractLsb' (c : Word32) (lo : Nat) : top5 (c.extractLsb' lo 8) = c.extractLsb' (lo + 3) 5 := by
  ext i hi
  have hi8 : 3 + i < 8 := by omega
  rw [top5, BitVec.getElem_extractLsb', BitVec.getElem_extractLsb', BitVec.getLsbD_extractLsb', decide_eq_true hi8,
    Bool.true_and, Nat.add_assoc]

/-- The top five bits of a byte of a colour, moved down by `s` to the place `pos`, are a shift and a mask. -/
theorem setWidth_top5_shiftLeft (c : Word32) {lo s pos : Nat} (hlo : lo + 3 = pos + s) :
    (top5 (c.extractLsb' lo 8)).setWidth 32 <<< pos = c >>> s &&& (31#32 <<< pos) := by
  have hmask : 31#32 = (BitVec.allOnes 5).setWidth 32 := rfl
  rw [top5_extractLsb', hlo, hmask]
  ext i hi
  simp only [BitVec.getElem_and, BitVec.getElem_shiftLeft, BitVec.getElem_ushiftRight, BitVec.getElem_setWidth,
    BitVec.getLsbD_extractLsb', BitVec.getLsbD_allOnes]
  by_cases hpos : i < pos
  · simp [hpos]
  · have hbit : pos + s + (i - pos) = s + i := by omega
    simp [hpos, hbit, Bool.and_comm]

/-- Settles O5: each field of the key is the top of a channel, moved down. -/
theorem shrinkFormula : Obligations.ShrinkFormula := by
  refine fun c => ⟨rfl, ?_⟩
  have hred : (top5 (redOf c)).setWidth 32 <<< (5 + 5) = c >>> 17 &&& 0x7C00#32 := setWidth_top5_shiftLeft c rfl
  have hgreen : (top5 (greenOf c)).setWidth 32 <<< 5 = c >>> 14 &&& 0x03E0#32 := setWidth_top5_shiftLeft c rfl
  have hblue : (top5 (blueOf c)).setWidth 32 = c >>> 11 &&& 0x001F#32 :=
    (BitVec.shiftLeft_zero _).symm.trans (setWidth_top5_shiftLeft c rfl)
  rw [shrink, key3, BitVec.setWidth_append_append_eq_shiftLeft_setWidth_or, hred, hgreen, hblue]

/-- Settles O6: `up5` by its 32 values, the round trip channel by channel. -/
theorem stretchFormula : Obligations.StretchFormula := by
  refine ⟨fun _ => rfl, toNat_up5, by decide, fun c => ⟨?high, ?alpha⟩⟩
  case high =>
    obtain ⟨hr, hg, hb, ha⟩ := channels_and (stretch (shrink c)) 0xF8F8F800#32
    obtain ⟨hr', hg', hb', ha'⟩ := channels_and c 0xF8F8F800#32
    rw [colour_eq_iff, hr, hg, hb, ha, hr', hg', hb', ha', stretch_shrink, redOf_rgba, greenOf_rgba, blueOf_rgba]
    exact ⟨up5_top5_and_high _, up5_top5_and_high _, up5_top5_and_high _,
      BitVec.and_zero.trans BitVec.and_zero.symm⟩
  case alpha =>
    obtain ⟨hr, hg, hb, ha⟩ := channels_and (stretch (shrink c)) 0xFF#32
    rw [colour_eq_iff, hr, hg, hb, ha, stretch_shrink, alphaOf_rgba]
    exact ⟨BitVec.and_zero, BitVec.and_zero, BitVec.and_zero, rfl⟩

/-! ### Snaps -/

/-- The analysis snap replicates the top bits of each channel and sets the alpha (R96). -/
theorem asnap_eq (c : Word32) :
    asnap c = rgba (replicateTop (redOf c)) (replicateTop (greenOf c)) (replicateTop (blueOf c)) 0xFF#8 := by
  obtain ⟨hr, hg, hb, ha⟩ := channels_or (c ||| (c >>> 5 &&& 0x07070700#32)) 0xFF#32
  obtain ⟨hr', hg', hb', ha'⟩ := channels_or c (c >>> 5 &&& 0x07070700#32)
  rw [colour_eq_iff, asnap, hr, hg, hb, ha, hr', hg', hb', ha', ushiftRight_five_and_mask]
  simp only [redOf_rgba, greenOf_rgba, blueOf_rgba, alphaOf_rgba]
  exact ⟨BitVec.or_zero, BitVec.or_zero, BitVec.or_zero, BitVec.or_allOnes⟩

/-- The snap of the dithers is the analysis snap of the masked colour, and the round trip through the key (R95). -/
theorem snap_eq_stretch_shrink (c : Word32) : snap c = stretch (shrink c) := by
  obtain ⟨hr, hg, hb, -⟩ := channels_and c 0xF8F8F880#32
  calc snap c = asnap (c &&& 0xF8F8F880#32) := rfl
    _ = stretch (shrink c) := by
      rw [asnap_eq, stretch_shrink, hr, hg, hb, up5_top5, up5_top5, up5_top5]
      rfl

/-- Settles O7: the masked form is the definition, and `stretch` sets the alpha. -/
theorem snapIsStretchShrink : Obligations.SnapIsStretchShrink := by
  refine fun c => ⟨rfl, snap_eq_stretch_shrink c, ?_⟩
  rw [snap_eq_stretch_shrink, stretch, alphaOf_rgba]

/-- The analysis snap keeps the key. -/
theorem shrink_asnap (c : Word32) : shrink (asnap c) = shrink c := by
  rw [asnap_eq, shrink, redOf_rgba, greenOf_rgba, blueOf_rgba, key3, top5_replicateTop, top5_replicateTop,
    top5_replicateTop, ← key3, ← shrink]

theorem asnap_idem (c : Word32) : asnap (asnap c) = asnap c := by
  rw [asnap_eq (asnap c), asnap_eq c]
  simp only [redOf_rgba, greenOf_rgba, blueOf_rgba, replicateTop_idem]

/-- The only key a snapped colour can be the stretch of is its own. -/
theorem exists_asnap_eq_stretch_iff (c : Word32) : (∃ k, asnap c = stretch k) ↔ asnap c = stretch (shrink c) := by
  refine ⟨fun ⟨k, hk⟩ => ?_, fun h => ⟨_, h⟩⟩
  have hkey : k = shrink c := by rw [← shrink_stretch k, ← hk, shrink_asnap]
  rw [hk, hkey]

/-- The analysis snap is on the grid where every channel's low bits were already a subset of its top bits (R96). -/
theorem asnap_eq_stretch_iff (c : Word32) :
    asnap c = stretch (shrink c) ↔ c >>> 5 &&& 0x07070700#32 &&& c = c &&& 0x07070700#32 := by
  obtain ⟨hr, hg, hb, ha⟩ := channels_and (c >>> 5 &&& 0x07070700#32) c
  obtain ⟨hr', hg', hb', ha'⟩ := channels_and c 0x07070700#32
  rw [asnap_eq, stretch_shrink, colour_eq_iff, colour_eq_iff, hr, hg, hb, ha, hr', hg', hb', ha',
    ushiftRight_five_and_mask]
  simp only [redOf_rgba, greenOf_rgba, blueOf_rgba, alphaOf_rgba, replicateTop_eq_up5_iff]
  have halpha : 0#8 &&& alphaOf c = alphaOf c &&& alphaOf 0x07070700#32 := BitVec.zero_and.trans BitVec.and_zero.symm
  exact ⟨fun ⟨hred, hgreen, hblue, _⟩ => ⟨hred, hgreen, hblue, halpha⟩,
    fun ⟨hred, hgreen, hblue, _⟩ => ⟨hred, hgreen, hblue, trivial⟩⟩

/-- Settles O8: a snapped colour is on the grid where it is the stretch of its own key. -/
theorem analysisSnap : Obligations.AnalysisSnap :=
  ⟨fun c => ⟨rfl, asnap_idem c, (exists_asnap_eq_stretch_iff c).trans (asnap_eq_stretch_iff c)⟩, rfl⟩

end Sys2Proof.Machine
end

section
/-! SUPPORT. The sign of an arithmetic result (00_scope.md R7): sums and products of values that are no NaN and not
below 0 are again such values, and the square of a difference does not depend on the order of its operands. -/

namespace Sys2Proof

/-! ### The sign of a datum -/

/-- The sign of a datum; a NaN has none. -/
def Datum.sign? : Datum → Option Bool
  | .nan => none
  | .inf neg => some neg
  | .fin neg _ _ => some neg

theorem Datum.sign?_eq_none_iff {d : Datum} : d.sign? = none ↔ d = .nan := by
  cases d <;> simp [sign?]

theorem alignTo_nonneg (lo : Int) (m : Nat) (e : Int) : 0 ≤ alignTo lo false m e :=
  Int.natCast_nonneg _

theorem alignTo_not (lo : Int) (neg : Bool) (m : Nat) (e : Int) : alignTo lo (!neg) m e = -alignTo lo neg m e := by
  cases neg <;> simp [alignTo]

theorem Datum.sign?_add {d e : Datum} (hd : d.sign? = some false) (he : e.sign? = some false) :
    (d.add e).sign? = some false := by
  cases d with
  | nan => cases hd
  | inf nd =>
    cases hd
    cases e with
    | nan => cases he
    | inf ne => cases he; rfl
    | fin ne me ee => rfl
  | fin nd md ed =>
    cases hd
    cases e with
    | nan => cases he
    | inf ne => cases he; rfl
    | fin ne me ee =>
      cases he
      have hsum := Int.add_nonneg (alignTo_nonneg (min ed ee) md ed) (alignTo_nonneg (min ed ee) me ee)
      simp only [Datum.add]
      split
      · rfl
      · simp [sign?, hsum]

theorem Datum.sign?_mul_self {d : Datum} (hd : d ≠ .nan) : (d.mul d).sign? = some false := by
  cases d with
  | nan => exact absurd rfl hd
  | inf neg => simp [Datum.mul, sign?]
  | fin neg m e => simp [Datum.mul, sign?]

/-- A value that is no NaN keeps its sign under a positive finite factor. -/
theorem Datum.sign?_mul_pos {d : Datum} {m : Nat} (hm : m ≠ 0) (e : Int) :
    (d.mul (.fin false m e)).sign? = d.sign? := by
  cases d <;> simp [Datum.mul, sign?, hm]

/-- A difference of aligned values changes its sign with the order of its operands. -/
theorem alignTo_sub_swap (lo : Int) (na nb : Bool) (ma mb : Nat) (ea eb : Int) :
    alignTo lo nb mb eb + alignTo lo (!na) ma ea = -(alignTo lo na ma ea + alignTo lo (!nb) mb eb) := by
  rw [alignTo_not, alignTo_not]
  ring

/-- The differences of two finite data, one way and the other, have one magnitude. -/
theorem Datum.sub_fin_swap (na nb : Bool) (ma mb : Nat) (ea eb : Int) :
    ∃ (n n' : Bool) (m : Nat) (e : Int),
      (Datum.fin na ma ea).add (Datum.fin nb mb eb).negate = .fin n m e ∧
      (Datum.fin nb mb eb).add (Datum.fin na ma ea).negate = .fin n' m e := by
  have hswap := alignTo_sub_swap (min ea eb) na nb ma mb ea eb
  simp only [Datum.negate, Datum.add, min_comm eb ea, hswap, neg_eq_zero, Int.natAbs_neg]
  by_cases hzero : alignTo (min ea eb) na ma ea + alignTo (min ea eb) (!nb) mb eb = 0
  · exact ⟨na && !nb, nb && !na, 0, min ea eb, if_pos hzero, if_pos hzero⟩
  · exact ⟨_, _, _, _, if_neg hzero, if_neg hzero⟩

/-- A finite datum less itself is `+0`. -/
theorem Datum.sub_self_fin (n : Bool) (m : Nat) (e : Int) :
    (Datum.fin n m e).add (Datum.fin n m e).negate = .fin false 0 e := by
  simp [Datum.negate, Datum.add, alignTo_not]

/-! ### Reading a pattern -/

theorem FloatFormat.sign?_ofMag (f : FloatFormat) (neg : Bool) {mag : Nat} (h : f.unpack mag ≠ .nan) :
    (f.ofMag neg mag).sign? = some neg := by
  unfold ofMag
  split
  next hnan => exact absurd hnan h
  next => rfl
  next => rfl

/-- The sign of a value does not matter to its square. -/
theorem FloatFormat.ofMag_mul_self (f : FloatFormat) (neg neg' : Bool) (mag : Nat) :
    (f.ofMag neg mag).mul (f.ofMag neg mag) = (f.ofMag neg' mag).mul (f.ofMag neg' mag) := by
  unfold ofMag
  cases f.unpack mag <;> simp [Datum.mul]

/-- The rounded magnitudes are those up to infinity, which are no NaN. -/
theorem unpack_ne_nan_of_le_infMag {mag : Nat} (h : mag ≤ binary32.infMag) : binary32.unpack mag ≠ .nan := by
  intro hnan
  obtain ⟨hexp, hfrac⟩ := (FloatFormat.unpack_eq_nan_iff ..).mp hnan
  have hinf : binary32.infMag = 255 * 2 ^ 23 := rfl
  simp only [binary32, FloatFormat.maxExpField] at hexp hfrac
  omega

theorem FloatFormat.roundMag_le_infMag (f : FloatFormat) (m : Nat) (e : Int) : f.roundMag m e ≤ f.infMag := by
  unfold roundMag
  split
  · exact Nat.zero_le _
  · exact Nat.min_le_right ..

/-- The sign a pattern is read with is its top bit. -/
theorem FloatFormat.sign?_unpack {f : FloatFormat} {bits : Nat} {neg : Bool} (h : (f.unpack bits).sign? = some neg) :
    (bits / 2 ^ (f.frac + f.expo) % 2 == 1) = neg := by
  simp only [unpack] at h
  split at h
  · split at h
    · exact Option.some.inj h
    · cases h
  · split at h <;> exact Option.some.inj h

/-- A sign bit above magnitude bits is read as the magnitude with that sign. -/
theorem unpack_sign_mul_add (neg : Bool) {mag : Nat} (hmag : mag < 2 ^ 31) :
    binary32.unpack (neg.toNat * 2 ^ 31 + mag) = binary32.ofMag neg mag := by
  have hneg : ((neg.toNat * 2 ^ 31 + mag) / 2 ^ 31 % 2 == 1) = neg := by cases neg <;> simp <;> omega
  have hexp : (neg.toNat * 2 ^ 31 + mag) / 2 ^ 23 % 2 ^ 8 = mag / 2 ^ 23 % 2 ^ 8 := by omega
  have hfrac : (neg.toNat * 2 ^ 31 + mag) % 2 ^ 23 = mag % 2 ^ 23 := by omega
  simp only [FloatFormat.ofMag, FloatFormat.unpack, binary32, hneg, hexp, hfrac]
  by_cases hall : mag / 2 ^ 23 % 2 ^ 8 = FloatFormat.maxExpField ⟨23, 8⟩
  · by_cases hzero : mag % 2 ^ 23 = 0 <;> simp only [hall, hzero, if_true, if_false]
  · by_cases hsub : mag / 2 ^ 23 % 2 ^ 8 = 0
    · have hsmall : ¬0 = FloatFormat.maxExpField ⟨23, 8⟩ := by decide
      simp only [hsub, hsmall, if_true, if_false]
    · simp only [hall, hsub, if_false]

namespace FP

/-! ### Results of the operations -/

/-- What a pattern of a sign bit and magnitude bits stands for. -/
theorem datum_sign_append (neg : Bool) {mag : Nat} (hmag : mag ≤ binary32.infMag) :
    datum ⟨BitVec.ofBool neg ++ BitVec.ofNat 31 mag⟩ = binary32.ofMag neg mag := by
  have hlt : mag < 2 ^ 31 := hmag.trans_lt (by decide)
  have hbits : (BitVec.ofBool neg ++ BitVec.ofNat 31 mag).toNat = neg.toNat * 2 ^ 31 + mag := by
    rw [toNat_append_field, BitVec.toNat_ofBool, BitVec.toNat_ofNat, Nat.mod_eq_of_lt hlt]
  exact (congrArg binary32.unpack hbits).trans (unpack_sign_mul_add neg hlt)

theorem datum_pack_fin (src : NanSource) (a b : Word32) (neg : Bool) (m : Nat) (e : Int) :
    (pack src a b (.fin neg m e)).datum = binary32.ofMag neg (binary32.roundMag m e) :=
  datum_sign_append neg (FloatFormat.roundMag_le_infMag ..)

/-- Rounding keeps the sign. -/
theorem sign?_datum_pack {d : Datum} {neg : Bool} (h : d.sign? = some neg) (src : NanSource) (a b : Word32) :
    (pack src a b d).datum.sign? = some neg := by
  cases d with
  | nan => cases h
  | inf n =>
    cases h
    exact (congrArg Datum.sign? (datum_sign_append neg le_rfl)).trans
      (FloatFormat.sign?_ofMag _ _ (unpack_ne_nan_of_le_infMag le_rfl))
  | fin n m e =>
    cases h
    rw [datum_pack_fin]
    exact FloatFormat.sign?_ofMag _ _ (unpack_ne_nan_of_le_infMag (FloatFormat.roundMag_le_infMag ..))

/-- Only the bits of a NaN depend on the operation and its operands. -/
theorem pack_congr {d : Datum} (h : d ≠ .nan) (src src' : NanSource) (a a' b b' : Word32) :
    pack src a b d = pack src' a' b' d := by
  cases d with
  | nan => exact absurd rfl h
  | inf neg => rfl
  | fin neg m e => rfl

/-- The bit test of `isFinite` agrees with the reading of the pattern. -/
theorem exists_datum_fin {v : FP} (h : v.isFinite = true) : ∃ n m e, v.datum = .fin n m e := by
  have hexp : v.bits.toNat / 2 ^ 23 % 2 ^ 8 ≠ 255 := fun hall =>
    bne_iff_ne.mp h (BitVec.eq_of_toNat_eq (by rw [BitVec.extractLsb'_toNat, Nat.shiftRight_eq_div_pow]; exact hall))
  have hexp : v.bits.toNat / 2 ^ binary32.frac % 2 ^ binary32.expo ≠ binary32.maxExpField := hexp
  simp only [datum, FloatFormat.unpack, if_neg hexp]
  split <;> exact ⟨_, _, _, rfl⟩

/-! ### Values that are no NaN and not below 0 -/

/-- A number or `+inf`, with a positive sign: neither a NaN nor below 0. -/
def Nonneg (v : FP) : Prop := v.datum.sign? = some false

theorem Nonneg.isNan {v : FP} (h : v.Nonneg) : v.isNan = false := by
  rw [← Bool.not_eq_true, isNan_iff_datum_nan, ← Datum.sign?_eq_none_iff, h]
  exact Option.some_ne_none false

theorem Nonneg.not_lt_zero {v : FP} (h : v.Nonneg) : lt v zero = false := by
  have hsign : (v.bits.toNat / 2 ^ 31 % 2 == 1) = false := FloatFormat.sign?_unpack h
  have hlt := v.bits.isLt
  have hmsb : v.bits.msb = false := by
    rw [BitVec.msb_eq_false_iff_two_mul_lt]
    simp only [beq_eq_false_iff_ne] at hsign
    omega
  have hkey : ¬v.orderKey < zero.orderKey := by
    rw [orderKey, hmsb]
    exact not_lt.mpr (Int.natCast_nonneg _)
  rw [lt, decide_eq_false hkey, Bool.and_false]

theorem Nonneg.add {v w : FP} (hv : v.Nonneg) (hw : w.Nonneg) : (v.add w).Nonneg :=
  sign?_datum_pack (Datum.sign?_add hv hw) ..

/-- A factor above 0 keeps the sign. -/
theorem Nonneg.mul_pos {v w : FP} (hv : v.Nonneg) {m : Nat} {e : Int} (hw : w.datum = .fin false m e) (hm : m ≠ 0) :
    (v.mul w).Nonneg := by
  refine sign?_datum_pack ?_ ..
  rw [hw, Datum.sign?_mul_pos hm, hv]

/-! ### The square of a difference of finite values -/

/-- The differences of two finite values, one way and the other, have one magnitude. -/
theorem datum_sub_swap {x y : FP} (hx : x.isFinite = true) (hy : y.isFinite = true) :
    ∃ (n n' : Bool) (m : Nat) (e : Int),
      (x.sub y).datum = binary32.ofMag n (binary32.roundMag m e) ∧
      (y.sub x).datum = binary32.ofMag n' (binary32.roundMag m e) := by
  obtain ⟨nx, mx, ex, hx⟩ := exists_datum_fin hx
  obtain ⟨ny, my, ey, hy⟩ := exists_datum_fin hy
  obtain ⟨n, n', m, e, hxy, hyx⟩ := Datum.sub_fin_swap nx ny mx my ex ey
  exact ⟨n, n', m, e, by rw [sub, hx, hy, hxy, datum_pack_fin], by rw [sub, hx, hy, hyx, datum_pack_fin]⟩

theorem datum_sub_ne_nan {x y : FP} (hx : x.isFinite = true) (hy : y.isFinite = true) : (x.sub y).datum ≠ .nan := by
  obtain ⟨n, -, m, e, hxy, -⟩ := datum_sub_swap hx hy
  have hsign : (x.sub y).datum.sign? = some n :=
    hxy ▸ FloatFormat.sign?_ofMag _ _ (unpack_ne_nan_of_le_infMag (FloatFormat.roundMag_le_infMag ..))
  exact fun hnan => by rw [hnan] at hsign; cases hsign

theorem nonneg_sub_mul_self {x y : FP} (hx : x.isFinite = true) (hy : y.isFinite = true) :
    ((x.sub y).mul (x.sub y)).Nonneg :=
  sign?_datum_pack (Datum.sign?_mul_self (datum_sub_ne_nan hx hy)) ..

theorem sub_mul_self_comm {x y : FP} (hx : x.isFinite = true) (hy : y.isFinite = true) :
    (x.sub y).mul (x.sub y) = (y.sub x).mul (y.sub x) := by
  obtain ⟨n, n', m, e, hxy, hyx⟩ := datum_sub_swap hx hy
  have hsquare : (x.sub y).datum.mul (x.sub y).datum = (y.sub x).datum.mul (y.sub x).datum := by
    rw [hxy, hyx, FloatFormat.ofMag_mul_self _ n n']
  have hnum : (y.sub x).datum.mul (y.sub x).datum ≠ .nan := fun hnan => by
    have hsign := Datum.sign?_mul_self (datum_sub_ne_nan hy hx)
    rw [hnan] at hsign
    cases hsign
  rw [mul, mul, hsquare]
  exact pack_congr hnum ..

/-- A finite value less itself is `+0`. -/
theorem sub_self_eq_zero {x : FP} (hx : x.isFinite = true) : x.sub x = zero := by
  obtain ⟨n, m, e, hd⟩ := exists_datum_fin hx
  rw [sub, hd, Datum.sub_self_fin]
  simp only [pack, FloatFormat.roundMag, if_true]
  rfl

end FP

end Sys2Proof
end

section
/-! SUPPORT. The Oklab table and the distance (40_color_metric.md R120 to R126). -/

namespace Sys2Proof.Machine

open Sys2Proof

/-! ### The Oklab table -/

/-- The channel sample at the value R5 shows for `OKLAB_RAMP` (R120). -/
theorem ramp_eq (i : BitVec 5) : ramp i = (FP.ofInt (i.toNat * i.toNat : Nat)).div (FP.ofInt 961) := by
  rw [Nat.cast_mul]
  rfl

/-- Black has the coordinates 0, 0, 0 (R122): every cube root is of 0, where `cbrt` is not free. -/
theorem oklab_black : oklab 0#15 = ⟨FP.zero, FP.zero, FP.zero⟩ := by decide +kernel

/-! ### The distance of two entries -/

/-- An entry of three finite numbers. -/
def Lab.Finite (x : Lab) : Prop := x.l.isFinite = true ∧ x.a.isFinite = true ∧ x.b.isFinite = true

theorem finiteLab_iff {k : Key} : finiteLab k = true ↔ (oklab k).Finite := by
  simp only [finiteLab, Lab.Finite, Bool.and_eq_true, and_assoc]

/-- The distance as a function of the three squared differences (R123). -/
theorem labDistance_eq (x y : Lab) :
    labDistance x y = ((((x.l.sub y.l).mul (x.l.sub y.l)).add ((x.a.sub y.a).mul (x.a.sub y.a))).add
      ((x.b.sub y.b).mul (x.b.sub y.b))).mul Config.distScale := rfl

theorem labDistance_comm {x y : Lab} (hx : x.Finite) (hy : y.Finite) : labDistance x y = labDistance y x := by
  obtain ⟨hxl, hxa, hxb⟩ := hx
  obtain ⟨hyl, hya, hyb⟩ := hy
  rw [labDistance_eq, FP.sub_mul_self_comm hxl hyl, FP.sub_mul_self_comm hxa hya, FP.sub_mul_self_comm hxb hyb,
    ← labDistance_eq]

theorem labDistance_self {x : Lab} (hx : x.Finite) : labDistance x x = FP.zero := by
  obtain ⟨hl, ha, hb⟩ := hx
  rw [labDistance_eq, FP.sub_self_eq_zero hl, FP.sub_self_eq_zero ha, FP.sub_self_eq_zero hb]
  decide

/-- The scale is above 0 (R126). -/
theorem datum_distScale : Config.distScale.datum = .fin false 9635980 (-9) := by decide

theorem nonneg_labDistance {x y : Lab} (hx : x.Finite) (hy : y.Finite) : (labDistance x y).Nonneg := by
  obtain ⟨hxl, hxa, hxb⟩ := hx
  obtain ⟨hyl, hya, hyb⟩ := hy
  rw [labDistance_eq]
  have hl := FP.nonneg_sub_mul_self hxl hyl
  have ha := FP.nonneg_sub_mul_self hxa hya
  have hb := FP.nonneg_sub_mul_self hxb hyb
  exact ((hl.add ha).add hb).mul_pos datum_distScale (by decide)

theorem dkey_self {k : Key} (h : finiteLab k = true) : dkey k k = FP.zero :=
  labDistance_self (finiteLab_iff.mp h)

/-- Settles O25: the table and the distance are by definition the formulas; the laws are those of sums of squares. -/
theorem distanceLaws : Obligations.DistanceLaws := by
  refine ⟨fun k => ?table, fun _ _ => rfl, fun kx ky hx hy => ?laws, oklab_black⟩
  case table =>
    simp only [← ramp_eq]
    exact ⟨rfl, rfl, rfl⟩
  case laws =>
    have hnonneg := nonneg_labDistance (finiteLab_iff.mp hx) (finiteLab_iff.mp hy)
    exact ⟨labDistance_comm (finiteLab_iff.mp hx) (finiteLab_iff.mp hy), dkey_self hx, hnonneg.isNan,
      hnonneg.not_lt_zero⟩

end Sys2Proof.Machine
end

section
/-! SUPPORT. The colour primitives (40_color_metric.md R128 to R132): what each of the five commands answers, and
the words of those that have must-be-zero fields. -/

namespace Sys2Proof

/-! ### Words -/

/-- A word put together with a zero `Z` field is decoded from its other three fields (R98). -/
theorem decode_append (o : BitVec 8) (a : BitVec 16) (m : Word32) :
    decode (o ++ 0#8 ++ a ++ m) = decodeFields o a m := by
  obtain ⟨ho, hz, ha, hm⟩ := fields_of_append o 0#8 a m
  rw [decode, ho, hz, ha, hm]
  rfl

/-- The must-be-zero test as a condition on the fields. -/
theorem whenZero_eq_ite {ok : Bool} {p : Prop} [Decidable p] (h : ok = true ↔ p) (i : Instr) :
    whenZero ok i = if p then .ok i else .error .nonzeroField := by
  rw [whenZero, ite_cond_congr (propext h)]

end Sys2Proof

namespace Sys2Proof.Machine

open Sys2Proof

/-! ### What each command answers -/

theorem exec_seta (c : Word32) (s : State) : exec (.seta c) s = .next (s.setOpa c) := rfl

theorem exec_shrink (c : Word32) (s : State) : exec (.shrink c) s = .next (s.setRes ((shrink c).setWidth 32)) := rfl

theorem exec_stretch (k : Key) (s : State) : exec (.stretch k) s = .next (s.setRes (stretch k)) := rfl

theorem exec_diff (c : Word32) (s : State) : exec (.diff c) s = .next (s.setResf (diff s.opa c)) := rfl

theorem exec_diff3 (r g b : Byte) (s : State) :
    exec (.diff3 r g b) s = .next (s.setResf (diff3 s.opa r g b)) := rfl

/-! ### The operands they read -/

/-- The mask of the alpha bit tests what `isOpaque` reads (R91). -/
theorem and_0x80_eq_zero_iff (c : Word32) : c &&& 0x80#32 = 0#32 ↔ isOpaque c = false := by
  have hbit : c &&& 0x80#32 = if isOpaque c = true then 0x80#32 else 0#32 := BitVec.and_twoPow c 7
  rw [hbit]
  cases isOpaque c <;> simp

/-- The alpha bits of two colours disagree where one is opaque and the other is not (R91, R124). -/
theorem alphaDisagrees_eq_false_iff (c d : Word32) : alphaDisagrees c d = false ↔ isOpaque c = isOpaque d := by
  have hxor : isOpaque (c ^^^ d) = (isOpaque c ^^ isOpaque d) := BitVec.getLsbD_xor
  rw [alphaDisagrees, bne_eq_false_iff_eq, and_0x80_eq_zero_iff, hxor, bne_eq_false_iff_eq]

theorem diff_eq (c d : Word32) :
    diff c d = if (c ^^^ d) &&& 0x80#32 ≠ 0#32 then ⟨0x7F800000#32⟩ else dkey (shrink c) (shrink d) := by
  simp only [diff, alphaDisagrees, bne_iff_ne]
  rfl

theorem diff3_eq (c : Word32) (r g b : Byte) :
    diff3 c r g b = if c &&& 0x80#32 = 0#32 then ⟨0x7F800000#32⟩ else dkey (shrink c) (key3 r g b) := by
  simp only [diff3, and_0x80_eq_zero_iff]
  cases isOpaque c <;> rfl

/-- Colours with one key and one alpha bit have the distance 0 (R124). -/
theorem diff_eq_zero {c d : Word32} (hkey : shrink c = shrink d) (halpha : isOpaque c = isOpaque d)
    (hfin : finiteLab (shrink d) = true) : diff c d = FP.zero := by
  rw [diff, (alphaDisagrees_eq_false_iff c d).mpr halpha, hkey, dkey_self hfin]
  rfl

/-- Between opaque colours `diff3` of a triple is `diff` of a colour with the triple's key (R125). -/
theorem diff3_eq_diff {c d : Word32} {r g b : Byte} (hkey : key3 r g b = shrink d) (hc : isOpaque c = true)
    (hd : isOpaque d = true) : diff3 c r g b = diff c d := by
  rw [diff3, diff, (alphaDisagrees_eq_false_iff c d).mpr (hc.trans hd.symm), hc, hkey]
  rfl

theorem top5_and_high : ∀ v : Byte, top5 (v &&& 0xF8#8) = top5 v := by decide

/-- The alpha and the low three bits of each channel do not reach the key (R93). -/
theorem shrink_and_high (c : Word32) : shrink (c &&& 0xF8F8F800#32) = shrink c := by
  obtain ⟨hr, hg, hb, -⟩ := channels_and c 0xF8F8F800#32
  have hred : top5 (redOf c &&& redOf 0xF8F8F800#32) = top5 (redOf c) := top5_and_high _
  have hgreen : top5 (greenOf c &&& greenOf 0xF8F8F800#32) = top5 (greenOf c) := top5_and_high _
  have hblue : top5 (blueOf c &&& blueOf 0xF8F8F800#32) = top5 (blueOf c) := top5_and_high _
  rw [shrink, key3, hr, hg, hb, hred, hgreen, hblue, ← key3, ← shrink]

/-! ### The obligations -/

/-- Settles O20: the decoder tests `A` alone, and the result is the write of `OPA`. -/
theorem setaResult : Obligations.SetaResult :=
  ⟨fun _ _ => (decode_append ..).trans (whenZero_eq_ite beq_iff_eq _), exec_seta⟩

/-- Settles O21: the key is made of the top five bits of each channel alone. -/
theorem shrinkResult : Obligations.ShrinkResult := by
  refine ⟨fun _ _ => ?words, fun c s => ?result, shrink_and_high, by decide, by decide, by decide⟩
  case words => exact (decode_append ..).trans (whenZero_eq_ite beq_iff_eq _)
  case result => rw [exec_shrink, BitVec.setWidth_eq_append (by decide)]; rfl

/-- Settles O22: the decoder reads the key back from below the bits that must be 0. -/
theorem stretchResult : Obligations.StretchResult := by
  refine ⟨fun a z k => ?words, exec_stretch, shrink_stretch, by decide, by decide, by decide⟩
  case words =>
    have hunused : (z ++ k).extractLsb' 15 17 = z := BitVec.extractLsb'_append_eq_left
    have hkey : (z ++ k).extractLsb' 0 15 = k := BitVec.extractLsb'_append_eq_right
    have hfields : decodeFields 0x0A#8 a (z ++ k) = whenZero (a == 0#16 && z == 0#17) (.stretch k) :=
      congrArg₂ (fun u v => whenZero (a == 0#16 && u == 0#17) (.stretch v)) hunused hkey
    rw [decode_append, hfields]
    exact whenZero_eq_ite (by simp only [Bool.and_eq_true, beq_iff_eq]) _

/-- Settles O23: equal alpha bits leave the distance, which is 0 from a key to itself. -/
theorem diffResult : Obligations.DiffResult := by
  refine fun c s => ⟨?result, fun hkey halpha hfin => ?zero⟩
  case result => rw [exec_diff, diff_eq]; rfl
  case zero => rw [exec_diff, diff_eq_zero hkey halpha hfin]; rfl

/-- Settles O24: both colours of the example are opaque. -/
theorem diff3Result : Obligations.Diff3Result := by
  refine ⟨fun a z r g b => ?words, fun r g b s => ?result, fun s hopa => ?sample⟩
  case words =>
    obtain ⟨hunused, hr, hg, hb⟩ := channels_rgba z r g b
    have hfields : decodeFields 0x0C#8 a (z ++ r ++ g ++ b) = whenZero (a == 0#16 && z == 0#8) (.diff3 r g b) := by
      show whenZero (a == 0#16 && redOf (rgba z r g b) == 0#8) (.diff3 (greenOf (rgba z r g b))
        (blueOf (rgba z r g b)) (alphaOf (rgba z r g b))) = _
      rw [hunused, hr, hg, hb]
    rw [decode_append, hfields]
    exact whenZero_eq_ite (by simp only [Bool.and_eq_true, beq_iff_eq]) _
  case result => rw [exec_diff3, diff3_eq]; rfl
  case sample =>
    have hkey : key3 255#8 128#8 128#8 = shrink 0xFF8080FF#32 := by decide
    rw [exec_diff3, exec_diff, hopa, diff3_eq_diff hkey (by decide) (by decide)]

end Sys2Proof.Machine
end

section
/-! SUPPORT. Comparisons and powers of binary32 values (00_scope.md R7): the order of the numbers, and the powers that
need no value of the free function. -/

namespace Sys2Proof.FP

open Sys2Proof

/-! ### Comparisons -/

theorem lt_iff {a b : FP} : lt a b = true ↔ a.isNan = false ∧ b.isNan = false ∧ a.orderKey < b.orderKey := by
  simp only [lt, Bool.and_eq_true, Bool.not_eq_true', decide_eq_true_eq, and_assoc]

theorem lt_trans {a b c : FP} (hab : lt a b = true) (hbc : lt b c = true) : lt a c = true := by
  obtain ⟨ha, -, hkab⟩ := lt_iff.mp hab
  obtain ⟨-, hc, hkbc⟩ := lt_iff.mp hbc
  exact lt_iff.mpr ⟨ha, hc, hkab.trans hkbc⟩

theorem lt_irrefl (a : FP) : lt a a = false :=
  Bool.eq_false_iff.mpr fun h =>
    have ⟨_, _, hlt⟩ := lt_iff.mp h
    Int.lt_irrefl _ hlt

/-- What is below `b` is below whatever is a number and not below `b`. -/
theorem lt_or_isNan_of_not_lt {a b c : FP} (hab : lt a b = true) (hcb : lt c b = false) :
    lt a c = true ∨ c.isNan = true := by
  obtain ⟨ha, hb, hkab⟩ := lt_iff.mp hab
  cases hc : c.isNan with
  | true => exact .inr rfl
  | false =>
    have hkcb : ¬c.orderKey < b.orderKey := fun hk => by simp [lt_iff.mpr ⟨hc, hb, hk⟩] at hcb
    exact .inl (lt_iff.mpr ⟨ha, hc, hkab.trans_le (not_lt.mp hkcb)⟩)

theorem orderKey_of_isZero {a : FP} (h : a.isZero = true) : a.orderKey = 0 := by
  have hmag : a.bits.extractLsb' 0 31 = 0#31 := eq_of_beq h
  simp [orderKey, hmag]

/-- A pattern with the sign bit set is not above 0: it is a NaN, `-0` or below 0. -/
theorem zero_lt_eq_false_of_msb {v : Word32} (h : v.msb = true) : lt zero ⟨v⟩ = false := by
  have hkey : (FP.mk v).orderKey ≤ 0 := by
    rw [orderKey, h]
    exact Int.neg_nonpos_of_nonneg (Int.natCast_nonneg _)
  rw [← Bool.not_eq_true, lt_iff]
  exact fun ⟨_, _, hlt⟩ => absurd hlt (not_lt.mpr hkey)

theorem orderKey_zero : zero.orderKey = 0 := by decide

/-- What is above or below 0 is no zero. -/
theorem isZero_eq_false_of_orderKey_ne {a : FP} (h : a.orderKey ≠ zero.orderKey) : a.isZero = false :=
  Bool.eq_false_iff.mpr fun hzero => h (by rw [orderKey_of_isZero hzero, orderKey_zero])

/-! ### The special cases of `pow` -/

theorem pow_of_isZero (x : FP) {y : FP} (h : y.isZero = true) : pow x y = one := if_pos h

theorem zero_pow_of_pos {y : FP} (h : lt zero y = true) : pow zero y = zero := by
  obtain ⟨-, -, hlt⟩ := lt_iff.mp h
  simp only [pow, isZero_eq_false_of_orderKey_ne hlt.ne', h, Bool.and_true, Bool.false_eq_true, if_false]
  rfl

theorem zero_pow_of_neg {y : FP} (h : lt y zero = true) : pow zero y = posInf := by
  obtain ⟨-, -, hlt⟩ := lt_iff.mp h
  have hpos : lt zero y = false := Bool.eq_false_iff.mpr fun hpos =>
    have ⟨_, _, hgt⟩ := lt_iff.mp hpos
    lt_asymm hlt hgt
  simp only [pow, isZero_eq_false_of_orderKey_ne hlt.ne, hpos, h, Bool.and_true, Bool.and_false, Bool.false_eq_true,
    if_false]
  rfl

theorem one_pow (y : FP) : pow one y = one := by
  have hone : one.isZero = false := by decide
  have heq : eqNum one one = true := by decide
  simp only [pow, hone, heq, Bool.false_and, Bool.false_eq_true, if_false, if_true, ite_self]

end Sys2Proof.FP
end

section
/-! SUPPORT. SETDS and the gamma table (41_palette_load.md R164, R165): what SETDS answers, an entry of `GAM` channel by
channel, and the channels whose gamma needs no value of the free functions. -/

namespace Sys2Proof.Machine

open Sys2Proof

/-! ### SETDS -/

theorem exec_setds_of_finite {v : Word32} (s : State) (h : (FP.mk v).isFinite = true) :
    exec (.setds v) s = .next (s.setStrength (strengthOf ⟨v⟩) (gammaTable (strengthOf ⟨v⟩) s.pal)) := if_pos h

theorem exec_setds_of_not_finite {v : Word32} (s : State) (h : (FP.mk v).isFinite = false) :
    exec (.setds v) s = .refused .operandRange := if_neg (by simp [h])

/-- SETDS of a finite operand answers a state with the strength of the operand. -/
theorem exists_exec_setds {v : Word32} {d : FP} (s : State) (h : (FP.mk v).isFinite = true)
    (hd : strengthOf ⟨v⟩ = d) : ∃ t, exec (.setds v) s = .next t ∧ t.ds = d := ⟨_, exec_setds_of_finite s h, hd⟩

/-- A negative operand, `-0` too, gives the strength 0 (R164). -/
theorem strengthOf_of_msb {v : Word32} (h : v.msb = true) : strengthOf ⟨v⟩ = FP.zero := by
  rw [strengthOf, FP.zero_lt_eq_false_of_msb h]
  rfl

theorem strengthOf_one : strengthOf FP.one = State.reset.ds := by decide

theorem strengthOf_two : strengthOf ⟨0x40000000#32⟩ = FP.one := by decide

/-- Settles O26: the decoder tests `A` alone; the strength is halved, or 0 where the operand is not above 0. -/
theorem setdsResult : Obligations.SetdsResult := by
  refine ⟨fun _ _ => ?words, fun v s hv => exec_setds_of_finite s hv, fun v s hv => exec_setds_of_not_finite s hv,
    fun v s hneg hv => ?negative, fun s => ?one, fun s => ?two⟩
  case words => exact (decode_append ..).trans (whenZero_eq_ite beq_iff_eq _)
  case negative => exact exists_exec_setds s hv (strengthOf_of_msb hneg)
  case one => exact exists_exec_setds s (by decide) strengthOf_one
  case two =>
    obtain ⟨t, ht, hds⟩ := exists_exec_setds s (by decide) strengthOf_two
    have hzero : (gammaExponent FP.one).isZero = true := by decide
    exact ⟨t, ht, hds, hds.symm ▸ hzero⟩

/-! ### The gamma table -/

/-- A channel holds the clamped integer it is made from (R193). -/
theorem toNat_channelOf (v : FP) : ((channelOf v).toNat : Int) = clamp v.trunc 0 255 := by
  obtain ⟨hlo, hhi⟩ := clamp_bounds (i := v.trunc) (lo := 0) (hi := 255) (by decide)
  rw [channelOf, BitVec.toNat_ofInt]
  omega

/-- An entry of a gamma table that is current (R35, R165). -/
theorem gamAt_of_current {t : State} (h : t.gam = gammaTable t.ds t.pal) {n : Nat} (hn : n < palSize) :
    gamAt t n = gammaColour (gammaExponent t.ds) (palAt t n) := by
  rw [gamAt, h, read_gammaTable, if_pos hn, palAt]

/-- The channel written out, with `1` as the integer's pattern (R165). -/
theorem toNat_gammaChannel (ds : FP) (c : Byte) :
    ((gammaChannel (gammaExponent ds) c).toNat : Int) =
      clamp (((((FP.ofInt c.toNat).div (FP.ofInt 255)).pow ((FP.ofDecimal 18 1).mul ((FP.ofInt 1).sub ds))).mul
        (FP.ofInt 255)).add (FP.ofDecimal 5 1)).trunc 0 255 := by
  have hone : FP.ofInt 1 = FP.one := by decide
  rw [hone]
  exact toNat_channelOf _

/-- Settles O27: SETDS leaves a current gamma table, whose entries are made channel by channel. -/
theorem gammaEntries : Obligations.GammaEntries := by
  intro s v t h n hn
  obtain ⟨-, rfl⟩ := execSetds_next h
  rw [gamAt_of_current rfl hn, gammaColour]
  simp only [redOf_rgba, greenOf_rgba, blueOf_rgba, alphaOf_rgba]
  exact ⟨toNat_gammaChannel .., toNat_gammaChannel .., toNat_gammaChannel .., trivial⟩

/-! ### The corners of the gamma computation -/

/-- A power scaled back to a channel (R165). -/
def channelOfPower (p : FP) : Byte := channelOf ((p.mul (FP.ofInt 255)).add (FP.ofDecimal 5 1))

theorem gammaChannel_eq (g : FP) (v : Byte) :
    gammaChannel g v = channelOfPower (((FP.ofInt v.toNat).div (FP.ofInt 255)).pow g) := rfl

/-- Channel 0 is normalized to 0. -/
theorem gammaChannel_zero (g : FP) : gammaChannel g 0#8 = channelOfPower (FP.zero.pow g) := by
  have hzero : (FP.ofInt (0#8).toNat).div (FP.ofInt 255) = FP.zero := by decide
  rw [gammaChannel_eq, hzero]

/-- Channel 255 is normalized to 1, and 1 to any power is 1. -/
theorem gammaChannel_255 (g : FP) : gammaChannel g 255#8 = channelOfPower FP.one := by
  have hone : (FP.ofInt (255#8).toNat).div (FP.ofInt 255) = FP.one := by decide
  rw [gammaChannel_eq, hone, FP.one_pow]

theorem channelOfPower_zero : channelOfPower FP.zero = 0#8 := by decide

theorem channelOfPower_one : channelOfPower FP.one = 255#8 := by decide

/-- An infinite power saturates (R8). -/
theorem channelOfPower_posInf : channelOfPower FP.posInf = 255#8 := by decide

/-- Settles O28: in each case the power is one of `pow`'s special cases. -/
theorem gammaFixedPoints : Obligations.GammaFixedPoints := by
  have h255 (g : FP) : gammaChannel g 255#8 = 255#8 := by rw [gammaChannel_255, channelOfPower_one]
  refine fun g => ⟨fun hpos => ⟨?pos, h255 g⟩, fun hzero v => ?zero, fun hneg => ⟨?neg, h255 g⟩⟩
  case pos => rw [gammaChannel_zero, FP.zero_pow_of_pos hpos, channelOfPower_zero]
  case zero => rw [gammaChannel_eq, FP.pow_of_isZero _ hzero, channelOfPower_one]
  case neg => rw [gammaChannel_zero, FP.zero_pow_of_neg hneg, channelOfPower_posInf]

end Sys2Proof.Machine
end

section
/-! SUPPORT. What the palette loads leave (41_palette_load.md R150 to R153, R156, R166): the registers and stores a load
writes, and what it and SETDS leave alone. -/

namespace Sys2Proof.Machine

open Sys2Proof

/-! ### The finish step -/

section Loaded

variable {s t : State} {pal : Memory 32} {map : Memory 8} {cc : Nat}

theorem Loaded.toNat_cc (h : Loaded s t pal map cc) : t.cc.toNat = cc := by
  rw [h.state]
  exact toNat_ofNat_count h.le_256

theorem Loaded.palAt (h : Loaded s t pal map cc) (j : Nat) : palAt t j = Memory.read pal j := by
  rw [h.state]
  rfl

theorem Loaded.mapAt (h : Loaded s t pal map cc) (k : Key) : mapAt t k = Memory.read map k.toNat := by
  rw [h.state]
  rfl

theorem Loaded.pb (h : Loaded s t pal map cc) : t.pb = populationBias cc := by
  rw [h.state]
  rfl

/-- A load recomputes `GAM` and reaches neither `DS`, nor the colour primitives, nor what HOST owns, nor the working
state (R153, R166). -/
theorem Loaded.leaves (h : Loaded s t pal map cc) :
    t.gam = gammaTable s.ds t.pal ∧ t.ds = s.ds ∧ SamePrimitives s t ∧ SameInputs s t ∧ t.work = s.work ∧
      t.frm = s.frm := by
  rw [h.state]
  exact ⟨rfl, rfl, ⟨rfl, rfl, rfl⟩, ⟨rfl, rfl, rfl, rfl⟩, rfl, rfl⟩

end Loaded

/-! ### EXACT -/

/-- The test of R151 for the fallback. -/
theorem exec_exact_of_unusable {n : BitVec 16} {s : State}
    (h : s.input = none ∨ (∃ src, s.input = some src ∧ src.length < 2) ∨ n.toNat < 2) :
    exec (.exact n) s = .next (loadHaltonic s) := by
  show execExact n s = _
  unfold execExact
  split
  · rfl
  · rename_i src hsrc
    have hshort : src.length < 2 ∨ n.toNat < 2 := by
      obtain hnone | ⟨src', hsrc', hlen⟩ | hn := h
      · exact absurd (hnone.symm.trans hsrc) (by simp)
      · obtain rfl : src' = src := Option.some.inj (hsrc'.symm.trans hsrc)
        exact .inl hlen
      · exact .inr hn
    exact if_pos (by simpa using hshort)

theorem exec_exact_of_usable {n : BitVec 16} {s : State} {src : List Word32} (hsrc : s.input = some src)
    (hlen2 : 2 ≤ src.length) (hlen : src.length ≤ 256) (hn2 : 2 ≤ n.toNat) (hn : n.toNat ≤ 256) :
    exec (.exact n) s = .next (loadExact src n.toNat s) := by
  have hshort : (src.length < 2 || n.toNat < 2) = false := by
    simp only [Bool.or_eq_false_iff, decide_eq_false_iff_not]
    omega
  have hlong : (src.length > 256 || n.toNat > 256) = false := by
    simp only [Bool.or_eq_false_iff, decide_eq_false_iff_not]
    omega
  show execExact n s = _
  simp only [execExact, hsrc, hshort, hlong, Bool.false_eq_true, if_false]

/-- The slots EXACT fills are those of the opaque entries (R150). -/
theorem read_exactPalette_of_le (src : List Word32) {plen : Nat} (h : plen ≤ palSize) (j : Nat) :
    Memory.read (exactPalette src plen) j =
      if j < plen ∧ isOpaque (src.getD j 0#32) = true then src.getD j 0#32 else 0#32 := by
  rw [read_exactPalette]
  by_cases hj : j < plen
  · simp only [if_pos (hj.trans_le h), hj, if_true, true_and]
  · simp only [hj, if_false, ite_self, false_and]

theorem getD_haltonic {j : Nat} (h : j < palSize) : haltonic.getD j 0#32 = Config.haltonic j := by
  simp [haltonic, h]

/-- The fallback loads every opaque entry of `HALTONIC`, and the count is 256 (R151). -/
theorem loadHaltonic_palette (s : State) :
    (loadHaltonic s).cc = 256#9 ∧
      ∀ j, palAt (loadHaltonic s) j =
        if j < 256 ∧ isOpaque (Config.haltonic j) = true then Config.haltonic j else 0#32 := by
  have hl := loadHaltonic_loaded s
  refine ⟨BitVec.eq_of_toNat_eq hl.toNat_cc, fun j => ?_⟩
  rw [hl.palAt, read_exactPalette_of_le haltonic le_rfl]
  by_cases hj : j < palSize
  · rw [getD_haltonic hj]
    rfl
  · rw [if_neg (fun h => hj h.1), if_neg (fun h => hj h.1)]

/-- Settles O29: the fallback is one finish step on the opaque entries of `HALTONIC`. -/
theorem exactFallback : Obligations.ExactFallback := by
  intro n s h
  obtain ⟨hcc, hpal⟩ := loadHaltonic_palette s
  have hl := loadHaltonic_loaded s
  exact ⟨_, exec_exact_of_unusable h, hl.valid, hcc, hl.pb, hpal, hl.leaves⟩

/-- Settles O30: the load is one finish step on the opaque entries of the first `min(n, INLEN)`. -/
theorem exactLoadsInput : Obligations.ExactLoadsInput := by
  intro n s src hsrc hlen2 hlen hn2 hn
  have hl := loadExact_loaded src n.toNat s (le_min hn2 hlen2) (min_le_of_left_le hn)
  have hpal (j : Nat) := (hl.palAt j).trans (read_exactPalette_of_le src hl.le_256 j)
  exact ⟨_, exec_exact_of_usable hsrc hlen2 hlen hn2 hn, hl.valid, hl.toNat_cc, hl.pb, hpal, hl.leaves⟩

/-! ### PRELOAD -/

theorem read_preloadPalette_of_le (src : List Word32) {n : Nat} (h : n ≤ palSize) (j : Nat) :
    Memory.read (preloadPalette src n) j = if j < n then src.getD j 0#32 else 0#32 := by
  rw [read_preloadPalette]
  by_cases hj : j < n
  · rw [if_pos (hj.trans_le h)]
  · simp only [hj, if_false, ite_self]

/-- A key is an index of `MAP` (R60). -/
theorem toNat_key_lt (k : Key) : k.toNat < mapSize := k.isLt

theorem read_preloadMap_key (m : Memory 8) (k : Key) : Memory.read (preloadMap m) k.toNat = Memory.read m k.toNat := by
  rw [read_preloadMap, if_pos (toNat_key_lt k)]

/-- Settles O32: PRELOAD is one finish step on the copies. -/
theorem preloadCopies : Obligations.PreloadCopies := by
  intro n s src m hsrc hm h2 h256 hlen
  have hexec := exec_preload_of_usable hsrc hm h2 h256 hlen
  obtain ⟨src', m', hsrc', hm', hl⟩ := execPreload_loaded hexec
  obtain rfl : src' = src := Option.some.inj (hsrc'.symm.trans hsrc)
  obtain rfl : m' = m := Option.some.inj (hm'.symm.trans hm)
  have hpal (j : Nat) := (hl.palAt j).trans (read_preloadPalette_of_le src' hl.le_256 j)
  have hmap (k : Key) := (hl.mapAt k).trans (read_preloadMap_key m' k)
  exact ⟨_, hexec, hl.valid, hl.toNat_cc, hl.pb, hpal, hmap, hl.leaves⟩

/-! ### What SETDS and the loads leave alone -/

/-- A load and SETDS reach neither the frames, nor the working state, nor the colour primitives. -/
theorem exec_leaves_frames {i : Instr} {s t : State} (hi : loadsPalette i = true ∨ ∃ v, i = .setds v)
    (h : exec i s = .next t) : t.frm = s.frm ∧ t.work = s.work ∧ SamePrimitives s t := by
  obtain hload | ⟨v, rfl⟩ := hi
  · obtain ⟨_, _, _, hl⟩ := exec_load hload h
    obtain ⟨-, -, hprim, -, hwork, hfrm⟩ := hl.leaves
    exact ⟨hfrm, hwork, hprim⟩
  · obtain ⟨-, rfl⟩ := execSetds_next h
    exact ⟨rfl, rfl, ⟨rfl, rfl, rfl⟩⟩

/-- Settles O38, by the finish step of a load, the answer of SETDS, and R45's table for the other commands. -/
theorem loadsAndSetdsLeave : Obligations.LoadsAndSetdsLeave := by
  refine ⟨fun v s t h => ?setds, fun i s t hi h => ?load, fun i s t => exec_leaves_frames, fun i s t hi h => ?other⟩
  case setds =>
    obtain ⟨-, rfl⟩ := execSetds_next h
    exact ⟨rfl, rfl, rfl, rfl⟩
  case load =>
    obtain ⟨_, _, _, hl⟩ := exec_load hi h
    obtain ⟨-, hds, -⟩ := hl.leaves
    exact hds
  case other =>
    obtain ⟨hpalette, hgam, -⟩ := writersOfEachState i s t h
    obtain ⟨hcc, hpb, hpal, hmap, -⟩ := hpalette hi
    exact ⟨hpal, hmap, hcc, hpb, hgam hi⟩

end Sys2Proof.Machine
end

section
/-! SUPPORT. The nearest-colour index (41_palette_load.md R154, R155): which slot the pre-marks leave at a key, and
which slot the search finds. -/

namespace Sys2Proof.Machine

open Sys2Proof

/-! ### The pre-marks (R154) -/

/-- Slot `j`, one from 1 up, marks the key `k` in a palette of `cc` slots. -/
def Marks (pal : Memory 32) (cc : Nat) (k : Key) (j : Nat) : Prop :=
  1 ≤ j ∧ j < cc ∧ isOpaque (Memory.read pal j) = true ∧ shrink (Memory.read pal j) = k

theorem premark_succ (pal : Memory 32) (n : Nat) :
    premark pal (n + 1) =
      if isOpaque (Memory.read pal n) then
        Memory.write (premark pal n) (shrink (Memory.read pal n)).toNat (BitVec.ofNat 8 n)
      else premark pal n := by
  simp only [premark, List.range_succ, List.foldl_append, List.foldl_cons, List.foldl_nil]

theorem wf_premark (pal : Memory 32) (cc : Nat) : Memory.wf mapSize (premark pal cc) = true := by
  induction cc with
  | zero => rfl
  | succ n ih =>
    rw [premark_succ]
    split
    · exact Memory.wf_write ih (toNat_key_lt _)
    · exact ih

/-- The last slot writes its own key. -/
theorem read_premark_succ (pal : Memory 32) (n : Nat) (k : Key) :
    Memory.read (premark pal (n + 1)) k.toNat =
      if isOpaque (Memory.read pal n) = true ∧ shrink (Memory.read pal n) = k then BitVec.ofNat 8 n
      else Memory.read (premark pal n) k.toNat := by
  rw [premark_succ]
  by_cases hop : isOpaque (Memory.read pal n) = true
  · simp only [hop, if_true, true_and, Memory.read_write (wf_premark pal n), BitVec.toNat_inj, eq_comm]
  · simp only [hop, Bool.false_eq_true, if_false, false_and]

/-- The pre-marks leave the highest slot that marks a key; a key that no slot from 1 up marks still reads 0. -/
theorem read_premark {pal : Memory 32} {cc : Nat} (hcc : cc ≤ 256) (k : Key) :
    ((Memory.read (premark pal cc) k.toNat).toNat = 0 ∧ ∀ j, ¬Marks pal cc k j) ∨
      (Marks pal cc k (Memory.read (premark pal cc) k.toNat).toNat ∧
        ∀ j, Marks pal cc k j → j ≤ (Memory.read (premark pal cc) k.toNat).toNat) := by
  induction cc with
  | zero => exact .inl ⟨rfl, fun j ⟨_, hj, _⟩ => absurd hj (Nat.not_lt_zero j)⟩
  | succ n ih =>
    have hbyte : (BitVec.ofNat 8 n).toNat = n := Nat.mod_eq_of_lt hcc
    rw [read_premark_succ]
    split
    case isTrue hown =>
      rw [hbyte]
      obtain rfl | hn := Nat.eq_zero_or_pos n
      · exact .inl ⟨rfl, fun j ⟨hj1, hj, _⟩ => by omega⟩
      · exact .inr ⟨⟨hn, n.lt_succ_self, hown⟩, fun j ⟨_, hj, _⟩ => Nat.lt_succ_iff.mp hj⟩
    case isFalse hother =>
      have hsame (j : Nat) : Marks pal (n + 1) k j ↔ Marks pal n k j := by
        refine ⟨fun ⟨hj1, hj, hmark⟩ => ⟨hj1, ?_, hmark⟩,
          fun ⟨hj1, hj, hmark⟩ => ⟨hj1, hj.trans n.lt_succ_self, hmark⟩⟩
        exact (Nat.lt_succ_iff_lt_or_eq.mp hj).resolve_right fun hjn => hother (hjn ▸ hmark)
      simp only [hsame]
      exact ih (by omega)

/-! ### The search (R155) -/

/-- What the search has found before slot `n` when slot `j` is at the distance `d j`: nothing below `+inf`, or the
lowest slot at the least distance. -/
structure Nearest (d : Nat → FP) (n : Nat) (best : FP × Nat) : Prop where
  found : best = (FP.posInf, 0) ∨
    1 ≤ best.2 ∧ best.2 < n ∧ best.1 = d best.2 ∧ FP.lt best.1 FP.posInf = true
  least : ∀ j, 1 ≤ j → j < n → FP.lt (d j) best.1 = false
  lowest : ∀ j, 1 ≤ j → j < best.2 → FP.lt best.1 (d j) = true ∨ (d j).isNan = true

theorem nearest_one (d : Nat → FP) : Nearest d 1 (FP.posInf, 0) where
  found := .inl rfl
  least := fun j hj1 hj => absurd hj (by omega)
  lowest := fun j _ hj => absurd hj (Nat.not_lt_zero j)

/-- A slot that is not nearer changes nothing. -/
theorem Nearest.keep {d : Nat → FP} {n : Nat} {best : FP × Nat} (h : Nearest d n best)
    (hd : FP.lt (d n) best.1 = false) : Nearest d (n + 1) best where
  found := h.found.imp id fun ⟨h1, hn, hbest⟩ => ⟨h1, hn.trans n.lt_succ_self, hbest⟩
  least := fun j hj1 hj => by
    obtain hj | rfl := Nat.lt_succ_iff_lt_or_eq.mp hj
    · exact h.least j hj1 hj
    · exact hd
  lowest := h.lowest

/-- A slot that is nearer takes the place of the best, since the comparison is strict and transitive. -/
theorem Nearest.replace {d : Nat → FP} {n : Nat} {best : FP × Nat} (h : Nearest d n best) (hn : 1 ≤ n)
    (hd : FP.lt (d n) best.1 = true) : Nearest d (n + 1) (d n, n) where
  found := by
    refine .inr ⟨hn, n.lt_succ_self, rfl, ?_⟩
    obtain rfl | ⟨-, -, -, hfin⟩ := h.found
    · exact hd
    · exact FP.lt_trans hd hfin
  least := fun j hj1 hj => Bool.eq_false_iff.mpr fun hlt => by
    obtain hj | rfl := Nat.lt_succ_iff_lt_or_eq.mp hj
    · exact Bool.eq_false_iff.mp (h.least j hj1 hj) (FP.lt_trans hlt hd)
    · exact Bool.eq_false_iff.mp (FP.lt_irrefl _) hlt
  lowest := fun j hj1 hj => FP.lt_or_isNan_of_not_lt hd (h.least j hj1 hj)

/-- What has been found, by its slot alone. -/
theorem Nearest.cases {d : Nat → FP} {n m : Nat} {b : FP} (h : Nearest d n (b, m)) :
    (1 ≤ m ∧ m < n ∧ FP.lt (d m) FP.posInf = true ∧ (∀ j, 1 ≤ j → j < n → FP.lt (d j) (d m) = false) ∧
      ∀ j, 1 ≤ j → j < m → FP.lt (d m) (d j) = true ∨ (d j).isNan = true) ∨
    (m = 0 ∧ ∀ j, 1 ≤ j → j < n → FP.lt (d j) FP.posInf = false) := by
  obtain ⟨hfound, hleast, hlowest⟩ := h
  obtain hnone | ⟨hm1, hm, hb, hfin⟩ := hfound
  · obtain ⟨rfl, rfl⟩ := Prod.mk.inj hnone
    exact .inr ⟨rfl, hleast⟩
  · obtain rfl : b = d m := hb
    exact .inl ⟨hm1, hm, hfin, hleast, hlowest⟩

/-- The distance of slot `j` from a key (R125, R155). -/
def slotDistance (pal : Memory 32) (k : Key) (j : Nat) : FP :=
  diff3 (Memory.read pal j) (up5 (keyRed k)) (up5 (keyGreen k)) (up5 (keyBlue k))

/-- One candidate of the search for a key: the channels of the stretched key are those of `slotDistance`. -/
theorem nearer_stretch (pal : Memory 32) (k : Key) (best : FP × Nat) (i : Nat) :
    nearer pal (stretch k) best i =
      if FP.lt (slotDistance pal k i) best.1 then (slotDistance pal k i, i) else best := by
  rw [nearer, stretch, redOf_rgba, greenOf_rgba, blueOf_rgba]
  rfl

theorem nearest_foldl_nearer (pal : Memory 32) (k : Key) (len : Nat) :
    Nearest (slotDistance pal k) (1 + len) ((List.range' 1 len).foldl (nearer pal (stretch k)) (FP.posInf, 0)) := by
  induction len with
  | zero => exact nearest_one _
  | succ len ih =>
    rw [List.range'_1_concat, List.foldl_append, List.foldl_cons, List.foldl_nil, nearer_stretch]
    split
    case isTrue hd => exact ih.replace (Nat.le_add_right 1 len) hd
    case isFalse hd => exact ih.keep (Bool.eq_false_iff.mpr hd)

/-- The search for a key walks the slots 1 to `cc - 1` (R155). -/
theorem nearest_searchKey (pal : Memory 32) {cc : Nat} (hcc : 1 ≤ cc) (k : Key) :
    ∃ b, Nearest (slotDistance pal k) cc (b, searchKey pal cc k) := by
  have h := nearest_foldl_nearer pal k (cc - 1)
  rw [Nat.add_sub_cancel' hcc] at h
  exact ⟨_, h⟩

/-! ### The index -/

/-- An entry of the index is its mark where that is not 0, and the search's answer otherwise. -/
theorem toNat_read_buildIndex {pal : Memory 32} {cc : Nat} (hcc1 : 1 ≤ cc) (hcc : cc ≤ 256) (k : Key) :
    (Memory.read (buildIndex pal cc) k.toNat).toNat =
      if (Memory.read (premark pal cc) k.toNat).toNat = 0 then searchKey pal cc k
      else (Memory.read (premark pal cc) k.toNat).toNat := by
  have hzero : Memory.read (premark pal cc) k.toNat = 0#8 ↔ (Memory.read (premark pal cc) k.toNat).toNat = 0 :=
    BitVec.toNat_eq
  have hlt : searchKey pal cc k < 256 := by
    obtain ⟨b, hb⟩ := nearest_searchKey pal hcc1 k
    obtain ⟨-, hm, -⟩ | ⟨hm, -⟩ := hb.cases <;> omega
  rw [read_buildIndex, if_pos (toNat_key_lt k), BitVec.ofNat_toNat, BitVec.setWidth_eq]
  simp only [hzero]
  split
  · exact Nat.mod_eq_of_lt hlt
  · rfl

/-- Settles O31: a marked key keeps its highest mark, and any other key is searched. -/
theorem indexNamesNearest : Obligations.IndexNamesNearest := by
  intro i s t hi h k
  obtain ⟨pal, cc, hl⟩ : ∃ pal cc, Loaded s t pal (buildIndex pal cc) cc := by
    obtain ⟨n, rfl⟩ | ⟨l, v, rfl⟩ := hi
    · obtain ⟨src, plen, hl⟩ := execExact_loaded h
      exact ⟨_, _, hl⟩
    · exact execAnalyze_loaded h
  have hcc1 : 1 ≤ cc := Nat.le_of_succ_le hl.two_le
  simp only [hl.palAt, hl.mapAt, hl.toNat_cc, toNat_read_buildIndex hcc1 hl.le_256]
  obtain ⟨hzero, hnone⟩ | ⟨hmark, hhighest⟩ := read_premark (pal := pal) hl.le_256 k
  · rw [if_pos hzero]
    obtain ⟨b, hb⟩ := nearest_searchKey pal hcc1 k
    exact ⟨fun ⟨j, hj⟩ => absurd hj (hnone j), fun _ => hb.cases⟩
  · rw [if_neg (Nat.ne_of_gt hmark.1)]
    exact ⟨fun _ => ⟨hmark, hhighest⟩, fun hno => absurd ⟨_, hmark⟩ hno⟩

end Sys2Proof.Machine
end

section
/-! SUPPORT. The tally of ANALYZE (41_palette_load.md R158, R159): its entries are the distinct colours in the order
met, each with how often it was met, and its sort is stable. -/

namespace Sys2Proof.Machine

open Sys2Proof

/-! ### The distinct colours in the order met -/

/-- Each colour of a list once, where it is met first. -/
def firstMet (seen : List Word32) : List Word32 := seen.reverse.dedup.reverse

theorem mem_firstMet {seen : List Word32} {c : Word32} : c ∈ firstMet seen ↔ c ∈ seen := by
  simp [firstMet]

theorem nodup_firstMet (seen : List Word32) : (firstMet seen).Nodup :=
  List.nodup_reverse.mpr (List.nodup_dedup _)

theorem length_firstMet (seen : List Word32) : (firstMet seen).length = seen.dedup.length := by
  rw [firstMet, List.length_reverse]
  exact (List.reverse_perm seen).dedup.length_eq

/-- A colour met again adds nothing; a new one comes last. -/
theorem firstMet_concat (seen : List Word32) (c : Word32) :
    firstMet (seen ++ [c]) = if c ∈ seen then firstMet seen else firstMet seen ++ [c] := by
  rw [firstMet, List.reverse_append, List.reverse_singleton, List.singleton_append]
  by_cases hc : c ∈ seen
  · rw [if_pos hc, List.dedup_cons_of_mem (List.mem_reverse.mpr hc), firstMet]
  · rw [if_neg hc, List.dedup_cons_of_notMem (mt List.mem_reverse.mp hc), List.reverse_cons, firstMet]

theorem pairwise_firstMet (seen : List Word32) :
    (firstMet seen).Pairwise (fun a b => seen.idxOf a < seen.idxOf b) := by
  induction seen using List.reverseRecOn with
  | nil => exact List.Pairwise.nil
  | append_singleton seen c ih =>
    have hold : (firstMet seen).Pairwise (fun a b => (seen ++ [c]).idxOf a < (seen ++ [c]).idxOf b) :=
      ih.imp_of_mem fun ha hb hab => by
        rwa [List.idxOf_append_of_mem (mem_firstMet.mp ha), List.idxOf_append_of_mem (mem_firstMet.mp hb)]
    rw [firstMet_concat]
    split
    · exact hold
    · rename_i hc
      refine List.pairwise_append.mpr ⟨hold, List.pairwise_singleton .., fun a ha b hb => ?_⟩
      obtain rfl := List.mem_singleton.mp hb
      have ha := mem_firstMet.mp ha
      rw [List.idxOf_append_of_mem ha, List.idxOf_append_of_notMem hc]
      exact (List.idxOf_lt_length_of_mem ha).trans_le (Nat.le_add_right ..)

/-! ### Counting -/

/-- The count map of a list of colours (R158). -/
def countColours (seen : List Word32) : List (Word32 × Nat) := seen.foldl (fun l c => countColour c l) []

/-- Counting `c` in a list of distinct colours with their counts `f`. -/
theorem countColour_map {ks : List Word32} (hks : ks.Nodup) (f : Word32 → Nat) {c : Word32} (hc : c ∉ ks → f c = 0) :
    countColour c (ks.map fun d => (d, f d)) =
      (if c ∈ ks then ks else ks ++ [c]).map fun d => (d, f d + if d = c then 1 else 0) := by
  induction ks with
  | nil => simp [countColour, hc]
  | cons d ks ih =>
    obtain ⟨hd, hks⟩ := List.nodup_cons.mp hks
    rw [List.map_cons, countColour]
    split
    case isTrue hdc =>
      subst hdc
      have hrest : ∀ e ∈ ks, (e, f e) = (e, f e + if e = d then 1 else 0) := fun e he => by
        rw [if_neg (fun hed : e = d => hd (hed ▸ he)), Nat.add_zero]
      rw [if_pos List.mem_cons_self, List.map_cons, if_pos rfl, List.map_congr_left hrest]
    case isFalse hdc =>
      have hmem : c ∈ d :: ks ↔ c ∈ ks := by simp [Ne.symm hdc]
      rw [ih hks (fun hcks => hc (mt hmem.mp hcks))]
      by_cases hcks : c ∈ ks <;> simp [hcks, hdc, Ne.symm hdc]

/-- The count map lists the colours in the order met, each with how often it was met. -/
theorem countColours_eq (seen : List Word32) :
    countColours seen = (firstMet seen).map fun c => (c, seen.count c) := by
  induction seen using List.reverseRecOn with
  | nil => rfl
  | append_singleton seen c ih =>
    have hnew : c ∉ firstMet seen → seen.count c = 0 := fun hc => List.count_eq_zero.mpr (mt mem_firstMet.mpr hc)
    rw [countColours, List.foldl_append, List.foldl_cons, List.foldl_nil, ← countColours, ih,
      countColour_map (nodup_firstMet seen) _ hnew, firstMet_concat]
    simp only [mem_firstMet, List.count_append, List.count_singleton, beq_iff_eq, eq_comm (a := c)]

/-! ### The tally of the frames -/

/-- The tally ANALYZE takes of its frames (R158). -/
def tallyOf (frames : List Frame) : Tally := frames.foldl tallyFrame ⟨[], false⟩

/-- A frame is counted pixel by pixel in raster order. -/
theorem tallyFrame_eq (t : Tally) (fr : Frame) : tallyFrame t fr = (frameWords fr).foldl tallyPixel t := by
  simp only [tallyFrame, frameWords, List.foldl_flatMap, List.foldl_map]

theorem foldl_tallyPixel (px : List Word32) (t : Tally) :
    px.foldl tallyPixel t =
      ⟨((px.filter isOpaque).map asnap).foldl (fun l c => countColour c l) t.counts,
        t.hasTransparent || px.any fun c => !isOpaque c⟩ := by
  induction px generalizing t with
  | nil => simp
  | cons c px ih =>
    rw [List.foldl_cons, ih, tallyPixel]
    cases hc : isOpaque c <;> simp [hc]

theorem tallyOf_eq (frames : List Frame) :
    tallyOf frames = ⟨countColours (analyzedColours frames), sawTransparent frames⟩ := by
  have hpixels : tallyOf frames = (framePixels frames).foldl tallyPixel ⟨[], false⟩ := by
    simp only [tallyOf, framePixels, List.foldl_flatMap, ← tallyFrame_eq]
  rw [hpixels, foldl_tallyPixel]
  rfl

theorem distinct_tallyOf (frames : List Frame) : (tallyOf frames).distinct = distinctColours frames := by
  rw [tallyOf_eq, Tally.distinct, countColours_eq, List.length_map, length_firstMet, distinctColours]

theorem hasTransparent_tallyOf (frames : List Frame) : (tallyOf frames).hasTransparent = sawTransparent frames := by
  rw [tallyOf_eq]

theorem transparent_tallyOf (frames : List Frame) : (tallyOf frames).transparent = transparentCount frames := by
  rw [Tally.transparent, hasTransparent_tallyOf, transparentCount]

/-- The early exit of R160, in the terms of what ANALYZE sees. -/
theorem earlyExit_tallyOf_iff {frames : List Frame} :
    earlyExit (tallyOf frames) = true ↔ distinctColours frames + transparentCount frames < 2 := by
  rw [earlyExit, distinct_tallyOf, transparent_tallyOf]
  exact decide_eq_true_iff

theorem earlyExit_tallyOf_eq_false {frames : List Frame} (h : 2 ≤ distinctColours frames + transparentCount frames) :
    earlyExit (tallyOf frames) = false :=
  Bool.eq_false_iff.mpr (mt earlyExit_tallyOf_iff.mp (not_lt.mpr h))

/-! ### The sort (R159) -/

section Stable

variable {α : Type} {f : α → Nat} {R : α → α → Prop}

/-- Inserting `a` by descending `f`, into a list whose ties stand in the order `R`, puts it before its ties. -/
theorem pairwise_orderedInsert_desc {a : α} {l : List α} (ha : ∀ b ∈ l, R a b)
    (hl : l.Pairwise fun x y => f y < f x ∨ f y = f x ∧ R x y) :
    (l.orderedInsert (fun x y => f y ≤ f x) a).Pairwise fun x y => f y < f x ∨ f y = f x ∧ R x y := by
  induction l with
  | nil => exact List.pairwise_singleton ..
  | cons b l ih =>
    obtain ⟨hb, hl'⟩ := List.pairwise_cons.mp hl
    rw [List.orderedInsert_cons]
    split
    case isTrue hab =>
      refine List.pairwise_cons.mpr ⟨fun x hx => ?_, hl⟩
      have hxa : f x ≤ f a := by
        obtain rfl | hx := List.mem_cons.mp hx
        · exact hab
        · obtain hlt | ⟨heq, -⟩ := hb x hx <;> omega
      exact hxa.lt_or_eq.imp id fun heq => ⟨heq, ha x hx⟩
    case isFalse hab =>
      refine List.pairwise_cons.mpr ⟨fun x hx => ?_, ih (fun x hx => ha x (List.mem_cons_of_mem b hx)) hl'⟩
      obtain rfl | hx := (List.mem_orderedInsert _).mp hx
      · exact .inl (not_le.mp hab)
      · exact hb x hx

/-- The insertion sort is stable: of two elements that tie, the one that stood first comes first. -/
theorem pairwise_insertionSort_desc {l : List α} (hl : l.Pairwise R) :
    (l.insertionSort fun x y => f y ≤ f x).Pairwise fun x y => f y < f x ∨ f y = f x ∧ R x y := by
  induction l with
  | nil => exact List.Pairwise.nil
  | cons a l ih =>
    obtain ⟨ha, hl⟩ := List.pairwise_cons.mp hl
    exact pairwise_orderedInsert_desc (fun b hb => ha b ((List.mem_insertionSort _).mp hb)) (ih hl)

end Stable

/-- The sorted colours are the distinct ones by descending count (R159). -/
theorem sortedColours_tallyOf (frames : List Frame) :
    sortedColours (tallyOf frames) =
      (firstMet (analyzedColours frames)).insertionSort
        (fun a b => (analyzedColours frames).count b ≤ (analyzedColours frames).count a) := by
  rw [sortedColours, tallyOf_eq, countColours_eq,
    ← List.map_insertionSort (r := fun a b => (analyzedColours frames).count b ≤ (analyzedColours frames).count a),
    List.map_map]
  · exact List.map_id _
  · exact fun _ _ _ _ => Iff.rfl

theorem mem_sortedColours {frames : List Frame} {c : Word32} :
    c ∈ sortedColours (tallyOf frames) ↔ c ∈ analyzedColours frames := by
  rw [sortedColours_tallyOf, List.mem_insertionSort, mem_firstMet]

/-- They stand in the order of R159. -/
theorem pairwise_sortedColours (frames : List Frame) :
    (sortedColours (tallyOf frames)).Pairwise (sortsBefore (analyzedColours frames)) := by
  rw [sortedColours_tallyOf]
  exact pairwise_insertionSort_desc (pairwise_firstMet _)

end Sys2Proof.Machine
end

section
/-! SUPPORT. ANALYZE (41_palette_load.md R157, R160 to R162): what it answers, the slots a list of colours fills, and
the greedy walk. -/

namespace Sys2Proof.Machine

open Sys2Proof

/-! ### What ANALYZE answers -/

theorem exec_analyze_of_present {l : BitVec 16} {v : Word32} {s : State} {frames : List Frame} (hv : v.toNat < 2 ^ 31)
    (h2 : 2 ≤ l.toNat) (h256 : l.toNat ≤ 256) (hf : analyzedFrames s = some frames) :
    exec (.analyze l v) s = .next (analyzeFrames frames l.toNat v s) := by
  have hmsb : v.msb = false := by
    rw [BitVec.msb_eq_false_iff_two_mul_lt]
    omega
  have hrange : (l.toNat < 2 || l.toNat > 256) = false := by
    simp only [Bool.or_eq_false_iff, decide_eq_false_iff_not]
    omega
  show execAnalyze l v s = _
  simp only [execAnalyze, hmsb, hrange, hf, Bool.false_eq_true, if_false]

theorem exec_analyze_next {l : BitVec 16} {v : Word32} {s t : State} {frames : List Frame}
    (hf : analyzedFrames s = some frames) (h : exec (.analyze l v) s = .next t) :
    2 ≤ l.toNat ∧ l.toNat ≤ 256 ∧ t = analyzeFrames frames l.toNat v s := by
  have h : execAnalyze l v s = .next t := h
  simp only [execAnalyze, hf] at h
  split at h
  · cases h
  · split at h
    · cases h
    · rename_i hl
      simp only [Bool.or_eq_true, decide_eq_true_eq, not_or, not_lt] at hl
      exact ⟨hl.1, hl.2, by simpa [eq_comm] using h⟩

theorem analyzeFrames_of_early {frames : List Frame} (limit : Nat) (v : Word32) (s : State)
    (h : distinctColours frames + transparentCount frames < 2) :
    analyzeFrames frames limit v s = loadHaltonic s :=
  if_pos (earlyExit_tallyOf_iff.mpr h)

/-- With two colours or more, the slots that step 3 selects are loaded with their index. -/
theorem analyzeFrames_of_not_early {frames : List Frame} (limit : Nat) (v : Word32) (s : State)
    (h : 2 ≤ distinctColours frames + transparentCount frames) :
    analyzeFrames frames limit v s =
      loadIndexed (paletteOf (selectColours limit v (tallyOf frames)))
        (selectColours limit v (tallyOf frames)).length s :=
  if_neg (Bool.eq_false_iff.mp (earlyExit_tallyOf_eq_false h))

/-- Settles O34: ANALYZE is one finish step, that of the fallback with fewer than two colours. -/
theorem analyzeCompletes : Obligations.AnalyzeCompletes := by
  intro l v s frames h2 h256 hv hf
  have hexec := exec_analyze_of_present hv h2 h256 hf
  obtain ⟨pal, cc, hl⟩ := execAnalyze_loaded hexec
  obtain ⟨hgam, hds, hprim, hinputs, hwork, hfrm⟩ := hl.leaves
  refine ⟨_, hexec, hl.valid, hl.toNat_cc ▸ hl.two_le, hl.toNat_cc ▸ hl.le_256, hl.toNat_cc ▸ hl.pb, hgam, hds,
    fun j hj => ?tail, hprim, hinputs, hwork, hfrm, fun hearly => ?fallback⟩
  case tail =>
    rw [hl.palAt]
    exact hl.tail j (hl.toNat_cc ▸ hj)
  case fallback =>
    rw [analyzeFrames_of_early _ _ _ hearly]
    exact loadHaltonic_palette s

/-! ### The slots a list of colours fills -/

/-- The slots of the palette from `h` up to the count hold the colours `cs` in their order. -/
structure HoldsFrom (t : State) (h : Nat) (cs : List Word32) : Prop where
  count : t.cc.toNat = h + cs.length
  slot : ∀ j (hj : j < cs.length), palAt t (h + j) = cs[j]

theorem HoldsFrom.mem_iff {t : State} {h : Nat} {cs : List Word32} (ht : HoldsFrom t h cs) {c : Word32} :
    c ∈ cs ↔ ∃ j, h ≤ j ∧ j < t.cc.toNat ∧ palAt t j = c := by
  rw [List.mem_iff_getElem, ht.count]
  constructor
  · rintro ⟨j, hj, rfl⟩
    exact ⟨h + j, by omega, by omega, ht.slot j hj⟩
  · rintro ⟨j, hh, hj, rfl⟩
    obtain ⟨i, rfl⟩ := Nat.exists_eq_add_of_le hh
    exact ⟨i, by omega, (ht.slot i (by omega)).symm⟩

/-- What holds of every colour in the list before another holds of their slots. -/
theorem HoldsFrom.pairwise {t : State} {h : Nat} {cs : List Word32} {R : Word32 → Word32 → Prop}
    (ht : HoldsFrom t h cs) (hcs : cs.Pairwise R) {i j : Nat} (hi : h ≤ i) (hij : i < j) (hj : j < t.cc.toNat) :
    R (palAt t i) (palAt t j) := by
  rw [ht.count] at hj
  obtain ⟨i, rfl⟩ := Nat.exists_eq_add_of_le hi
  obtain ⟨j, rfl⟩ := Nat.exists_eq_add_of_le (hi.trans hij.le)
  rw [ht.slot i (by omega), ht.slot j (by omega)]
  exact List.pairwise_iff_getElem.mp hcs i j _ _ (by omega)

/-- A load of a list of colours puts them in the slots from 0 up. -/
theorem holdsFrom_loadIndexed {cs : List Word32} (h : cs.length ≤ palSize) (s : State) :
    HoldsFrom (loadIndexed (paletteOf cs) cs.length s) 0 cs where
  count := (toNat_ofNat_count h).trans (Nat.zero_add _).symm
  slot := fun j hj => by
    have hread : palAt (loadIndexed (paletteOf cs) cs.length s) (0 + j) = Memory.read (paletteOf cs) (0 + j) := rfl
    rw [hread, Nat.zero_add, read_paletteOf, if_pos (hj.trans_le h), List.getD_eq_getElem _ _ hj]

/-- Behind a first part of the list. -/
theorem HoldsFrom.drop {t : State} {xs cs : List Word32} (ht : HoldsFrom t 0 (xs ++ cs)) :
    HoldsFrom t xs.length cs where
  count := by rw [ht.count, Nat.zero_add, List.length_append]
  slot := fun j hj => by
    have hslot := ht.slot (xs.length + j) (by rw [List.length_append]; omega)
    rw [Nat.zero_add] at hslot
    rw [hslot, List.getElem_append_right (Nat.le_add_right ..)]
    simp only [Nat.add_sub_cancel_left]

theorem reserved_eq_true_iff {t : State} : reserved t = true ↔ palAt t 0 = 0#32 := beq_iff_eq

/-- A list that begins with the zero colour leaves slot 0 reserved (R27). -/
theorem HoldsFrom.reserved {t : State} {cs : List Word32} (ht : HoldsFrom t 0 (0#32 :: cs)) : reserved t = true :=
  reserved_eq_true_iff.mpr (ht.slot 0 (Nat.succ_pos _))

/-- The palette ANALYZE leaves with two colours or more is the list that step 3 selects. -/
theorem exec_analyze_holdsFrom {l : BitVec 16} {v : Word32} {s t : State} {frames : List Frame}
    (hf : analyzedFrames s = some frames) (h : exec (.analyze l v) s = .next t)
    (h2 : 2 ≤ distinctColours frames + transparentCount frames) :
    HoldsFrom t 0 (selectColours l.toNat v (tallyOf frames)) := by
  obtain ⟨hl2, hl256, rfl⟩ := exec_analyze_next hf h
  have hlen := (length_selectColours v (earlyExit_tallyOf_eq_false h2) hl2).2
  rw [analyzeFrames_of_not_early _ _ _ h2]
  exact holdsFrom_loadIndexed (hlen.trans hl256) s

/-! ### The adopt branch -/

/-- The slots of step 3 where every colour fits (R161). -/
theorem selectColours_of_fits {limit : Nat} (v : Word32) {frames : List Frame}
    (h : distinctColours frames + transparentCount frames ≤ limit) :
    selectColours limit v (tallyOf frames) =
      List.replicate (transparentCount frames) 0#32 ++ sortedColours (tallyOf frames) := by
  rw [selectColours, distinct_tallyOf, transparent_tallyOf, if_pos h, hasTransparent_tallyOf, transparentCount]
  cases sawTransparent frames <;> rfl

/-- A snapped colour is opaque, so it is not the zero colour (R96). -/
theorem ne_zero_of_mem_analyzedColours {frames : List Frame} {c : Word32} (h : c ∈ analyzedColours frames) :
    c ≠ 0#32 := by
  obtain ⟨d, -, rfl⟩ := List.mem_map.mp h
  have halpha : alphaOf (asnap d) = 0xFF#8 := by rw [asnap_eq, alphaOf_rgba]
  intro hzero
  rw [hzero] at halpha
  exact absurd halpha (by decide)

/-- Settles O35: the sorted colours stand behind the reserved slot, if there is one. -/
theorem analyzeAdopts : Obligations.AnalyzeAdopts := by
  intro l v s t frames hf h h2 hfits
  have hall := exec_analyze_holdsFrom hf h h2
  rw [selectColours_of_fits v hfits] at hall
  have hsorted := hall.drop
  rw [List.length_replicate] at hsorted
  have hcount := hsorted.count
  rw [length_sortedColours, distinct_tallyOf, Nat.add_comm] at hcount
  refine ⟨hcount, ?reserved, fun c => mem_sortedColours.symm.trans hsorted.mem_iff,
    fun i j hi hij hj => hsorted.pairwise (pairwise_sortedColours frames) hi hij hj⟩
  case reserved =>
    cases hsaw : sawTransparent frames with
    | true =>
      have hone : transparentCount frames = 1 := by rw [transparentCount, hsaw]; rfl
      rw [hone] at hall
      exact hall.reserved
    | false =>
      have hnone : transparentCount frames = 0 := by rw [transparentCount, hsaw]; rfl
      have hfirst : palAt t 0 ∈ sortedColours (tallyOf frames) :=
        hsorted.mem_iff.mpr ⟨0, hnone.le, by omega, rfl⟩
      rw [← Bool.not_eq_true, reserved_eq_true_iff]
      exact ne_zero_of_mem_analyzedColours (mem_sortedColours.mp hfirst)

/-! ### The greedy branch -/

/-- The slots of step 3 where not every colour fits (R161). -/
theorem selectColours_of_exceeds {limit : Nat} (v : Word32) {frames : List Frame}
    (h : limit < distinctColours frames + transparentCount frames) :
    selectColours limit v (tallyOf frames) =
      0#32 :: greedySelect limit (FP.ofInt (v.toNat / 4 : Nat)) (sortedColours (tallyOf frames)) [] := by
  rw [selectColours, distinct_tallyOf, transparent_tallyOf, if_neg (not_le.mpr h), BitVec.toNat_ushiftRight,
    Nat.shiftRight_eq_div_pow]

section Greedy

variable {limit : Nat} {tp : FP}

/-- One colour of the walk: the list is full, or the colour is accepted, or it is passed over for an accepted one. -/
theorem greedySelect_cons_cases (c : Word32) (rest acc : List Word32) :
    (limit ≤ acc.length + 1 ∧ greedySelect limit tp (c :: rest) acc = acc) ∨
      (acc.length + 1 < limit ∧ (∀ p ∈ acc, FP.lt (diff c p) tp = false) ∧
        greedySelect limit tp (c :: rest) acc = greedySelect limit tp rest (acc ++ [c])) ∨
      (∃ p ∈ acc, FP.lt (diff c p) tp = true) ∧
        greedySelect limit tp (c :: rest) acc = greedySelect limit tp rest acc := by
  rw [greedySelect]
  split
  · rename_i hroom
    cases hfar : farFromAll tp c acc with
    | true => exact .inr (.inl ⟨hroom, by simpa [farFromAll] using hfar, rfl⟩)
    | false => exact .inr (.inr ⟨by simpa [farFromAll] using hfar, rfl⟩)
  · exact .inl ⟨by omega, rfl⟩

/-- The walk keeps what it has accepted, in front, and adds colours of the list in its order. -/
theorem greedySelect_eq_append (l acc : List Word32) :
    ∃ new, greedySelect limit tp l acc = acc ++ new ∧ new.Sublist l := by
  induction l generalizing acc with
  | nil => exact ⟨[], (List.append_nil _).symm, List.Sublist.slnil⟩
  | cons c rest ih =>
    obtain ⟨-, heq⟩ | ⟨-, -, heq⟩ | ⟨-, heq⟩ := greedySelect_cons_cases (limit := limit) (tp := tp) c rest acc
    · exact ⟨[], heq.trans (List.append_nil _).symm, List.nil_sublist _⟩
    · obtain ⟨new, hnew, hsub⟩ := ih (acc ++ [c])
      exact ⟨c :: new, by rw [heq, hnew, List.append_assoc, List.singleton_append], hsub.cons_cons c⟩
    · obtain ⟨new, hnew, hsub⟩ := ih acc
      exact ⟨new, heq.trans hnew, hsub.cons c⟩

theorem greedySelect_sublist (l : List Word32) : (greedySelect limit tp l []).Sublist l := by
  obtain ⟨new, heq, hsub⟩ := greedySelect_eq_append (limit := limit) (tp := tp) l []
  exact heq ▸ hsub

theorem mem_greedySelect_of_mem {p : Word32} {acc : List Word32} (hp : p ∈ acc) (l : List Word32) :
    p ∈ greedySelect limit tp l acc := by
  obtain ⟨new, heq, -⟩ := greedySelect_eq_append (limit := limit) (tp := tp) l acc
  exact heq ▸ List.mem_append_left new hp

/-- No colour of the walk is nearer than the threshold to an earlier one. -/
theorem pairwise_greedySelect (l : List Word32) {acc : List Word32}
    (h : acc.Pairwise fun p c => FP.lt (diff c p) tp = false) :
    (greedySelect limit tp l acc).Pairwise fun p c => FP.lt (diff c p) tp = false := by
  induction l generalizing acc with
  | nil => exact h
  | cons c rest ih =>
    obtain ⟨-, heq⟩ | ⟨-, hfar, heq⟩ | ⟨-, heq⟩ := greedySelect_cons_cases (limit := limit) (tp := tp) c rest acc
    · rwa [heq]
    · rw [heq]
      refine ih (List.pairwise_append.mpr ⟨h, List.pairwise_singleton .., fun p hp d hd => ?_⟩)
      exact List.mem_singleton.mp hd ▸ hfar p hp
    · rw [heq]
      exact ih h

/-- A colour of the list is accepted, or nearer than the threshold to an accepted colour before it, or the list of
accepted colours is full and all of them stand before it. -/
theorem greedySelect_covers {R : Word32 → Word32 → Prop} {l acc : List Word32} (hacc : acc.length + 1 ≤ limit)
    (hR : (acc ++ l).Pairwise R) {c : Word32} (hc : c ∈ l) :
    c ∈ greedySelect limit tp l acc ∨
      (∃ p ∈ greedySelect limit tp l acc, R p c ∧ FP.lt (diff c p) tp = true) ∨
      (1 + (greedySelect limit tp l acc).length = limit ∧ ∀ p ∈ greedySelect limit tp l acc, R p c) := by
  induction l generalizing acc with
  | nil => cases hc
  | cons d rest ih =>
    obtain ⟨-, -, hbefore⟩ := List.pairwise_append.mp hR
    obtain ⟨hfull, heq⟩ | ⟨hroom, -, heq⟩ | ⟨⟨p, hp, hnear⟩, heq⟩ :=
      greedySelect_cons_cases (limit := limit) (tp := tp) d rest acc
    · rw [heq]
      exact .inr (.inr ⟨by omega, fun p hp => hbefore p hp c hc⟩)
    · rw [heq]
      obtain rfl | hc := List.mem_cons.mp hc
      · exact .inl (mem_greedySelect_of_mem (List.mem_append_right acc List.mem_cons_self) rest)
      · exact ih (by simpa using hroom) (by simpa using hR) hc
    · rw [heq]
      obtain rfl | hc := List.mem_cons.mp hc
      · exact .inr (.inl ⟨p, mem_greedySelect_of_mem hp rest, hbefore p hp c List.mem_cons_self, hnear⟩)
      · exact ih hacc (hR.sublist ((List.sublist_cons_self d rest).append_left acc)) hc

end Greedy

/-- Settles O36: the accepted colours stand behind the reserved slot, and the walk has accepted or passed over every
seen colour unless it was full. -/
theorem analyzeSelectsGreedily : Obligations.AnalyzeSelectsGreedily := by
  intro l v s t frames hf h hexceeds seen tp
  obtain ⟨hl2, -, -⟩ := exec_analyze_next hf h
  have hroom : ([] : List Word32).length + 1 ≤ l.toNat := Nat.le_of_succ_le hl2
  have hall := exec_analyze_holdsFrom hf h (by omega)
  rw [selectColours_of_exceeds v hexceeds] at hall
  have hslots : HoldsFrom t 1 (greedySelect l.toNat tp (sortedColours (tallyOf frames)) []) :=
    hall.drop (xs := [0#32])
  have hsub := greedySelect_sublist (limit := l.toNat) (tp := tp) (sortedColours (tallyOf frames))
  have hsorted := pairwise_sortedColours frames
  refine ⟨hall.reserved, ?two_le, ?le_limit, fun j hj1 hj => ?seen, fun i j hi hij hj => ⟨?order, ?far⟩,
    fun c hc => ?cover⟩
  case two_le =>
    obtain ⟨_, _, hl⟩ := execAnalyze_loaded h
    exact hl.toNat_cc ▸ hl.two_le
  case le_limit =>
    obtain ⟨-, hlen⟩ := length_greedySelect tp (sortedColours (tallyOf frames)) [] hroom
    rw [hslots.count]
    omega
  case seen => exact mem_sortedColours.mp (hsub.subset (hslots.mem_iff.mpr ⟨j, hj1, hj, rfl⟩))
  case order => exact hslots.pairwise (hsorted.sublist hsub) hi hij hj
  case far => exact hslots.pairwise (pairwise_greedySelect _ List.Pairwise.nil) hi hij hj
  case cover =>
    obtain hin | ⟨p, hp, hbefore, hnear⟩ | ⟨hfull, hbefore⟩ :=
      greedySelect_covers (tp := tp) hroom hsorted (mem_sortedColours.mpr hc)
    · exact .inl (hslots.mem_iff.mp hin)
    · obtain ⟨j, hj1, hj, rfl⟩ := hslots.mem_iff.mp hp
      exact .inr (.inl ⟨j, hj1, hj, hbefore, hnear⟩)
    · exact .inr (.inr ⟨hslots.count.trans hfull,
        fun j hj1 hj => hbefore _ (hslots.mem_iff.mpr ⟨j, hj1, hj, rfl⟩)⟩)

end Sys2Proof.Machine
end

section
/-! SUPPORT. What a REDUCE leaves of a present frame (42_dither_common.md R190, R191, R195, R198), said once for the ten
commands; and the command a selector names (R196). -/

namespace Sys2Proof.Machine

open Sys2Proof

/-! ### The command a selector names (R105, R196) -/

/-- Every value past the last name is Scatter (R105). -/
theorem algorithmOf_of_six_le {sel : Word32} (h : 6 ≤ sel.toNat) : algorithmOf sel = .scatter := by
  unfold algorithmOf
  split
  case h_7 => rfl
  all_goals omega

/-- REDUCE is every command of the selected method on the same frame. -/
theorem exec_reduce_eq {i : Instr} {f : BitVec 16} {sel : Word32}
    (hi : ditherOf i = some (methodOf (algorithmOf sel), f)) (s : State) : exec (.reduce f sel) s = exec i s := by
  rw [exec_dither hi, exec_dither rfl]

/-- Settles O40: the selected command has the method the selector names. -/
theorem reduceDispatches : Obligations.ReduceDispatches := by
  refine ⟨fun f sel => decode_append 0x10#8 f sel, fun f s => ⟨exec_reduce_eq rfl s, exec_reduce_eq rfl s,
    exec_reduce_eq rfl s, exec_reduce_eq rfl s, exec_reduce_eq rfl s, exec_reduce_eq rfl s, fun sel hsel => ?scatter⟩⟩
  case scatter =>
    refine exec_reduce_eq ?_ s
    rw [algorithmOf_of_six_le hsel]
    rfl

/-! ### A present frame after a REDUCE -/

/-- What a REDUCE with the method `m` on the frame `fr` of slot `f` leaves: `t`, with the frame `g` in the slot. -/
structure Dithered (m : Method) (s : State) (f : Nat) (fr : Frame) (t : State) (g : Frame) : Prop where
  state : ∃ frm wk, t = s.setDithered frm wk
  frame : frameAt t f = some g
  others : ∀ j, j ≠ f → frameAt t j = frameAt s j
  wf : g.wf = true
  width : g.width = fr.width
  height : g.height = fr.height
  blend : g.blend = fr.blend
  index : ∀ x y, x < fr.width → y < fr.height → getIndex g x y = rasterIndex m s fr s.work x y
  pixel : ∀ x y, x < fr.width → y < fr.height → getPixel g x y = palAt s (getIndex g x y).toNat

/-- A frame without pixels has no place for one. -/
theorem Frame.not_isEmpty_of_lt {fr : Frame} {x y : Nat} (hx : x < fr.width) (hy : y < fr.height) :
    fr.isEmpty = false := by
  simp only [isEmpty, Bool.or_eq_false_iff, beq_eq_false_iff_ne]
  omega

theorem dithered_spec {m : Method} {s : State} {f : Nat} {fr : Frame} (hfr : frameAt s f = some fr)
    (hwf : fr.wf = true) : ∃ g, Dithered m s f fr (dithered m f fr s) g := by
  unfold dithered
  split
  case isTrue hempty =>
    have hnone {x y : Nat} (hx : x < fr.width) (hy : y < fr.height) : False := by
      simp [Frame.not_isEmpty_of_lt hx hy] at hempty
    exact ⟨fr, ⟨s.frm, s.work, rfl⟩, hfr, fun _ _ => rfl, hwf, rfl, rfl, rfl,
      fun _ _ hx hy => (hnone hx hy).elim, fun _ _ hx hy => (hnone hx hy).elim⟩
  case isFalse =>
    obtain ⟨hwidth, hheight, hblend, hwf', hpixels, -⟩ := ditherFrame_spec (m := m) (s := s) (wk := s.work) hwf
    have hfind (j : Nat) := Store.find_put s.frm f j (ditherFrame m s fr s.work).1
    refine ⟨_, ⟨_, _, rfl⟩, (hfind f).trans (if_pos rfl), fun j hj => (hfind j).trans (if_neg hj), hwf', hwidth,
      hheight, hblend, fun x y hx hy => (hpixels x y hx hy).1, fun x y hx hy => ?_⟩
    obtain ⟨hindex, hpixel⟩ := hpixels x y hx hy
    rw [hpixel, hindex]

section Command

variable {i : Instr} {dm : DitherMethod} {f : BitVec 16} {s t : State} {fr : Frame}

/-- A REDUCE of a present frame that answers (R190). -/
theorem exec_dither_next (hi : ditherOf i = some (dm, f)) (hfr : frameAt s f.toNat = some fr) (hwf : fr.wf = true)
    (h : exec i s = .next t) :
    s.valid = true ∧ f.toNat < Config.maxFrames ∧ ∃ g, Dithered (ditherMethod dm s) s f.toNat fr t g := by
  rw [exec_dither hi] at h
  obtain ⟨hv, hf, ⟨hnone, -⟩ | ⟨fr', hfr', rfl⟩⟩ := reduceFrame_next_iff.mp h
  · cases hfr.symm.trans hnone
  · obtain rfl : fr = fr' := Option.some.inj (hfr.symm.trans hfr')
    exact ⟨hv, hf, dithered_spec hfr hwf⟩

/-- A REDUCE of a present frame answers when a palette is loaded and the slot exists (R190, R275). -/
theorem exists_exec_dither (hi : ditherOf i = some (dm, f)) (hv : s.valid = true) (hf : f.toNat < Config.maxFrames)
    (hfr : frameAt s f.toNat = some fr) (hwf : fr.wf = true) :
    ∃ t g, exec i s = .next t ∧ Dithered (ditherMethod dm s) s f.toNat fr t g := by
  have hexec : exec i s = .next (dithered (ditherMethod dm s) f.toNat fr s) := by
    rw [exec_dither hi]
    exact reduceFrame_next_iff.mpr ⟨hv, hf, .inr ⟨fr, hfr, rfl⟩⟩
  obtain ⟨g, hg⟩ := dithered_spec (m := ditherMethod dm s) hfr hwf
  exact ⟨_, g, hexec, hg⟩

end Command

/-- A REDUCE leaves the palette store, the colour primitives and what HOST owns besides the frames (R195). -/
theorem Dithered.leaves {m : Method} {s t : State} {f : Nat} {fr g : Frame} (h : Dithered m s f fr t g) :
    SamePalette s t ∧ SamePrimitives s t ∧ SameInputs s t := by
  obtain ⟨frm, wk, rfl⟩ := h.state
  exact ⟨⟨rfl, rfl, rfl, rfl, rfl, rfl, rfl⟩, ⟨rfl, rfl, rfl⟩, ⟨rfl, rfl, rfl, rfl⟩⟩

theorem SamePalette.palAt {s t : State} (h : SamePalette s t) (i : Nat) : palAt t i = palAt s i :=
  congrArg (Memory.read · i) h.pal

theorem SamePalette.mapAt {s t : State} (h : SamePalette s t) (k : Key) : mapAt t k = mapAt s k :=
  congrArg (Memory.read · k.toNat) h.map

/-- Settles O42: the loop writes the one frame, and the state keeps all but the frame store and the working state. -/
theorem reduceCompletesWithFrame : Obligations.ReduceCompletesWithFrame := by
  intro i dm f s fr hi hv hf hfr hwf
  obtain ⟨t, g, hexec, hd⟩ := exists_exec_dither hi hv hf hfr hwf
  exact ⟨t, g, hexec, hd.frame, hd.wf, hd.width, hd.height, hd.blend, hd.others, hd.leaves⟩

/-- Settles O43: the raster writes `PAL[i]` with its `i`, and the palette stays. -/
theorem pixelsArePaletteEntries : Obligations.PixelsArePaletteEntries := by
  intro i dm f s fr hi hv hf hfr hwf
  obtain ⟨t, g, hexec, hd⟩ := exists_exec_dither hi hv hf hfr hwf
  obtain ⟨hpalette, -, -⟩ := hd.leaves
  exact ⟨t, g, hexec, hd.frame, fun x y hx hy => (hd.pixel x y hx hy).trans (hpalette.palAt _).symm⟩

/-! ### The transparent shortcut (R191) -/

theorem shortcut_iff {s : State} {c : Word32} : shortcut s c = true ↔ isOpaque c = false ∧ palAt s 0 = 0#32 := by
  rw [shortcut, Bool.and_eq_true, Bool.not_eq_true', reserved_eq_true_iff]

theorem rasterIndex_of_shortcut {m : Method} {s : State} {fr : Frame} {wk : Work} {x y : Nat}
    (h : shortcut s (getPixel fr x y) = true) : rasterIndex m s fr wk x y = 0#8 := by
  rw [rasterIndex, pixelStep, if_pos h]

/-- Settles O44: the shortcut writes index 0, whose entry is the reserved zero. -/
theorem transparentBecomesZero : Obligations.TransparentBecomesZero := by
  intro i dm f s t fr g hi hfr hwf hres hexec hg x y hx hy htransparent
  have hzero : palAt s 0 = 0#32 := reserved_eq_true_iff.mp hres
  obtain ⟨-, -, g', hd⟩ := exec_dither_next hi hfr hwf hexec
  obtain rfl : g' = g := Option.some.inj (hd.frame.symm.trans hg)
  have hindex : getIndex g' x y = 0#8 :=
    (hd.index x y hx hy).trans (rasterIndex_of_shortcut (shortcut_iff.mpr ⟨htransparent, hzero⟩))
  refine ⟨?_, hindex⟩
  rw [hd.pixel x y hx hy, hindex]
  exact hzero

end Sys2Proof.Machine
end

section
/-! SUPPORT. REDUCE_SOLID (42_dither_common.md R197, R199): the index of a colour, and where applying it twice is
applying it once. -/

namespace Sys2Proof.Machine

open Sys2Proof

/-! ### One pixel -/

/-- The index REDUCE_SOLID gives a pixel: 0 on the shortcut, else that of its key (R191, R197). -/
def solidOf (s : State) (c : Word32) : Byte :=
  if isOpaque c = false ∧ palAt s 0 = 0#32 then 0#8 else mapAt s (shrink c)

theorem ite_shortcut_eq_solidOf (s : State) (c : Word32) :
    (if shortcut s c then 0#8 else mapAt s (shrink c)) = solidOf s c := by
  simp only [shortcut_iff, solidOf]

/-- A pointwise method that answers the index of a pixel's key writes what Solid writes. -/
theorem rasterIndex_pointwise_eq_solidOf {index : Nat → Nat → Word32 → Byte} {s : State} {fr : Frame} {x y : Nat}
    (h : index x y (getPixel fr x y) = mapAt s (shrink (getPixel fr x y))) (wk : Work) :
    rasterIndex (Method.pointwise index) s fr wk x y = solidOf s (getPixel fr x y) := by
  rw [rasterIndex_pointwise, h, ite_shortcut_eq_solidOf]

theorem Dithered.getIndex_solid {s t : State} {f : Nat} {fr g : Frame}
    (h : Dithered (ditherMethod .solid s) s f fr t g) {x y : Nat} (hx : x < fr.width) (hy : y < fr.height) :
    getIndex g x y = solidOf s (getPixel fr x y) :=
  (h.index x y hx hy).trans (rasterIndex_pointwise_eq_solidOf rfl _)

theorem SamePalette.solidOf {s t : State} (h : SamePalette s t) (c : Word32) : solidOf t c = solidOf s c := by
  simp only [Machine.solidOf, h.palAt, h.mapAt]

/-- Settles O45: Solid is pointwise, and so leaves the working state. -/
theorem solidPixels : Obligations.SolidPixels := by
  intro f s fr hv hf hfr hwf
  obtain ⟨t, g, hexec, hd⟩ := exists_exec_dither (i := .reduceSolid f) rfl hv hf hfr hwf
  have hwork : t.work = s.work := reduceFrame_keeps_work (g := id) (Method.pointwise_keeps _ id) hexec
  exact ⟨t, g, hexec, hd.frame, hwork, fun x y hx hy => ⟨hd.getIndex_solid hx hy, hd.pixel x y hx hy⟩⟩

/-! ### Solid twice -/

/-- Every index of `MAP` stands for its own colour: an opaque entry whose key is mapped to it, or the reserved zero. -/
def IndicesOwnTheirKeys (s : State) : Prop :=
  ∀ k : Key, if isOpaque (palAt s (mapAt s k).toNat) = true
    then mapAt s (shrink (palAt s (mapAt s k).toNat)) = mapAt s k else mapAt s k = 0#8 ∧ palAt s 0 = 0#32

/-- The colour REDUCE_SOLID writes has the index REDUCE_SOLID gave (R199). -/
theorem solidOf_palAt_solidOf {s : State} (h : IndicesOwnTheirKeys s) (c : Word32) :
    solidOf s (palAt s (solidOf s c).toNat) = solidOf s c := by
  have hreserved (hzero : palAt s 0 = 0#32) : solidOf s (palAt s (0#8).toNat) = 0#8 :=
    if_pos ⟨congrArg isOpaque hzero, hzero⟩
  by_cases hshort : isOpaque c = false ∧ palAt s 0 = 0#32
  · rw [show solidOf s c = 0#8 from if_pos hshort]
    exact hreserved hshort.2
  · rw [show solidOf s c = mapAt s (shrink c) from if_neg hshort]
    have hown := h (shrink c)
    split at hown
    case isTrue hopaque =>
      rw [solidOf, if_neg (fun hno => by simp [hopaque] at hno)]
      exact hown
    case isFalse =>
      obtain ⟨hindex, hzero⟩ := hown
      rw [hindex]
      exact hreserved hzero

/-- Settles O46: a second Solid gives each written colour the index it was written with. -/
theorem solidIdempotent : Obligations.SolidIdempotent := by
  intro f s t fr hfr hwf hown hexec
  obtain ⟨hv, hf, g, hd⟩ := exec_dither_next (i := .reduceSolid f) rfl hfr hwf hexec
  obtain ⟨hpalette, -, -⟩ := hd.leaves
  obtain ⟨u, g', hexec', hd'⟩ :=
    exists_exec_dither (i := .reduceSolid f) rfl (hpalette.valid.trans hv) hf hd.frame hd.wf
  refine ⟨u, hexec', fun g₁ g₂ x y hg₁ hg₂ hx hy => ?_⟩
  obtain rfl : g = g₁ := Option.some.inj (hd.frame.symm.trans hg₁)
  obtain rfl : g' = g₂ := Option.some.inj (hd'.frame.symm.trans hg₂)
  have hx' : x < g.width := hd.width ▸ hx
  have hy' : y < g.height := hd.height ▸ hy
  have hindex : getIndex g' x y = getIndex g x y := by
    rw [hd'.getIndex_solid hx' hy', hpalette.solidOf, hd.pixel x y hx hy, hd.getIndex_solid hx hy]
    exact solidOf_palAt_solidOf hown _
  refine ⟨?_, hindex⟩
  rw [hd'.pixel x y hx' hy', hindex, hd.pixel x y hx hy, hpalette.palAt]

/-! ### A palette whose keys are distinct -/

/-- A transparent entry is at no finite distance (R125). -/
theorem lt_diff3_posInf_of_transparent {c : Word32} (h : isOpaque c = false) (r g b : Byte) :
    FP.lt (diff3 c r g b) FP.posInf = false := by
  rw [diff3, if_neg (by simp [h])]
  exact FP.lt_irrefl _

/-- An index that a completed EXACT or ANALYZE leaves names an opaque entry, or is 0 (R154, R155). -/
theorem isOpaque_or_mapAt_eq_zero {i : Instr} {s t : State} (hi : (∃ n, i = .exact n) ∨ ∃ l v, i = .analyze l v)
    (h : exec i s = .next t) (k : Key) : isOpaque (palAt t (mapAt t k).toNat) = true ∨ mapAt t k = 0#8 := by
  obtain ⟨hmarked, hsearched⟩ := indexNamesNearest i s t hi h k
  by_cases hmarks : ∃ j, 1 ≤ j ∧ j < t.cc.toNat ∧ isOpaque (palAt t j) = true ∧ shrink (palAt t j) = k
  · obtain ⟨⟨-, -, hopaque, -⟩, -⟩ := hmarked hmarks
    exact .inl hopaque
  · obtain ⟨-, -, hfinite, -⟩ | ⟨hzero, -⟩ := hsearched hmarks
    · refine .inl (Bool.not_eq_false _ |>.mp fun htransparent => ?_)
      rw [lt_diff3_posInf_of_transparent htransparent] at hfinite
      cases hfinite
    · exact .inr (BitVec.eq_of_toNat_eq hzero)

/-- Settles O47: an opaque entry's key is marked, by an entry of the same key, which distinct keys make the same. -/
theorem distinctKeysFixTheIndex : Obligations.DistinctKeysFixTheIndex := by
  intro n s t hexec hzero hdistinct k
  have hi : (∃ m, Instr.exact n = .exact m) ∨ ∃ l v, Instr.exact n = .analyze l v := .inl ⟨n, rfl⟩
  split
  case isFalse htransparent => exact ⟨(isOpaque_or_mapAt_eq_zero hi hexec k).resolve_left htransparent, hzero⟩
  case isTrue hopaque =>
    have hslot : 1 ≤ (mapAt t k).toNat ∧ (mapAt t k).toNat < t.cc.toNat := by
      obtain ⟨src, plen, hl⟩ := execExact_loaded hexec
      refine ⟨Nat.one_le_iff_ne_zero.mpr fun h0 => ?_, Nat.lt_of_not_le fun hge => ?_⟩
      · rw [h0, hzero] at hopaque
        cases hopaque
      · rw [hl.palAt, hl.tail _ (hl.toNat_cc ▸ hge)] at hopaque
        cases hopaque
    obtain ⟨hmarked, -⟩ := indexNamesNearest _ s t hi hexec (shrink (palAt t (mapAt t k).toNat))
    obtain ⟨⟨-, hlt, hopaque', hkey⟩, -⟩ := hmarked ⟨_, hslot.1, hslot.2, hopaque, rfl⟩
    exact BitVec.eq_of_toNat_eq (hdistinct _ _ hlt hslot.2 hopaque' hopaque hkey)

end Sys2Proof.Machine
end

section
/-! SUPPORT. Zeros and finite results in binary32 (00_scope.md R7, R8): which results do not overflow, a finite value
times a zero, and a channel to which a zero is added. -/

namespace Sys2Proof

/-! ### Rounding without overflow -/

theorem shiftLeft_le_two_pow {m k n : Nat} (h : m.log2 + k < n) : m <<< k ≤ 2 ^ n :=
  calc m <<< k = m * 2 ^ k := Nat.shiftLeft_eq ..
    _ ≤ 2 ^ (m.log2 + 1) * 2 ^ k := Nat.mul_le_mul_right _ Nat.lt_log2_self.le
    _ = 2 ^ (m.log2 + 1 + k) := (Nat.pow_add ..).symm
    _ ≤ 2 ^ n := Nat.pow_le_pow_right Nat.two_pos (by omega)

theorem roundShift_le_two_pow {m s n : Nat} (h : m.log2 < n + s) : roundShift m s ≤ 2 ^ n := by
  have hquotient : m >>> s < 2 ^ n := by
    rw [Nat.shiftRight_eq_div_pow, Nat.div_lt_iff_lt_mul (Nat.two_pow_pos s), ← Nat.pow_add]
    exact Nat.lt_log2_self.trans_le (Nat.pow_le_pow_right Nat.two_pos h)
  simp only [roundShift]
  split
  · exact hquotient
  · exact hquotient.le

/-- A magnitude below `2^127` does not round to infinity. -/
theorem roundMag_lt_infMag {m : Nat} {e : Int} (h : e + m.log2 < 127) : binary32.roundMag m e < binary32.infMag := by
  have hinf : binary32.infMag = 255 * 2 ^ 23 := rfl
  have hmin : binary32.minExp = -149 := rfl
  have hfrac : binary32.frac = 23 := rfl
  unfold FloatFormat.roundMag
  split
  · decide
  · simp only [hinf, hmin, hfrac]
    generalize hlast : max (e + (m.log2 : Int) - (23 : Nat)) (-149) = last
    have hsig : (if last ≤ e then m <<< (e - last).toNat else roundShift m (last - e).toNat) ≤ 2 ^ 24 := by
      split
      · exact shiftLeft_le_two_pow (by omega)
      · exact roundShift_le_two_pow (by omega)
    refine (Nat.min_le_left ..).trans_lt ?_
    omega

theorem natAbs_alignTo (lo : Int) (neg : Bool) (m : Nat) (e : Int) :
    (alignTo lo neg m e).natAbs = m <<< (e - lo).toNat := by
  cases neg
  · exact Int.natAbs_natCast _
  · exact (Int.natAbs_neg _).trans (Int.natAbs_natCast _)

namespace FP

/-! ### Finite results -/

theorem isFinite_iff {v : FP} : v.isFinite = true ↔ v.bits.toNat / 2 ^ 23 % 2 ^ 8 ≠ 255 := by
  rw [isFinite, bne_iff_ne, ne_eq, ← BitVec.toNat_inj, BitVec.extractLsb'_toNat, Nat.shiftRight_eq_div_pow]
  rfl

theorem isFinite_pack_fin {m : Nat} {e : Int} (h : e + m.log2 < 127) (src : NanSource) (a b : Word32) (neg : Bool) :
    (pack src a b (.fin neg m e)).isFinite = true := by
  have hmag : binary32.roundMag m e < 255 * 2 ^ 23 := roundMag_lt_infMag h
  have hbits : (pack src a b (.fin neg m e)).bits.toNat = neg.toNat * 2 ^ 31 + binary32.roundMag m e := by
    rw [pack, toNat_append_field, BitVec.toNat_ofBool, BitVec.toNat_ofNat, Nat.mod_eq_of_lt (by omega)]
  rw [isFinite_iff, hbits]
  omega

theorem isFinite_ofInt {i : Int} (h : i.natAbs < 2 ^ 127) : (ofInt i).isFinite = true := by
  refine isFinite_pack_fin ?_ ..
  obtain h0 | h0 := Nat.eq_zero_or_pos i.natAbs
  · rw [h0]
    decide
  · have := (Nat.log2_lt (Nat.ne_of_gt h0)).mpr h
    omega

/-- The exponent field says that the magnitude is below `2^24`. -/
def IsSmall (v : FP) : Prop := v.bits.extractLsb' 23 8 ≤ 150#8

theorem IsSmall.datum {v : FP} (h : v.IsSmall) : ∃ n m e, v.datum = .fin n m e ∧ m < 2 ^ 24 ∧ e ≤ 0 := by
  have hexp : v.bits.toNat / 2 ^ 23 % 2 ^ 8 ≤ 150 := by
    rw [IsSmall, BitVec.le_def, BitVec.extractLsb'_toNat, Nat.shiftRight_eq_div_pow] at h
    exact h
  have hmax : FloatFormat.maxExpField ⟨23, 8⟩ = 255 := rfl
  have hmin : FloatFormat.minExp ⟨23, 8⟩ = -149 := rfl
  have hfrac := Nat.mod_lt v.bits.toNat (Nat.two_pow_pos 23)
  simp only [FP.datum, FloatFormat.unpack, binary32, hmax, hmin]
  rw [if_neg (by omega)]
  split
  · exact ⟨_, _, _, rfl, by omega, by omega⟩
  · exact ⟨_, _, _, rfl, by omega, by omega⟩

/-- A sum of small values does not overflow. -/
theorem IsSmall.isFinite_add {v w : FP} (hv : v.IsSmall) (hw : w.IsSmall) : (v.add w).isFinite = true := by
  obtain ⟨nv, mv, ev, hdv, hmv, hev⟩ := hv.datum
  obtain ⟨nw, mw, ew, hdw, hmw, hew⟩ := hw.datum
  rw [add, hdv, hdw]
  simp only [Datum.add]
  generalize hlo : min ev ew = lo
  have halign {n : Bool} {m : Nat} {e : Int} (hm : m < 2 ^ 24) (he : e ≤ 0) :
      (alignTo lo n m e).natAbs < 2 ^ (24 + (-lo).toNat) :=
    calc (alignTo lo n m e).natAbs = m * 2 ^ (e - lo).toNat := by rw [natAbs_alignTo, Nat.shiftLeft_eq]
      _ < 2 ^ 24 * 2 ^ (e - lo).toNat := Nat.mul_lt_mul_of_pos_right hm (Nat.two_pow_pos _)
      _ ≤ 2 ^ 24 * 2 ^ (-lo).toNat := Nat.mul_le_mul_left _ (Nat.pow_le_pow_right Nat.two_pos (by omega))
      _ = 2 ^ (24 + (-lo).toNat) := (Nat.pow_add ..).symm
  split
  case isTrue => exact isFinite_pack_fin (by rw [show Nat.log2 0 = 0 from rfl]; omega) ..
  case isFalse hne =>
    refine isFinite_pack_fin ?_ ..
    have hsum : (alignTo lo nv mv ev + alignTo lo nw mw ew).natAbs < 2 ^ (25 + (-lo).toNat) :=
      calc _ ≤ _ := Int.natAbs_add_le ..
        _ < 2 ^ (24 + (-lo).toNat) + 2 ^ (24 + (-lo).toNat) := Nat.add_lt_add (halign hmv hev) (halign hmw hew)
        _ = 2 ^ (25 + (-lo).toNat) := by ring
    have hlog := (Nat.log2_lt (Int.natAbs_ne_zero.mpr hne)).mpr hsum
    omega

/-! ### Zeros -/

theorem eq_zero_or_of_isZero {z : FP} (h : z.isZero = true) : z = zero ∨ z = ⟨0x80000000#32⟩ := by
  have hmod : z.bits.toNat % 2 ^ 31 = 0 := by
    have hmag := congrArg BitVec.toNat (eq_of_beq h)
    rwa [BitVec.extractLsb'_toNat, Nat.shiftRight_zero] at hmag
  have hlt := z.bits.isLt
  obtain h0 | h1 : z.bits.toNat = 0 ∨ z.bits.toNat = 2 ^ 31 := by omega
  · exact .inl (congrArg FP.mk (BitVec.eq_of_toNat_eq h0))
  · exact .inr (congrArg FP.mk (BitVec.eq_of_toNat_eq h1))

theorem datum_of_isZero {z : FP} (h : z.isZero = true) : ∃ n e, z.datum = .fin n 0 e := by
  obtain rfl | rfl := eq_zero_or_of_isZero h
  · exact ⟨_, _, rfl⟩
  · exact ⟨_, _, rfl⟩

theorem isZero_pack_fin_zero (src : NanSource) (a b : Word32) (neg : Bool) (e : Int) :
    (pack src a b (.fin neg 0 e)).isZero = true := by
  rw [pack, FloatFormat.roundMag, if_pos rfl]
  cases neg <;> rfl

/-- A finite value times a zero is a zero. -/
theorem isZero_mul {v z : FP} (hv : v.isFinite = true) (hz : z.isZero = true) : (v.mul z).isZero = true := by
  obtain ⟨n, m, e, hdv⟩ := exists_datum_fin hv
  obtain ⟨nz, ez, hdz⟩ := datum_of_isZero hz
  rw [mul, hdv, hdz, Datum.mul, Nat.mul_zero]
  exact isZero_pack_fin_zero ..

/-- A zero times a finite value is a zero. -/
theorem isZero_mul_of_left {v z : FP} (hz : z.isZero = true) (hv : v.isFinite = true) : (z.mul v).isZero = true := by
  obtain ⟨n, m, e, hdv⟩ := exists_datum_fin hv
  obtain ⟨nz, ez, hdz⟩ := datum_of_isZero hz
  rw [mul, hdv, hdz, Datum.mul, Nat.zero_mul]
  exact isZero_pack_fin_zero ..

theorem trunc_zero_add {z : FP} (h : z.isZero = true) : ((ofInt 0).add z).trunc = 0 := by
  obtain rfl | rfl := eq_zero_or_of_isZero h
  · decide
  · decide

end FP

/-- A channel plus a zero of either sign is the channel, by its 256 values. -/
theorem channelOf_add_of_isZero (o : Byte) {z : FP} (h : z.isZero = true) :
    channelOf ((FP.ofInt o.toNat).add z) = o := by
  obtain rfl | rfl := FP.eq_zero_or_of_isZero h
  · exact (by decide +kernel : ∀ o : Byte, channelOf ((FP.ofInt o.toNat).add FP.zero) = o) o
  · exact (by decide +kernel : ∀ o : Byte, channelOf ((FP.ofInt o.toNat).add ⟨0x80000000#32⟩) = o) o

end Sys2Proof
end

section
/-! SUPPORT. The REDUCE commands at strength zero (42_dither_common.md R192): a diffusion spreads no error (R213, R214), an
adjustment is a zero (R233) and every candidate is the first one (R250), so that each pixel has the index of its key. -/

namespace Sys2Proof

/-! ### Triples of channels -/

/-- Every channel meets `p`. -/
def Tri.Forall {α : Type} (p : α → Prop) (t : Tri α) : Prop := p t.r ∧ p t.g ∧ p t.b

theorem Tri.Forall.map {α β : Type} {p : α → Prop} {q : β → Prop} {f : α → β} (hf : ∀ a, p a → q (f a)) {t : Tri α}
    (h : Tri.Forall p t) : Tri.Forall q (t.map f) := by
  obtain ⟨hr, hg, hb⟩ := h
  exact ⟨hf _ hr, hf _ hg, hf _ hb⟩

theorem Tri.Forall.zip {α β γ : Type} {p : α → Prop} {q : β → Prop} {r : γ → Prop} {f : α → β → γ}
    (hf : ∀ a b, p a → q b → r (f a b)) {t : Tri α} {u : Tri β} (ht : Tri.Forall p t) (hu : Tri.Forall q u) :
    Tri.Forall r (Tri.zip f t u) := by
  obtain ⟨hr, hg, hb⟩ := ht
  obtain ⟨hr', hg', hb'⟩ := hu
  exact ⟨hf _ _ hr hr', hf _ _ hg hg', hf _ _ hb hb'⟩

theorem Tri.forall_true {α : Type} (t : Tri α) : Tri.Forall (fun _ => True) t := ⟨trivial, trivial, trivial⟩

/-- A combination that answers its left operand leaves the triple. -/
theorem Tri.zip_eq_left {α β : Type} {q : β → Prop} {f : α → β → α} (hf : ∀ a b, q b → f a b = a) (t : Tri α)
    {u : Tri β} (hu : Tri.Forall q u) : Tri.zip f t u = t := by
  obtain ⟨hr, hg, hb⟩ := hu
  rw [Tri.zip, hf _ _ hr, hf _ _ hg, hf _ _ hb]

end Sys2Proof

namespace Sys2Proof.Machine

open Sys2Proof

/-! ### What a method keeps of the working state along the raster -/

/-- The hooks of a method, on a frame of width `w`, establish `P` and keep it. -/
structure Method.Maintains (m : Method) (w : Nat) (P : Work → Prop) : Prop where
  start : ∀ wk, P (m.start w wk)
  pixel : ∀ h x y c wk, P wk → P (m.pixel w h x y c wk).2
  rowEnd : ∀ wk, P wk → P (m.rowEnd w wk)

section Maintains

variable {m : Method} {fr : Frame} {P : Work → Prop}

theorem Method.Maintains.rowWork (hm : m.Maintains fr.width P) (s : State) (y : Nat) {wk : Work} (h : P wk) (x : Nat) :
    P (rowWork m s fr y wk x) := by
  induction x with
  | zero => exact h
  | succ x ih =>
    rw [Machine.rowWork, pixelStep]
    split
    · exact ih
    · exact hm.pixel _ _ _ _ _ ih

theorem Method.Maintains.startWork (hm : m.Maintains fr.width P) (s : State) (wk : Work) (y : Nat) :
    P (startWork m s fr wk y) := by
  induction y with
  | zero => exact hm.start wk
  | succ y ih => exact hm.rowEnd _ (hm.rowWork s y ih fr.width)

/-- Where the method's index of a pixel is that of its key whenever `P` holds, the raster writes what Solid writes. -/
theorem Method.Maintains.rasterIndex_eq_solidOf (hm : m.Maintains fr.width P) (s : State) (wk : Work) {x : Nat} (y : Nat)
    (hindex : ∀ h c wk, P wk → (m.pixel fr.width h x y c wk).1 = mapAt s (shrink c)) :
    rasterIndex m s fr wk x y = solidOf s (getPixel fr x y) := by
  rw [← ite_shortcut_eq_solidOf, rasterIndex, pixelStep]
  split
  · rfl
  · exact hindex _ _ _ (hm.rowWork s y (hm.startWork s wk y) x)

end Maintains

/-! ### The channels of a pixel -/

/-- The lookup of the snapped channels is that of the pixel's own key (R95, R193). -/
theorem lookup_snap (s : State) (c : Word32) : lookup s (rgbOf (snap c)) = mapAt s (shrink c) :=
  congrArg (mapAt s) ((congrArg shrink (snap_eq_stretch_shrink c)).trans (shrink_stretch _))

theorem natAbs_residual_le (o used : Byte) : (residual o used).natAbs ≤ 255 := by
  have ho := o.isLt
  have hu := used.isLt
  rw [residual]
  omega

/-! ### The diffusion dithers -/

/-- The first `w` entries of an error row are 0. -/
def RowClear (w : Nat) (row : List SByte) : Prop := ∀ x < w, rowAt row x = 0

theorem rowClear_zeroRow (w : Nat) (row : List SByte) : RowClear w (zeroRow w row) := fun _ => rowAt_zeroRow row

/-- An entry of a row in which one entry was set. -/
theorem rowAt_set (row : List SByte) (x z : Nat) (v : SByte) :
    rowAt (row.set x v) z = if z = x ∧ x < row.length then v.toInt else rowAt row z := by
  simp only [rowAt, List.getD_eq_getElem?_getD, List.getElem?_set]
  by_cases hx : x = z
  · subst hx
    by_cases hlt : x < row.length <;> simp [hlt]
  · simp [hx, Ne.symm hx]

/-- A share with a weight of zero leaves a cleared row cleared (R216). -/
theorem RowClear.accumulate {w : Nat} {row : List SByte} (h : RowClear w row) (x : Nat) {dv : Int}
    (hdv : dv.natAbs ≤ 255) {wt : FP} (hwt : wt.isZero = true) : RowClear w (accumulate row x dv wt) := by
  have hzero : ((FP.ofInt dv).mul wt).isZero = true :=
    FP.isZero_mul (FP.isFinite_ofInt (hdv.trans_lt (by decide))) hwt
  intro z hz
  rw [Machine.accumulate, rowAt_set]
  split
  case isTrue hzx =>
    rw [← hzx.1, h z hz, FP.trunc_zero_add hzero]
    rfl
  case isFalse => exact h z hz

/-- A share that is spread only inside the frame. -/
theorem RowClear.ite_accumulate {w : Nat} {row : List SByte} (h : RowClear w row) (inside : Prop) [Decidable inside]
    (x : Nat) {dv : Int} (hdv : dv.natAbs ≤ 255) {wt : FP} (hwt : wt.isZero = true) :
    RowClear w (if inside then Machine.accumulate row x dv wt else row) := by
  split
  · exact h.accumulate x hdv hwt
  · exact h

/-- Both rows of a channel are cleared. -/
def RowPair.Clear (w : Nat) (p : RowPair) : Prop := RowClear w p.cur ∧ RowClear w p.next

/-- With weights of zero Floyd-Steinberg's spread leaves the rows of a channel cleared (R213). -/
theorem clear_spreadFs {w1 : FP} (hw1 : w1.isZero = true) (w h x y : Nat) {dv : Int} (hdv : dv.natAbs ≤ 255)
    {p : RowPair} (hp : p.Clear w) : (spreadFs w1 w h x y dv p).Clear w := by
  have hweight {n : Int} (hn : (FP.ofInt n).isFinite = true) : (w1.mul (FP.ofInt n)).isZero = true :=
    FP.isZero_mul_of_left hw1 hn
  obtain ⟨hcur, hnext⟩ := hp
  refine ⟨hcur.ite_accumulate _ _ hdv (hweight (by decide)), ?next⟩
  case next =>
    have hleft := hnext.ite_accumulate (0 < x) (x - 1) hdv (hweight (n := 3) (by decide))
    have hdown := hleft.accumulate x hdv (hweight (n := 5) (by decide))
    simp only [spreadFs]
    split
    · exact hdown.ite_accumulate _ _ hdv hw1
    · exact hnext

/-- With weights of zero Sierra Lite's spread leaves the rows of a channel cleared (R214). -/
theorem clear_spreadSierra {wr wh : FP} (hwr : wr.isZero = true) (hwh : wh.isZero = true) (w h x y : Nat) {dv : Int}
    (hdv : dv.natAbs ≤ 255) {p : RowPair} (hp : p.Clear w) : (spreadSierra wr wh w h x y dv p).Clear w := by
  obtain ⟨hcur, hnext⟩ := hp
  refine ⟨hcur.ite_accumulate _ _ hdv hwr, ?next⟩
  case next =>
    have hleft := hnext.ite_accumulate (0 < x) (x - 1) hdv hwh
    simp only [spreadSierra]
    split
    · exact hleft.accumulate x hdv hwh
    · exact hnext

/-- Every error row is cleared. -/
def ErrorFree (w : Nat) (wk : Work) : Prop := Tri.Forall (RowClear w) wk.cur ∧ Tri.Forall (RowClear w) wk.next

section Diffusion

variable {dm : DitherMethod} {s : State} {w : Nat} {perturb : Nat → Nat → Byte → Int → Byte}
  {spread : Nat → Nat → Nat → Nat → Int → RowPair → RowPair}

/-- A diffusion whose spread leaves cleared rows cleared never has an error. -/
theorem diffusionMethod_maintains_errorFree
    (hspread : ∀ h x y (dv : Int) (p : RowPair), dv.natAbs ≤ 255 → p.Clear w → (spread w h x y dv p).Clear w) :
    (diffusionMethod dm s perturb spread).Maintains w (ErrorFree w) where
  start := fun wk =>
    ⟨(Tri.forall_true wk.cur).map fun _ _ => rowClear_zeroRow w _,
      (Tri.forall_true wk.next).map fun _ _ => rowClear_zeroRow w _⟩
  pixel := fun h x y c wk ⟨hcur, hnext⟩ => by
    have hdv (o used : Tri Byte) : Tri.Forall (fun dv : Int => dv.natAbs ≤ 255) (Tri.zip residual o used) :=
      Tri.Forall.zip (f := residual) (fun o used _ _ => natAbs_residual_le o used) (Tri.forall_true o)
        (Tri.forall_true used)
    have hpairs : Tri.Forall (RowPair.Clear w) (Tri.zip RowPair.mk wk.cur wk.next) :=
      hcur.zip (fun _ _ hc hn => ⟨hc, hn⟩) hnext
    have hrows (used : Tri Byte) :=
      Tri.Forall.zip (fun dv p => hspread h x y dv p) (hdv (rgbOf (snapFor dm c)) used) hpairs
    exact ⟨(hrows _).map fun _ hp => hp.1, (hrows _).map fun _ hp => hp.2⟩
  rowEnd := fun wk ⟨_, hnext⟩ => ⟨hnext, (Tri.forall_true wk.next).map fun _ _ => rowClear_zeroRow w _⟩

theorem perturbInt_zero (o : Byte) : perturbInt o 0 = o := by
  have ho := o.isLt
  rw [perturbInt, clamp, if_neg (by omega), if_neg (by omega), Int.add_zero, BitVec.ofInt_natCast, BitVec.ofNat_toNat,
    BitVec.setWidth_eq]

/-- Without an error a pixel's target is its snapped colour (R213). -/
theorem diffusionPixel_of_errorFree (hsnap : ∀ c, snapFor dm c = snap c) {x : Nat} (hx : x < w) (h y : Nat) (c : Word32)
    {wk : Work} (hwk : ErrorFree w wk) :
    (diffusionPixel dm s (fun _ _ => perturbInt) spread w h x y c wk).1 = mapAt s (shrink c) := by
  have hzero : Tri.Forall (· = 0) (wk.cur.map fun row => rowAt row x) := hwk.1.map fun _ hrow => hrow x hx
  have htarget := Tri.zip_eq_left (fun o e (he : e = 0) => he ▸ perturbInt_zero o) (rgbOf (snapFor dm c)) hzero
  rw [diffusionPixel, htarget, hsnap, lookup_snap]

end Diffusion

/-! ### Blue-Noise -/

theorem isSmall_blueLine1 : ∀ texel : SByte, (blueLine1 texel).IsSmall := by
  unfold FP.IsSmall
  decide +kernel

/-- The second term of R234, for both squares of the checkerboard and every texel. -/
theorem isSmall_blueCheck : ∀ (p : Fin 2) (texel : SByte),
    ((((FP.ofInt p.val).sub (FP.ofDecimal 5 1)).mul ((FP.ofDecimal 5 1).add (fpOfSByte texel))).mul
      (FP.ofScaled (-11) (-13))).IsSmall := by
  unfold FP.IsSmall
  decide +kernel

/-- At strength zero the adjustment of Blue-Noise is a zero, since what it multiplies does not overflow (R234). -/
theorem isZero_blueAdj (x y : Nat) : (blueAdj FP.zero x y).isZero = true := by
  have hcheck := isSmall_blueCheck ⟨(x + y) % 2, Nat.mod_lt _ Nat.two_pos⟩ (bnraw (bn2Index x y))
  exact FP.isZero_mul ((isSmall_blueLine1 _).isFinite_add hcheck) (by decide)

theorem perturbBy_of_isZero {adj : FP} (h : adj.isZero = true) (o used : Byte) : perturbBy adj o used = o :=
  channelOf_add_of_isZero o
    (FP.isZero_mul_of_left h (FP.isFinite_ofInt ((natAbs_residual_le o used).trans_lt (by decide))))

/-- With an adjustment of zero the second pass looks up what the first did (R230). -/
theorem secondPass_of_isZero {dm : DitherMethod} {c : Word32} (hsnap : snapFor dm c = snap c) (s : State) (used : Word32)
    {adj : FP} (h : adj.isZero = true) : secondPass dm s c used adj = mapAt s (shrink c) := by
  rw [secondPass, Tri.zip_eq_left (fun o u _ => perturbBy_of_isZero h o u) _ (Tri.forall_true _), hsnap, lookup_snap]

/-! ### The pattern dithers -/

theorem patternTarget_of_isZero {strk : FP} (h : strk.isZero = true) (o : Byte) {e : Int} (he : e.natAbs < 2 ^ 127) :
    patternTarget strk o e = o :=
  channelOf_add_of_isZero o (FP.isZero_mul (FP.isFinite_ofInt he) h)

theorem natAbs_patternError_le (e : Int) (o used : Byte) : (patternError e o used).natAbs ≤ e.natAbs + 255 :=
  (Int.natAbs_add_le ..).trans (Nat.add_le_add_left (natAbs_residual_le o used) _)

/-- With an error multiplier of zero every candidate is the lookup of the colour itself (R251). -/
theorem candidateLoop_of_isZero (s : State) (o : Tri Byte) {strk : FP} (h : strk.isZero = true) (n : Nat) {e : Tri Int}
    (he : Tri.Forall (fun v : Int => v.natAbs + 255 * n < 2 ^ 127) e) :
    candidateLoop s o strk n e = List.replicate n (lookup s o) := by
  induction n generalizing e with
  | zero => rfl
  | succ n ih =>
    have htarget : Tri.zip (patternTarget strk) o e = o :=
      Tri.zip_eq_left (fun o v (hv : v.natAbs + 255 * (n + 1) < 2 ^ 127) => patternTarget_of_isZero h o (by omega)) o he
    have hnext {v : Int} (hv : v.natAbs + 255 * (n + 1) < 2 ^ 127) (o used : Byte) :
        (patternError v o used).natAbs + 255 * n < 2 ^ 127 := by
      have := natAbs_patternError_le v o used
      omega
    obtain ⟨hr, hg, hb⟩ := he
    simp only [candidateLoop, htarget, List.replicate_succ]
    rw [ih ⟨hnext hr _ _, hnext hg _ _, hnext hb _ _⟩]

/-- Equal candidates stay as they are: none is lighter than another (R252). -/
theorem sortNet_replicate (s : State) (n : Nat) (i : Byte) {net : List (Nat × Nat)}
    (hnet : ∀ pq ∈ net, pq.1 < n ∧ pq.2 < n) : sortNet s net (List.replicate n i) = List.replicate n i := by
  refine List.foldlRecOn (motive := (· = List.replicate n i)) net _ rfl fun cand hcand pq hpq => ?_
  obtain ⟨hp, hq⟩ := hnet pq hpq
  rw [hcand, compareExchange, List.getD_replicate _ hp, List.getD_replicate _ hq, FP.lt_irrefl]
  rfl

/-- At an error multiplier of zero the sorted candidates all are the index of the pixel's key. -/
theorem sortNet_candidates_of_isZero {dm : DitherMethod} {c : Word32} (hsnap : snapFor dm c = snap c) (s : State) {n : Nat}
    (hn : n ≤ 16) {net : List (Nat × Nat)} (hnet : ∀ pq ∈ net, pq.1 < n ∧ pq.2 < n) {strk : FP}
    (h : strk.isZero = true) :
    sortNet s net (candidates dm s c n strk) = List.replicate n (mapAt s (shrink c)) := by
  have he : (0 : Int).natAbs + 255 * n < 2 ^ 127 := by omega
  rw [candidates, hsnap, candidateLoop_of_isZero s _ h n ⟨he, he, he⟩, lookup_snap, sortNet_replicate s n _ hnet]

/-- An entry of the list of equal candidates. -/
theorem getD_sortNet_candidates_of_isZero {dm : DitherMethod} {c : Word32} (hsnap : snapFor dm c = snap c) (s : State)
    {n : Nat} (hn : n ≤ 16) {net : List (Nat × Nat)} (hnet : ∀ pq ∈ net, pq.1 < n ∧ pq.2 < n) {strk : FP}
    (h : strk.isZero = true) {k : Nat} (hk : k < n) :
    (sortNet s net (candidates dm s c n strk)).getD k 0#8 = mapAt s (shrink c) := by
  rw [sortNet_candidates_of_isZero hsnap s hn hnet h, List.getD_replicate _ hk]

theorem getD_tm16_lt (k : Nat) : Config.tm16.getD k 0 < 16 := by
  by_cases hk : k < Config.tm16.length
  · exact (by decide : ∀ k < Config.tm16.length, Config.tm16.getD k 0 < 16) k hk
  · rw [List.getD_eq_default _ _ (Nat.le_of_not_lt hk)]
    decide

/-! ### Strength zero -/

/-- At strength zero every method but Scatter, Jimenez and Chaotic-Noise writes the indices that Solid writes (R192). -/
theorem rasterIndex_of_zero_strength {dm : DitherMethod} {s : State} {fr : Frame} (hstr : strength s = FP.zero)
    (hscatter : dm ≠ .scatter) (hjimenez : dm ≠ .jimenez) (hchaotic : dm ≠ .chaoticNoise) (wk : Work) {x : Nat}
    (y : Nat) (hx : x < fr.width) :
    rasterIndex (ditherMethod dm s) s fr wk x y = solidOf s (getPixel fr x y) := by
  have hzero : (strength s).isZero = true := hstr ▸ rfl
  have hmul {v : FP} (hv : v.isFinite = true) : ((strength s).mul v).isZero = true := FP.isZero_mul_of_left hzero hv
  cases dm with
  | scatter => exact absurd rfl hscatter
  | jimenez => exact absurd rfl hjimenez
  | chaoticNoise => exact absurd rfl hchaotic
  | solid => exact rasterIndex_pointwise_eq_solidOf rfl wk
  | floydSteinberg =>
    refine (diffusionMethod_maintains_errorFree fun h x y dv p hdv => ?spread).rasterIndex_eq_solidOf s wk y
      fun h c _ => diffusionPixel_of_errorFree (fun _ => rfl) hx h y c
    case spread => exact clear_spreadFs (hmul (by decide)) _ h x y hdv
  | sierraLite =>
    refine (diffusionMethod_maintains_errorFree fun h x y dv p hdv => ?spread).rasterIndex_eq_solidOf s wk y
      fun h c _ => diffusionPixel_of_errorFree (fun _ => rfl) hx h y c
    case spread => exact clear_spreadSierra hzero (hmul (by decide)) _ h x y hdv
  | blueNoise =>
    have hadj : (blueAdj (strength s) x y).isZero = true := hstr ▸ isZero_blueAdj x y
    exact rasterIndex_pointwise_eq_solidOf (secondPass_of_isZero rfl s _ hadj) wk
  | knoll =>
    exact rasterIndex_pointwise_eq_solidOf
      (getD_sortNet_candidates_of_isZero rfl s le_rfl (by decide) hzero (getD_tm16_lt _)) wk
  | knollRoberts =>
    have hstrk : ((FP.ofDecimal 6 1).mul (strength s)).isZero = true := FP.isZero_mul (by decide) hzero
    exact rasterIndex_pointwise_eq_solidOf
      (getD_sortNet_candidates_of_isZero rfl s (by decide) (by decide) hstrk (Fin.isLt _)) wk

/-- Settles O59: the five methods and Solid write the same indices, and each index its palette entry. -/
theorem zeroStrengthIsSolid : Obligations.ZeroStrengthIsSolid := by
  intro i f s fr hi hv hf hfr hwf hstr
  obtain ⟨dm, hdm, hscatter, hjimenez, hchaotic⟩ :
      ∃ dm, ditherOf i = some (dm, f) ∧ dm ≠ .scatter ∧ dm ≠ .jimenez ∧ dm ≠ .chaoticNoise := by
    obtain rfl | rfl | rfl | rfl | rfl := hi <;> exact ⟨_, rfl, by decide, by decide, by decide⟩
  obtain ⟨t, g, hexec, hd⟩ := exists_exec_dither hdm hv hf hfr hwf
  obtain ⟨u, h, hexec', hd'⟩ := exists_exec_dither (i := .reduceSolid f) rfl hv hf hfr hwf
  refine ⟨t, u, g, h, hexec, hexec', hd.frame, hd'.frame, fun x y hx hy => ?_⟩
  have hindex : getIndex g x y = getIndex h x y := by
    rw [hd.index x y hx hy, hd'.getIndex_solid hx hy,
      rasterIndex_of_zero_strength hstr hscatter hjimenez hchaotic s.work y hx]
  refine ⟨?_, hindex⟩
  rw [hd.pixel x y hx hy, hd'.pixel x y hx hy, hindex]

end Sys2Proof.Machine
end

section
/-! SUPPORT. The error rows of the diffusion dithers, slot by slot (43_dither_diffusion.md R210 to R214, R216): what one
share leaves, and which shares a slot has taken when the raster reaches a pixel. -/

namespace Sys2Proof

/-! ### One channel of a triple -/

/-- The channels a diffusion dither spreads apart from one another (R210). -/
inductive Channel where
  | red | green | blue

/-- The value a triple has for a channel. -/
def Tri.get {α : Type} (c : Channel) (t : Tri α) : α :=
  match c with
  | .red => t.r
  | .green => t.g
  | .blue => t.b

theorem Tri.map_eq_of_get {α β : Type} {f : α → β} {t : Tri α} {v : Channel → β} (h : ∀ c, f (t.get c) = v c) :
    t.map f = ⟨v .red, v .green, v .blue⟩ := by
  rw [Tri.map, ← h .red, ← h .green, ← h .blue]
  rfl

end Sys2Proof

namespace Sys2Proof.Machine

open Sys2Proof

/-! ### The accumulate step (R216) -/

/-- What a slot that held `e` holds after its share of the residual `dv` with the weight `wt`. -/
def share (wt : FP) (dv : Int) (e : SByte) : SByte := sbyte ((FP.ofInt e.toInt).add ((FP.ofInt dv).mul wt)).trunc

theorem length_accumulate (row : List SByte) (x : Nat) (dv : Int) (wt : FP) :
    (accumulate row x dv wt).length = row.length := List.length_set

/-- The accumulate step gives its slot a share and leaves the others. -/
theorem getD_accumulate {row : List SByte} {x : Nat} (hx : x < row.length) (z : Nat) (dv : Int) (wt : FP) :
    (accumulate row x dv wt).getD z 0#8 = if z = x then share wt dv (row.getD z 0#8) else row.getD z 0#8 := by
  refine BitVec.eq_of_toInt_eq ((rowAt_set row x z _).trans ?_)
  by_cases hz : z = x
  · rw [if_pos ⟨hz, hx⟩, if_pos hz, hz]
    rfl
  · rw [if_neg (fun h => hz h.1), if_neg hz]
    rfl

/-- Settles O54: the step sets one entry, to the low byte of the truncated sum; the examples are computed. -/
theorem accumulateWritesOneSlot : Obligations.AccumulateWritesOneSlot := by
  refine ⟨fun row x z dv w hx => ⟨length_accumulate row x dv w, ?slots⟩, by decide +kernel, by decide +kernel⟩
  case slots =>
    rw [rowAt, getD_accumulate hx, apply_ite BitVec.toInt, share, toInt_sbyte]
    split
    case isTrue hz => rw [hz]; rfl
    case isFalse => rfl

theorem length_ite_accumulate (row : List SByte) (inside : Prop) [Decidable inside] (x : Nat) (dv : Int) (wt : FP) :
    (if inside then accumulate row x dv wt else row).length = row.length := by
  split
  · exact length_accumulate ..
  · rfl

/-- A share that is spread only inside the frame. -/
theorem getD_ite_accumulate {row : List SByte} {inside : Prop} [Decidable inside] {x : Nat}
    (hx : inside → x < row.length) (z : Nat) (dv : Int) (wt : FP) :
    (if inside then accumulate row x dv wt else row).getD z 0#8 =
      if inside ∧ z = x then share wt dv (row.getD z 0#8) else row.getD z 0#8 := by
  by_cases hin : inside
  · simp only [if_pos hin, getD_accumulate (hx hin), and_iff_right hin]
  · simp only [hin, if_false, false_and]

/-! ### The weights of a diffusion -/

/-- The weights of the four neighbours that take a share; Sierra Lite gives none to the pixel below right (R213,
R214). -/
structure Kernel where
  right : FP
  downLeft : FP
  down : FP
  downRight : Option FP

/-- Floyd-Steinberg's weights 7, 3, 5, 1 times `w1` (R213). -/
def fsKernel (w1 : FP) : Kernel :=
  ⟨w1.mul (FP.ofInt 7), w1.mul (FP.ofInt 3), w1.mul (FP.ofInt 5), some w1⟩

/-- Sierra Lite's weights (R214). -/
def sierraKernel (wr wh : FP) : Kernel := ⟨wr, wh, wh, none⟩

/-- The spread of one channel's residual with the weights of a kernel. -/
def Kernel.spread (k : Kernel) (w h x y : Nat) (dv : Int) (p : RowPair) : RowPair where
  cur := if x + 1 < w then accumulate p.cur (x + 1) dv k.right else p.cur
  next :=
    if y + 1 < h then
      let left := if 0 < x then accumulate p.next (x - 1) dv k.downLeft else p.next
      let down := accumulate left x dv k.down
      k.downRight.elim down fun wt => if x + 1 < w then accumulate down (x + 1) dv wt else down
    else p.next

theorem spreadFs_eq_spread (w1 : FP) : spreadFs w1 = (fsKernel w1).spread := rfl

theorem spreadSierra_eq_spread (wr wh : FP) : spreadSierra wr wh = (sierraKernel wr wh).spread := rfl

/-! ### What a slot has taken

`give wt x y e` is a slot that held `e` after pixel `(x, y)` has spread to it with the weight `wt`. -/

namespace Kernel

/-- The slot `z` of the row below, when the pixels of row `y` before `x` have spread. -/
def arrived (k : Kernel) (give : FP → Nat → Nat → SByte → SByte) (y x z : Nat) : SByte :=
  let fromLeft := if 0 < z ∧ z ≤ x then k.downRight.elim 0#8 fun wt => give wt (z - 1) y 0#8 else 0#8
  let fromAbove := if z < x then give k.down z y fromLeft else fromLeft
  if z + 1 < x then give k.downLeft (z + 1) y fromAbove else fromAbove

/-- The slot `z` of row `y` before the row begins, in a frame of width `w`. -/
def fromRowAbove (k : Kernel) (give : FP → Nat → Nat → SByte → SByte) (w : Nat) : Nat → Nat → SByte
  | 0, _ => 0#8
  | y + 1, z => k.arrived give y w z

/-- The slot `z` of row `y` when the pixels of the row before `x` have spread. -/
def taken (k : Kernel) (give : FP → Nat → Nat → SByte → SByte) (w y x z : Nat) : SByte :=
  if 0 < z ∧ z ≤ x then give k.right (z - 1) y (k.fromRowAbove give w y z) else k.fromRowAbove give w y z

variable (k : Kernel) (give : FP → Nat → Nat → SByte → SByte)

theorem arrived_zero (y z : Nat) : k.arrived give y 0 z = 0#8 := by
  have hnone : ¬(0 < z ∧ z ≤ 0) := by omega
  simp only [arrived, hnone, Nat.not_lt_zero, if_false]

theorem taken_zero (w y z : Nat) : k.taken give w y 0 z = k.fromRowAbove give w y z := if_neg (by omega)

/-- A pixel spreads to one slot of its own row. -/
theorem taken_succ (w y x z : Nat) :
    k.taken give w y (x + 1) z =
      if z = x + 1 then give k.right x y (k.taken give w y x z) else k.taken give w y x z := by
  by_cases hz : z = x + 1
  · subst hz
    simp [taken]
  · have hle : z ≤ x + 1 ↔ z ≤ x := by omega
    simp only [taken, hle, if_neg hz]

/-- A pixel spreads to three slots of the row below. -/
theorem arrived_succ (y x z : Nat) :
    k.arrived give y (x + 1) z =
      if z = x + 1 then k.downRight.elim (k.arrived give y x z) fun wt => give wt x y (k.arrived give y x z)
      else if z = x then give k.down x y (k.arrived give y x z)
      else if z + 1 = x then give k.downLeft x y (k.arrived give y x z)
      else k.arrived give y x z := by
  by_cases hright : z = x + 1
  · subst hright
    have hafter : ¬x + 1 + 1 < x := by omega
    simp [arrived, hafter]
  by_cases hbelow : z = x
  · subst hbelow
    simp [arrived]
  by_cases hleft : z + 1 = x
  · subst hleft
    have hle : z ≤ z + 1 + 1 := by omega
    simp [arrived, hle, hright]
  · have hle : z ≤ x + 1 ↔ z ≤ x := by omega
    have hlt : z < x + 1 ↔ z < x := by omega
    have hlt' : z < x ↔ z + 1 < x := by omega
    simp only [arrived, hle, hlt, hlt', Nat.add_lt_add_iff_right, if_neg hright, if_neg hbelow, if_neg hleft]

end Kernel

/-! ### The rows of one channel along the raster -/

/-- The slots of `p` when the pixels of row `y` before `x` have spread, in a frame of `w` by `h` pixels. -/
structure Kernel.Holds (k : Kernel) (give : FP → Nat → Nat → SByte → SByte) (w h y x : Nat) (p : RowPair) : Prop where
  cur_length : w ≤ p.cur.length
  next_length : w ≤ p.next.length
  cur : ∀ z < w, p.cur.getD z 0#8 = k.taken give w y x z
  next : y + 1 < h → ∀ z < w, p.next.getD z 0#8 = k.arrived give y x z

section Holds

variable {k : Kernel} {give : FP → Nat → Nat → SByte → SByte} {w h x y : Nat} {p : RowPair}

/-- A pixel that spreads nothing leaves the rows. -/
theorem Kernel.Holds.skip (hp : k.Holds give w h y x p) (hgive : ∀ wt e, give wt x y e = e) :
    k.Holds give w h y (x + 1) p where
  cur_length := hp.cur_length
  next_length := hp.next_length
  cur z hz := by rw [hp.cur z hz, Kernel.taken_succ, hgive, ite_self]
  next hy z hz := by
    rw [hp.next hy z hz, Kernel.arrived_succ]
    cases k.downRight <;> simp [hgive]

theorem Kernel.length_spread (k : Kernel) (w h x y : Nat) (dv : Int) (p : RowPair) :
    (k.spread w h x y dv p).cur.length = p.cur.length ∧ (k.spread w h x y dv p).next.length = p.next.length := by
  refine ⟨length_ite_accumulate .., ?_⟩
  simp only [spread]
  split
  case isTrue =>
    cases k.downRight <;> simp only [Option.elim, length_ite_accumulate, length_accumulate]
  case isFalse => rfl

/-- The slots of the row below that a spread reaches are the three below the pixel. -/
theorem Kernel.getD_next_spread (hy : y + 1 < h) (hx : x < w) (hlen : w ≤ p.next.length) {z : Nat} (hz : z < w)
    (dv : Int) :
    (k.spread w h x y dv p).next.getD z 0#8 =
      if z = x + 1 then k.downRight.elim (p.next.getD z 0#8) fun wt => share wt dv (p.next.getD z 0#8)
      else if z = x then share k.down dv (p.next.getD z 0#8)
      else if z + 1 = x then share k.downLeft dv (p.next.getD z 0#8)
      else p.next.getD z 0#8 := by
  have hlenLeft := length_ite_accumulate p.next (0 < x) (x - 1) dv k.downLeft
  have hleft := getD_ite_accumulate (row := p.next) (inside := 0 < x) (x := x - 1) (by omega) z dv k.downLeft
  have hplace : 0 < x ∧ z = x - 1 ↔ z + 1 = x := by omega
  have hdown := getD_accumulate (row := if 0 < x then accumulate p.next (x - 1) dv k.downLeft else p.next) (x := x)
    (by omega) z dv k.down
  rw [hleft, if_congr hplace rfl rfl] at hdown
  simp only [spread, if_pos hy]
  cases k.downRight with
  | none =>
    simp only [Option.elim, hdown]
    grind
  | some wt =>
    have hlenDown := length_accumulate (if 0 < x then accumulate p.next (x - 1) dv k.downLeft else p.next) x dv k.down
    simp only [Option.elim]
    rw [getD_ite_accumulate (by omega), hdown]
    grind

/-- A pixel that spreads `dv` gives a share to each of its neighbours (R213, R214). -/
theorem Kernel.Holds.spread (hp : k.Holds give w h y x p) (hx : x < w) {dv : Int}
    (hgive : ∀ wt e, give wt x y e = share wt dv e) : k.Holds give w h y (x + 1) (k.spread w h x y dv p) where
  cur_length := by rw [(k.length_spread ..).1]; exact hp.cur_length
  next_length := by rw [(k.length_spread ..).2]; exact hp.next_length
  cur z hz := by
    have hlen := hp.cur_length
    rw [Kernel.spread, getD_ite_accumulate (by omega), hp.cur z hz, Kernel.taken_succ, hgive]
    exact if_congr ⟨And.right, fun h => ⟨by omega, h⟩⟩ rfl rfl
  next hy z hz := by
    rw [Kernel.getD_next_spread hy hx hp.next_length hz, hp.next hy z hz, Kernel.arrived_succ]
    simp only [hgive]

end Holds

end Sys2Proof.Machine
end

section
/-! SUPPORT. The diffusion dithers without their rows (43_dither_diffusion.md R213 to R217): the error a pixel finds is
what its four neighbours gave it. -/

namespace Sys2Proof.Machine

open Sys2Proof

/-! ### The rows of a channel through the hooks -/

/-- `CUR` and `NEXT` of one channel. -/
def Work.rowPair (wk : Work) (c : Channel) : RowPair := ⟨wk.cur.get c, wk.next.get c⟩

theorem rowPair_startRows (w : Nat) (wk : Work) (c : Channel) :
    (startRows w wk).rowPair c = ⟨zeroRow w (wk.rowPair c).cur, zeroRow w (wk.rowPair c).next⟩ := by
  cases c <;> rfl

theorem rowPair_swapRows (w : Nat) (wk : Work) (c : Channel) :
    (swapRows w wk).rowPair c = ⟨(wk.rowPair c).next, zeroRow w (wk.rowPair c).next⟩ := by
  cases c <;> rfl

/-- A diffusion spreads the residual of each channel apart from the others (R217). -/
theorem rowPair_diffusionPixel (dm : DitherMethod) (s : State) (perturb : Nat → Nat → Byte → Int → Byte)
    (spread : Nat → Nat → Nat → Nat → Int → RowPair → RowPair) (w h x y : Nat) (col : Word32) (wk : Work) (c : Channel) :
    let r := diffusionPixel dm s perturb spread w h x y col wk
    r.2.rowPair c =
      spread w h x y (residual ((rgbOf (snapFor dm col)).get c) ((rgbOf (palAt s r.1.toNat)).get c)) (wk.rowPair c) := by
  cases c <;> rfl

theorem getD_zeroRow {w z : Nat} (hz : z < w) (row : List SByte) : (zeroRow w row).getD z 0#8 = 0#8 :=
  BitVec.eq_of_toInt_eq (rowAt_zeroRow row hz)

theorem le_length_zeroRow (w : Nat) (row : List SByte) : w ≤ (zeroRow w row).length := by
  rw [length_zeroRow]
  exact le_max_left ..

/-- The rows the start hook leaves: nothing has arrived (R211). -/
theorem Kernel.holds_zeroRow (k : Kernel) (give : FP → Nat → Nat → SByte → SByte) (w h : Nat) (p : RowPair) :
    k.Holds give w h 0 0 ⟨zeroRow w p.cur, zeroRow w p.next⟩ where
  cur_length := le_length_zeroRow ..
  next_length := le_length_zeroRow ..
  cur z hz := by rw [getD_zeroRow hz, taken_zero, fromRowAbove]
  next _ z hz := by rw [getD_zeroRow hz, arrived_zero]

/-- At a row's end what has arrived in `NEXT` is what the row below begins with (R212). -/
theorem Kernel.Holds.rowEnd {k : Kernel} {give : FP → Nat → Nat → SByte → SByte} {w h y : Nat} {p : RowPair}
    (hp : k.Holds give w h y w p) (hy : y + 1 < h) : k.Holds give w h (y + 1) 0 ⟨p.next, zeroRow w p.next⟩ where
  cur_length := hp.next_length
  next_length := le_length_zeroRow ..
  cur z hz := by rw [hp.next hy z hz, Kernel.taken_zero, Kernel.fromRowAbove]
  next _ z hz := by rw [getD_zeroRow hz, Kernel.arrived_zero]

/-! ### The rows along the raster -/

section Diffusion

variable {dm : DitherMethod} {s : State} {perturb : Nat → Nat → Byte → Int → Byte} {k : Kernel} {fr g : Frame}
  {wk : Work} {x y : Nat}

/-- One pixel, short-cut or not, gives its slots what `receives` says, where `g` has the pixel it writes (R191, R217). -/
theorem holds_pixelStep (hx : x < fr.width) (c : Channel)
    (hg : getPixel g x y = palAt s
      (pixelStep (diffusionMethod dm s perturb k.spread) s fr.width fr.height x y (getPixel fr x y) wk).1.toNat)
    (hwk : k.Holds (receives s dm fr g (Tri.get c)) fr.width fr.height y x (wk.rowPair c)) :
    k.Holds (receives s dm fr g (Tri.get c)) fr.width fr.height y (x + 1)
      ((pixelStep (diffusionMethod dm s perturb k.spread) s fr.width fr.height x y (getPixel fr x y) wk).2.rowPair c) := by
  unfold pixelStep at hg ⊢
  split at hg
  case isTrue hshort =>
    rw [if_pos hshort]
    exact hwk.skip fun wt e => if_pos hshort
  case isFalse hshort =>
    rw [if_neg hshort]
    refine (rowPair_diffusionPixel dm s perturb k.spread ..).symm ▸ hwk.spread hx fun wt e => ?_
    rw [receives, if_neg hshort, residualAt, hg]
    rfl

/-- Every pixel of `g` is the palette entry that the raster writes there. -/
def Writes (m : Method) (s : State) (fr : Frame) (wk : Work) (g : Frame) : Prop :=
  ∀ x y, x < fr.width → y < fr.height → getPixel g x y = palAt s (rasterIndex m s fr wk x y).toNat

variable (hg : Writes (diffusionMethod dm s perturb k.spread) s fr wk g)
include hg

theorem holds_rowWork (c : Channel) (hy : y < fr.height)
    (hwk : k.Holds (receives s dm fr g (Tri.get c)) fr.width fr.height y 0
      ((startWork (diffusionMethod dm s perturb k.spread) s fr wk y).rowPair c)) (hx : x ≤ fr.width) :
    k.Holds (receives s dm fr g (Tri.get c)) fr.width fr.height y x
      ((rowWork (diffusionMethod dm s perturb k.spread) s fr y
        (startWork (diffusionMethod dm s perturb k.spread) s fr wk y) x).rowPair c) := by
  induction x with
  | zero => exact hwk
  | succ x ih => exact holds_pixelStep hx c (hg x y hx hy) (ih (by omega))

theorem holds_startWork (c : Channel) (hy : y < fr.height) :
    k.Holds (receives s dm fr g (Tri.get c)) fr.width fr.height y 0
      ((startWork (diffusionMethod dm s perturb k.spread) s fr wk y).rowPair c) := by
  induction y with
  | zero => exact (rowPair_startRows ..).symm ▸ k.holds_zeroRow ..
  | succ y ih =>
    have hrow := holds_rowWork hg c (by omega) (ih (by omega)) le_rfl
    exact (rowPair_swapRows ..).symm ▸ hrow.rowEnd hy

/-- The error a pixel finds in its slot is what the pixels before it gave the slot. -/
theorem rowAt_cur_eq_taken (c : Channel) (hx : x < fr.width) (hy : y < fr.height) :
    rowAt ((rowWork (diffusionMethod dm s perturb k.spread) s fr y
        (startWork (diffusionMethod dm s perturb k.spread) s fr wk y) x).cur.get c) x =
      (k.taken (receives s dm fr g (Tri.get c)) fr.width y x x).toInt :=
  congrArg BitVec.toInt ((holds_rowWork hg c hy (holds_startWork hg c hy) hx.le).cur x hx)

/-- The index a diffusion writes, without its rows (R217). -/
theorem rasterIndex_diffusion (hx : x < fr.width) (hy : y < fr.height) :
    rasterIndex (diffusionMethod dm s perturb k.spread) s fr wk x y =
      if shortcut s (getPixel fr x y) then 0#8
      else
        let error := fun c => (k.taken (receives s dm fr g (Tri.get c)) fr.width y x x).toInt
        lookup s (Tri.zip (perturb x y) (rgbOf (snapFor dm (getPixel fr x y)))
          ⟨error .red, error .green, error .blue⟩) := by
  have herror := Tri.map_eq_of_get (f := fun row => rowAt row x) fun c => rowAt_cur_eq_taken hg c hx hy
  rw [rasterIndex, pixelStep]
  split
  · rfl
  · exact congrArg (fun e => lookup s (Tri.zip (perturb x y) (rgbOf (snapFor dm (getPixel fr x y))) e)) herror

end Diffusion

/-! ### The errors of the three dithers -/

/-- What the slot of a pixel has taken under Floyd-Steinberg's weights, neighbour by neighbour (R213). -/
theorem taken_fsKernel (s : State) (dm : DitherMethod) (w1 : FP) (fr g : Frame) (ch : Tri Byte → Byte) {x : Nat} (y : Nat)
    (hx : x < fr.width) :
    (fsKernel w1).taken (receives s dm fr g ch) fr.width y x x = errorFs s dm w1 fr g ch x y := by
  cases y <;> simp [errorFs, Kernel.taken, Kernel.fromRowAbove, Kernel.arrived, fsKernel, hx, hx.le]

/-- What the slot of a pixel has taken under Sierra Lite's weights (R214). -/
theorem taken_sierraKernel (s : State) (wr wh : FP) (fr g : Frame) (ch : Tri Byte → Byte) {x : Nat} (y : Nat)
    (hx : x < fr.width) :
    (sierraKernel wr wh).taken (receives s .sierraLite fr g ch) fr.width y x x = errorSierra s wr wh fr g ch x y := by
  cases y <;> simp [errorSierra, Kernel.taken, Kernel.fromRowAbove, Kernel.arrived, sierraKernel, hx]

/-- A diffusion of a present frame: each index from the errors `error`, each pixel from its index. -/
theorem exists_exec_diffusion {i : Instr} {dm : DitherMethod} {f : BitVec 16} {s : State} {fr : Frame}
    {perturb : Nat → Nat → Byte → Int → Byte} {k : Kernel}
    {error : Frame → (Tri Byte → Byte) → Nat → Nat → SByte} (hi : ditherOf i = some (dm, f))
    (hmethod : ditherMethod dm s = diffusionMethod dm s perturb k.spread)
    (herror : ∀ g ch x y, x < fr.width → k.taken (receives s dm fr g ch) fr.width y x x = error g ch x y)
    (hv : s.valid = true) (hf : f.toNat < Config.maxFrames) (hfr : frameAt s f.toNat = some fr) (hwf : fr.wf = true) :
    ∃ t g, exec i s = .next t ∧ frameAt t f.toNat = some g ∧
      ∀ x y, x < fr.width → y < fr.height →
        let target := fun ch : Tri Byte → Byte =>
          perturb x y (ch (rgbOf (snapFor dm (getPixel fr x y)))) (error g ch x y).toInt
        getIndex g x y =
          (if isOpaque (getPixel fr x y) = false ∧ palAt s 0 = 0#32 then 0#8
          else mapAt s (key3 (target Tri.r) (target Tri.g) (target Tri.b))) ∧
        getPixel g x y = palAt s (getIndex g x y).toNat := by
  obtain ⟨t, g, hexec, hd⟩ := exists_exec_dither hi hv hf hfr hwf
  rw [hmethod] at hd
  have hg : Writes (diffusionMethod dm s perturb k.spread) s fr s.work g := fun x y hx hy => by
    rw [hd.pixel x y hx hy, hd.index x y hx hy]
  refine ⟨t, g, hexec, hd.frame, fun x y hx hy => ⟨?index, hd.pixel x y hx hy⟩⟩
  case index =>
    rw [hd.index x y hx hy, rasterIndex_diffusion hg hx hy]
    simp only [herror g _ x y hx, shortcut_iff]
    rfl

theorem ditherMethod_floydSteinberg (s : State) :
    ditherMethod .floydSteinberg s = diffusionMethod .floydSteinberg s (fun _ _ => perturbInt)
      (fsKernel ((strength s).mul (FP.ofDecimal 125 3))).spread := rfl

theorem ditherMethod_sierraLite (s : State) :
    ditherMethod .sierraLite s = diffusionMethod .sierraLite s (fun _ _ => perturbInt)
      (sierraKernel (strength s) ((strength s).mul (FP.ofDecimal 5 1))).spread := rfl

theorem ditherMethod_scatter (s : State) :
    ditherMethod .scatter s = diffusionMethod .scatter s (fun x y => perturbScaled (bnmul (bnIndex x y)))
      (fsKernel ((strength s).mul (FP.ofDecimal 140625 6))).spread := rfl

/-- Settles O55: the errors of Floyd-Steinberg's weights, added and clamped. -/
theorem floydSteinbergPixels : Obligations.FloydSteinbergPixels := by
  intro f s fr hv hf hfr hwf
  obtain ⟨t, g, hexec, hframe, hpixels⟩ := exists_exec_diffusion (i := .reduceFs f) rfl (ditherMethod_floydSteinberg s)
    (fun g ch x y => taken_fsKernel s _ _ fr g ch y) hv hf hfr hwf
  exact ⟨t, g, hexec, hframe, fun x y hx hy => hpixels x y hx hy⟩

/-- Settles O56: the errors of Sierra Lite's weights, added and clamped. -/
theorem sierraLitePixels : Obligations.SierraLitePixels := by
  intro f s fr hv hf hfr hwf
  obtain ⟨t, g, hexec, hframe, hpixels⟩ := exists_exec_diffusion (i := .reduceSierra f) rfl (ditherMethod_sierraLite s)
    (fun g ch x y => taken_sierraKernel s _ _ fr g ch y) hv hf hfr hwf
  exact ⟨t, g, hexec, hframe, fun x y hx hy => hpixels x y hx hy⟩

/-- Settles O57: the errors of Floyd-Steinberg's weights on Scatter's own base weight, multiplied before they are
added. -/
theorem scatterPixels : Obligations.ScatterPixels := by
  intro f s fr hv hf hfr hwf
  obtain ⟨t, g, hexec, hframe, hpixels⟩ := exists_exec_diffusion (i := .reduceScatter f) rfl (ditherMethod_scatter s)
    (fun g ch x y => taken_fsKernel s _ _ fr g ch y) hv hf hfr hwf
  exact ⟨t, g, hexec, hframe, fun x y hx hy => hpixels x y hx hy⟩

end Sys2Proof.Machine
end

section
/-! SUPPORT. What a REDUCE sees of the dither working state it begins with: nothing (43_dither_diffusion.md R211, R218;
10_state.md R37, R39). -/

namespace Sys2Proof.Machine

open Sys2Proof

/-! ### The part of the working state that a method sees -/

/-- On a frame of width `w` the hooks of a method see and keep the part `part` of the working state alone, which its
start hook sets to one value. -/
structure Method.Sees (m : Method) (w : Nat) (part : Work → Work) : Prop where
  start : ∀ wk wk', part (m.start w wk) = part (m.start w wk')
  pixel : ∀ h y c wk, ∀ x < w,
    m.pixel w h x y c (part wk) = ((m.pixel w h x y c wk).1, part (m.pixel w h x y c wk).2)
  rowEnd : ∀ wk, m.rowEnd w (part wk) = part (m.rowEnd w wk)

/-- A method without hooks sees nothing of it. -/
theorem Method.pointwise_sees (index : Nat → Nat → Word32 → Byte) (w : Nat) :
    (Method.pointwise index).Sees w fun _ => Work.reset where
  start _ _ := rfl
  pixel _ _ _ _ _ _ := rfl
  rowEnd _ := rfl

/-- The accumulator alone. -/
def Work.chaosPart (wk : Work) : Work := { Work.reset with chaos := wk.chaos }

/-- Chaotic-Noise sees the accumulator (R39, R235). -/
theorem methodChaotic_sees (s : State) (w : Nat) : (methodChaotic s).Sees w Work.chaosPart where
  start _ _ := rfl
  pixel _ _ _ _ _ _ := rfl
  rowEnd _ := rfl

/-! ### The first entries of the error rows -/

/-- The first `w` entries of every error row. -/
def Work.frontRows (w : Nat) (wk : Work) : Work :=
  ⟨wk.cur.map (List.take w), wk.next.map (List.take w), 0#64⟩

/-- The first `w` entries of both rows of a channel. -/
def RowPair.front (w : Nat) (p : RowPair) : RowPair := ⟨p.cur.take w, p.next.take w⟩

theorem rowAt_take {w x : Nat} (hx : x < w) (row : List SByte) : rowAt (row.take w) x = rowAt row x := by
  simp only [rowAt, List.getD_eq_getElem?_getD, List.getElem?_take_of_lt hx]

theorem take_zeroRow (w : Nat) (row : List SByte) : (zeroRow w row).take w = List.replicate w 0#8 := by
  rw [zeroRow, List.take_left' List.length_replicate]

theorem zeroRow_take (w : Nat) (row : List SByte) : zeroRow w (row.take w) = (zeroRow w row).take w := by
  rw [take_zeroRow, zeroRow, List.drop_take_self, List.append_nil]

theorem take_accumulate {w x : Nat} (hx : x < w) (row : List SByte) (dv : Int) (wt : FP) :
    (accumulate row x dv wt).take w = accumulate (row.take w) x dv wt := by
  rw [accumulate, List.take_set, accumulate, rowAt_take hx]

theorem take_ite_accumulate {w x : Nat} {inside : Prop} [Decidable inside] (hx : inside → x < w) (row : List SByte)
    (dv : Int) (wt : FP) :
    (if inside then accumulate row x dv wt else row).take w =
      if inside then accumulate (row.take w) x dv wt else row.take w := by
  split
  case isTrue hin => exact take_accumulate (hx hin) ..
  case isFalse => rfl

/-- A spread stays within the first `w` entries. -/
theorem Kernel.front_spread (k : Kernel) {w x : Nat} (hx : x < w) (h y : Nat) (dv : Int) (p : RowPair) :
    (k.spread w h x y dv p).front w = k.spread w h x y dv (p.front w) := by
  have hleft := take_ite_accumulate (inside := 0 < x) (x := x - 1) (w := w) (by omega) p.next dv k.downLeft
  simp only [spread, RowPair.front, RowPair.mk.injEq]
  refine ⟨take_ite_accumulate id .., ?next⟩
  case next =>
    split
    case isTrue =>
      cases k.downRight with
      | none => simp only [Option.elim, take_accumulate hx, hleft]
      | some wt => simp only [Option.elim, take_ite_accumulate id, take_accumulate hx, hleft]
    case isFalse => rfl

/-- A diffusion sees the first `W` entries of its rows (R211). -/
theorem diffusionMethod_sees (dm : DitherMethod) (s : State) (perturb : Nat → Nat → Byte → Int → Byte) (k : Kernel)
    (w : Nat) : (diffusionMethod dm s perturb k.spread).Sees w (Work.frontRows w) where
  start _ _ := by simp only [diffusionMethod, startRows, Work.frontRows, Tri.map, take_zeroRow]
  pixel h y c wk x hx := by
    have hspread (dv : Int) (cur next : List SByte) :
        k.spread w h x y dv ⟨cur.take w, next.take w⟩ = (k.spread w h x y dv ⟨cur, next⟩).front w :=
      (k.front_spread hx h y dv ⟨cur, next⟩).symm
    simp only [diffusionMethod, diffusionPixel, Work.frontRows, Tri.map, Tri.zip, rowAt_take hx, hspread, RowPair.front]
  rowEnd _ := by simp only [diffusionMethod, swapRows, Work.frontRows, Tri.map, zeroRow_take]

/-- Every method sees nothing of the working state but what its start hook sets. -/
theorem ditherMethod_sees (dm : DitherMethod) (s : State) (w : Nat) : ∃ part, (ditherMethod dm s).Sees w part := by
  cases dm with
  | floydSteinberg => exact ⟨_, ditherMethod_floydSteinberg s ▸ diffusionMethod_sees ..⟩
  | sierraLite => exact ⟨_, ditherMethod_sierraLite s ▸ diffusionMethod_sees ..⟩
  | scatter => exact ⟨_, ditherMethod_scatter s ▸ diffusionMethod_sees ..⟩
  | chaoticNoise => exact ⟨_, methodChaotic_sees s w⟩
  | solid | jimenez | blueNoise | knoll | knollRoberts => exact ⟨_, Method.pointwise_sees ..⟩

/-! ### The loop -/

/-- Two states of the loop with one frame and the same part of the working state. -/
def SameSight (part : Work → Work) (a b : Frame × Work) : Prop := a.1 = b.1 ∧ part a.2 = part b.2

section Sees

variable {m : Method} {w : Nat} {part : Work → Work} {a b : Frame × Work}

/-- The hook of a pixel answers the same index for working states with the same part. -/
theorem Method.Sees.pixel_congr (hm : m.Sees w part) {x : Nat} (hx : x < w) (h y : Nat) (c : Word32) {wk wk' : Work}
    (hwk : part wk = part wk') :
    (m.pixel w h x y c wk).1 = (m.pixel w h x y c wk').1 ∧
      part (m.pixel w h x y c wk).2 = part (m.pixel w h x y c wk').2 := by
  have hpixel := hm.pixel h y c wk x hx
  rw [hwk, hm.pixel h y c wk' x hx] at hpixel
  exact ⟨(Prod.ext_iff.mp hpixel).1.symm, (Prod.ext_iff.mp hpixel).2.symm⟩

theorem Method.Sees.rasterPixel (hm : m.Sees w part) {x : Nat} (hx : x < w) (s : State) (h y : Nat)
    (hab : SameSight part a b) : SameSight part (rasterPixel m s w h y a x) (rasterPixel m s w h y b x) := by
  obtain ⟨hframe, hpart⟩ := hab
  unfold Machine.rasterPixel
  rw [hframe]
  simp only
  split
  · exact ⟨rfl, hpart⟩
  · obtain ⟨hindex, hpart'⟩ := hm.pixel_congr hx h y (getPixel b.1 x y) hpart
    exact ⟨by rw [hindex], hpart'⟩

theorem Method.Sees.rasterRow (hm : m.Sees w part) (s : State) (h y : Nat) (hab : SameSight part a b) :
    SameSight part (rasterRow m s w h a y) (rasterRow m s w h b y) := by
  obtain ⟨hframe, hpart⟩ := List.foldl_rel (r := SameSight part) (l := List.range w) hab fun x hx _ _ hab =>
    hm.rasterPixel (List.mem_range.mp hx) s h y hab
  exact ⟨hframe, by rw [Machine.rasterRow, ← hm.rowEnd, hpart, hm.rowEnd]; rfl⟩

/-- The frame the loop leaves does not depend on the working state it began with. -/
theorem Method.Sees.ditherFrame {fr : Frame} (hm : m.Sees fr.width part) (s : State) (wk wk' : Work) :
    (ditherFrame m s fr wk).1 = (ditherFrame m s fr wk').1 := by
  have hstart : SameSight part (setBlend fr .replace, m.start fr.width wk) (setBlend fr .replace, m.start fr.width wk') :=
    ⟨rfl, hm.start wk wk'⟩
  have hraster := List.foldl_rel (r := SameSight part) (l := List.range fr.height) hstart fun y _ _ _ hab =>
    hm.rasterRow s fr.height y hab
  exact congrArg (setBlend · fr.blend) hraster.1

end Sees

/-! ### What a REDUCE sees of the state -/

section SamePalette

variable {s u : State} (h : SamePalette s u)
include h

theorem SamePalette.lookup : Machine.lookup u = Machine.lookup s := funext fun t => h.mapAt (keyOf t)

theorem SamePalette.strength : Machine.strength u = Machine.strength s := by
  rw [Machine.strength, h.ds, h.pb]
  rfl

theorem SamePalette.shortcut (c : Word32) : Machine.shortcut u c = Machine.shortcut s c := by
  simp only [Machine.shortcut, reserved, h.palAt]

theorem SamePalette.gamAt (i : Nat) : Machine.gamAt u i = Machine.gamAt s i := congrArg (Memory.read · i) h.gam

theorem SamePalette.candidateLoop (o : Tri Byte) (strk : FP) (n : Nat) (e : Tri Int) :
    candidateLoop u o strk n e = candidateLoop s o strk n e := by
  induction n generalizing e with
  | zero => rfl
  | succ n ih => simp only [Machine.candidateLoop, h.lookup, h.gamAt, ih]

theorem SamePalette.sortNet : Machine.sortNet u = Machine.sortNet s := by
  have hlum : lum u = lum s := funext fun i => by rw [lum, h.palAt, lum]
  have hexchange : compareExchange u = compareExchange s := by
    funext cand pq
    rw [compareExchange, hlum, compareExchange]
  funext net cand
  rw [Machine.sortNet, hexchange, Machine.sortNet]

theorem SamePalette.diffusionMethod (dm : DitherMethod) (perturb : Nat → Nat → Byte → Int → Byte)
    (spread : Nat → Nat → Nat → Nat → Int → RowPair → RowPair) :
    Machine.diffusionMethod dm u perturb spread = Machine.diffusionMethod dm s perturb spread := by
  have hpixel : diffusionPixel dm u perturb spread = diffusionPixel dm s perturb spread := by
    funext w h' x y c wk
    simp only [diffusionPixel, h.lookup, h.palAt]
  rw [Machine.diffusionMethod, hpixel, Machine.diffusionMethod]

theorem SamePalette.twoPassIndex (dm : DitherMethod) (adj : Nat → Nat → FP) :
    Machine.twoPassIndex dm u adj = Machine.twoPassIndex dm s adj := by
  funext x y c
  simp only [Machine.twoPassIndex, firstPass, secondPass, h.lookup, h.palAt]

theorem SamePalette.candidates (dm : DitherMethod) : Machine.candidates dm u = Machine.candidates dm s := by
  funext c n strk
  simp only [Machine.candidates, h.candidateLoop]

/-- A method reads the palette store and the strength alone (R45). -/
theorem SamePalette.ditherMethod (dm : DitherMethod) : Machine.ditherMethod dm u = Machine.ditherMethod dm s := by
  cases dm with
  | solid =>
    have hindex : solidIndex u = solidIndex s := by
      funext x y c
      simp only [solidIndex, h.lookup]
    simp only [Machine.ditherMethod, methodSolid, hindex]
  | floydSteinberg => simp only [Machine.ditherMethod, methodFs, h.strength, h.diffusionMethod]
  | sierraLite => simp only [Machine.ditherMethod, methodSierra, h.strength, h.diffusionMethod]
  | scatter => simp only [Machine.ditherMethod, methodScatter, h.strength, h.diffusionMethod]
  | jimenez => simp only [Machine.ditherMethod, methodJimenez, h.strength, h.twoPassIndex]
  | blueNoise => simp only [Machine.ditherMethod, methodBlue, h.strength, h.twoPassIndex]
  | chaoticNoise =>
    have hpixel : chaoticPixel u = chaoticPixel s := by
      funext w h' x y c wk
      simp only [chaoticPixel, firstPass, secondPass, h.lookup, h.palAt, h.strength]
    simp only [Machine.ditherMethod, methodChaotic, hpixel]
  | knoll =>
    have hindex : knollIndex u = knollIndex s := by
      funext x y c
      simp only [knollIndex, h.sortNet, h.candidates, h.strength]
    simp only [Machine.ditherMethod, methodKnoll, hindex]
  | knollRoberts =>
    have hindex : knollRobertsIndex u = knollRobertsIndex s := by
      funext x y c
      simp only [knollRobertsIndex, h.sortNet, h.candidates, h.strength]
    simp only [Machine.ditherMethod, methodKnollr, hindex]

theorem SamePalette.ditherFrame (m : Method) (fr : Frame) (wk : Work) :
    Machine.ditherFrame m u fr wk = Machine.ditherFrame m s fr wk := by
  have hpixel : rasterPixel m u = rasterPixel m s := by
    funext w h' y acc x
    simp only [rasterPixel, h.shortcut, h.palAt]
  have hrow : rasterRow m u = rasterRow m s := by
    funext w h' acc y
    simp only [rasterRow, hpixel]
  simp only [Machine.ditherFrame, raster, hrow]

end SamePalette

theorem frm_dithered (m : Method) (f : Nat) (fr : Frame) (s : State) :
    (dithered m f fr s).frm = if fr.isEmpty then s.frm else Store.put s.frm f (ditherFrame m s fr s.work).1 := by
  unfold dithered
  split <;> rfl

theorem SamePalette.frm_dithered {s u : State} (h : SamePalette s u) (hfrm : u.frm = s.frm) (dm : DitherMethod) (f : Nat)
    (fr : Frame) :
    (dithered (Machine.ditherMethod dm u) f fr u).frm = (dithered (Machine.ditherMethod dm s) f fr s).frm := by
  obtain ⟨part, hsees⟩ := ditherMethod_sees dm s fr.width
  rw [Machine.frm_dithered, Machine.frm_dithered, hfrm, h.ditherMethod, h.ditherFrame, hsees.ditherFrame s u.work s.work]

/-- Settles O58: the rows and `S` are seen only after the start hook has set them. -/
theorem earlierDitherStateUnseen : Obligations.EarlierDitherStateUnseen := by
  intro i s u t hi hpalette hfrm hexec
  obtain ⟨⟨dm, f⟩, hdm⟩ := Option.isSome_iff_exists.mp hi
  rw [exec_dither hdm] at hexec
  obtain ⟨hv, hf, hframe⟩ := reduceFrame_next_iff.mp hexec
  have hframeAt : frameAt u f.toNat = frameAt s f.toNat := congrArg (Store.find · f.toNat) hfrm
  have hnext {v : State} (hv' : frameAt u f.toNat = none ∧ v = u ∨
      ∃ fr, frameAt u f.toNat = some fr ∧ v = dithered (ditherMethod dm u) f.toNat fr u) : exec i u = .next v := by
    rw [exec_dither hdm]
    exact reduceFrame_next_iff.mpr ⟨hpalette.valid.trans hv, hf, hv'⟩
  obtain ⟨hnone, rfl⟩ | ⟨fr, hfr, rfl⟩ := hframe
  · exact ⟨u, hnext (.inl ⟨hframeAt.trans hnone, rfl⟩), hfrm⟩
  · exact ⟨_, hnext (.inr ⟨fr, hframeAt.trans hfr, rfl⟩), hpalette.frm_dithered hfrm dm f.toNat fr⟩

end Sys2Proof.Machine
end

section
/-! SUPPORT. The noise dithers pixel by pixel (44_dither_noise.md): the two lookups around an adjustment (R230), the
adjustments that depend on the position alone (R232, R234), and the accumulator of Chaotic-Noise along the raster
(R235). -/

namespace Sys2Proof

/-! ### Constants of the formulas that the model writes in another form -/

theorem FP.ofInt_one : FP.ofInt 1 = FP.one := by decide +kernel

/-- The last constant of R234, `−0x1.6p−10`, in decimals. -/
theorem FP.ofDecimal_blueConstant : FP.ofDecimal (-13427734375) 13 = FP.ofScaled (-11) (-13) := by decide +kernel

end Sys2Proof

namespace Sys2Proof.Machine

open Sys2Proof

/-! ### The working state at the end of the raster -/

/-- The working state a REDUCE of a frame with pixels leaves is that at the end of the raster. -/
theorem work_dithered {m : Method} {s : State} {f : Nat} {fr : Frame} (hwf : fr.wf = true)
    (hempty : fr.isEmpty = false) : (dithered m f fr s).work = startWork m s fr s.work fr.height := by
  obtain ⟨-, -, -, -, -, hwork⟩ := ditherFrame_spec (m := m) (s := s) (wk := s.work) hwf
  rw [dithered, hempty]
  exact hwork

/-! ### The two passes (R230) -/

/-- The index the two passes give a pixel under the adjustment `adj`: 0 on the shortcut, else the second lookup. -/
def twoPassOf (dm : DitherMethod) (s : State) (adj : FP) (c : Word32) : Byte :=
  if isOpaque c = false ∧ palAt s 0 = 0#32 then 0#8 else secondPass dm s c (palAt s (firstPass dm s c).toNat) adj

/-- A method whose pixel is the second pass under `adj` gives the index of the two passes (R191, R230). -/
theorem rasterIndex_eq_twoPassOf {m : Method} {s : State} {fr : Frame} {wk : Work} {x y : Nat} {dm : DitherMethod}
    {adj : FP}
    (hpixel : (m.pixel fr.width fr.height x y (getPixel fr x y) (rowWork m s fr y (startWork m s fr wk y) x)).1 =
      secondPass dm s (getPixel fr x y) (palAt s (firstPass dm s (getPixel fr x y)).toNat) adj) :
    rasterIndex m s fr wk x y = twoPassOf dm s adj (getPixel fr x y) := by
  simp only [rasterIndex, pixelStep, twoPassOf, ← shortcut_iff]
  split
  case isTrue => rfl
  case isFalse => exact hpixel

/-! ### Adjustments that depend on the position alone (R231, R233) -/

/-- A dither without state on a present frame: each index by the two passes under the adjustment of its position. -/
theorem exists_exec_ordered {i : Instr} {dm : DitherMethod} {f : BitVec 16} {s : State} {fr : Frame}
    {adj : Nat → Nat → FP} (hi : ditherOf i = some (dm, f))
    (hmethod : ditherMethod dm s = Method.pointwise (twoPassIndex dm s adj)) (hv : s.valid = true)
    (hf : f.toNat < Config.maxFrames) (hfr : frameAt s f.toNat = some fr) (hwf : fr.wf = true) :
    ∃ t g, exec i s = .next t ∧ frameAt t f.toNat = some g ∧ t.work = s.work ∧
      ∀ x y, x < fr.width → y < fr.height →
        getIndex g x y = twoPassOf dm s (adj x y) (getPixel fr x y) ∧
        getPixel g x y = palAt s (getIndex g x y).toNat := by
  obtain ⟨t, g, hexec, hd⟩ := exists_exec_dither hi hv hf hfr hwf
  have hwork : t.work = s.work :=
    reduceFrame_keeps_work (g := id) (hmethod ▸ Method.pointwise_keeps _ id) (exec_dither hi s ▸ hexec)
  rw [hmethod] at hd
  exact ⟨t, g, hexec, hd.frame, hwork, fun x y hx hy =>
    ⟨(hd.index x y hx hy).trans (rasterIndex_eq_twoPassOf rfl), hd.pixel x y hx hy⟩⟩

/-- Settles O48: both dithers are pointwise, with the adjustment of R232 or of R234. -/
theorem orderedNoisePixels : Obligations.OrderedNoisePixels := by
  intro i f s fr hi hv hf hfr hwf
  rw [FP.ofInt_one, FP.ofDecimal_blueConstant]
  obtain rfl | rfl := hi
  case inl =>
    obtain ⟨t, g, hexec, hframe, hwork, hpixels⟩ :=
      exists_exec_ordered (i := .reduceJimenez f) (adj := jimenezAdj (strength s)) rfl rfl hv hf hfr hwf
    refine ⟨t, g, hexec, hframe, hwork, fun x y hx hy => ?_⟩
    simp only [if_true]
    exact hpixels x y hx hy
  case inr =>
    obtain ⟨t, g, hexec, hframe, hwork, hpixels⟩ :=
      exists_exec_ordered (i := .reduceBlue f) (adj := blueAdj (strength s)) rfl rfl hv hf hfr hwf
    refine ⟨t, g, hexec, hframe, hwork, fun x y hx hy => ?_⟩
    simp only [reduceCtorEq, if_false]
    exact hpixels x y hx hy

/-! ### The accumulator of Chaotic-Noise (R39, R235) -/

theorem chaosBefore_zero_zero (s : State) (fr : Frame) : chaosBefore s fr 0 0 = Config.chaosSeed := by
  simp [chaosBefore]

/-- A pixel that is not short-cut mixes its first-pass colour into the accumulator. -/
theorem chaosBefore_succ (s : State) {fr : Frame} {x : Nat} (y : Nat) (hx : x < fr.width) :
    chaosBefore s fr (x + 1) y =
      if shortcut s (getPixel fr x y) then chaosBefore s fr x y
      else chaosNext (chaosBefore s fr x y) (palAt s (firstPass .chaoticNoise s (getPixel fr x y)).toNat) := by
  have hcolumn : (y * fr.width + x) % fr.width = x := by
    rw [Nat.mul_add_mod', Nat.mod_eq_of_lt hx]
  have hrow : (y * fr.width + x) / fr.width = y := by
    rw [Nat.mul_comm, Nat.mul_add_div (by omega), Nat.div_eq_of_lt hx, Nat.add_zero]
  unfold chaosBefore
  rw [← Nat.add_assoc, List.range_succ, List.filter_append, List.foldl_append, List.filter_singleton, hcolumn, hrow]
  cases shortcut s (getPixel fr x y) with
  | true => rfl
  | false =>
    simp only [Bool.not_false, cond_true, List.foldl_cons, List.foldl_nil, hcolumn, hrow]
    rfl

/-- A row begins with what the row above ended with. -/
theorem chaosBefore_rowEnd (s : State) (fr : Frame) (y : Nat) :
    chaosBefore s fr 0 (y + 1) = chaosBefore s fr fr.width y := by
  rw [chaosBefore, chaosBefore, Nat.add_mul, Nat.one_mul, Nat.add_zero]

/-- The accumulator that reaches a pixel, from the one that reaches its row. -/
theorem chaos_rowWork {s : State} {fr : Frame} {y : Nat} {wk : Work} (hwk : wk.chaos = chaosBefore s fr 0 y) {x : Nat}
    (hx : x ≤ fr.width) : (rowWork (methodChaotic s) s fr y wk x).chaos = chaosBefore s fr x y := by
  induction x with
  | zero => exact hwk
  | succ x ih =>
    rw [rowWork, pixelStep, chaosBefore_succ s y hx, ← ih (by omega)]
    split
    case isTrue => rfl
    case isFalse => rfl

/-- The accumulator that reaches a row is `chaosBefore`, whatever the command began with. -/
theorem chaos_startWork (s : State) (fr : Frame) (wk : Work) (y : Nat) :
    (startWork (methodChaotic s) s fr wk y).chaos = chaosBefore s fr 0 y := by
  induction y with
  | zero => exact (chaosBefore_zero_zero s fr).symm
  | succ y ih => exact (chaos_rowWork ih le_rfl).trans (chaosBefore_rowEnd s fr y).symm

/-! ### Chaotic-Noise -/

/-- The adjustment of Chaotic-Noise from the accumulator before its pixel (R235). -/
def chaoticAdjAt (s : State) (fr : Frame) (x y : Nat) : FP :=
  let before := chaosBefore s fr x y
  let after := chaosNext before (palAt s (firstPass .chaoticNoise s (getPixel fr x y)).toNat)
  chaoticAdjOf (strength s) (chaoticBase (strength s) x y) (Config.chaos3 before after).toInt x y

theorem rasterIndex_chaotic {s : State} {fr : Frame} (wk : Work) {x : Nat} (y : Nat) (hx : x < fr.width) :
    rasterIndex (methodChaotic s) s fr wk x y =
      twoPassOf .chaoticNoise s (chaoticAdjAt s fr x y) (getPixel fr x y) := by
  refine rasterIndex_eq_twoPassOf ?_
  rw [chaoticAdjAt, ← chaos_rowWork (chaos_startWork s fr wk y) hx.le]
  rfl

/-- Settles O49: the accumulator that reaches a pixel is `chaosBefore`, and the rows are not written. -/
theorem chaoticPixels : Obligations.ChaoticPixels := by
  intro f s fr hv hf hfr hwf hwidth hheight
  have hexec : exec (.reduceChaotic f) s = .next (dithered (methodChaotic s) f.toNat fr s) :=
    reduceFrame_next_iff.mpr ⟨hv, hf, .inr ⟨fr, hfr, rfl⟩⟩
  obtain ⟨g, hd⟩ := dithered_spec (m := methodChaotic s) hfr hwf
  obtain ⟨hcur, hnext⟩ := Prod.mk.inj ((methodChaotic_keeps_rows s).dithered f.toNat fr s)
  have hchaos : (dithered (methodChaotic s) f.toNat fr s).work.chaos = chaosBefore s fr 0 fr.height := by
    rw [work_dithered hwf (Frame.not_isEmpty_of_lt hwidth hheight), chaos_startWork]
  exact ⟨_, g, hexec, hd.frame, hcur, hnext, hchaos, fun x y hx hy =>
    ⟨(hd.index x y hx hy).trans (rasterIndex_chaotic s.work y hx), hd.pixel x y hx hy⟩⟩

end Sys2Proof.Machine
end

section
/-! SUPPORT. The sorting networks of the pattern dithers (45_dither_pattern.md R252 to R254, R258). A compare-exchange
permutes; a network sorts when it sorts every list of truth values (the 0-1 principle), and it sorts all of these when
it sorts the truth tables of its inputs, each table one number. -/

namespace Sys2Proof.Machine

open Sys2Proof

/-! ### The network permutes (R258) -/

theorem compareExchange_perm (s : State) {cand : List Byte} {pq : Nat × Nat} (hp : pq.1 < cand.length)
    (hq : pq.2 < cand.length) : (compareExchange s cand pq).Perm cand := by
  simp only [compareExchange, List.getD_eq_getElem _ _ hp, List.getD_eq_getElem _ _ hq]
  split
  case isTrue => exact List.set_set_perm hp hq
  case isFalse => exact List.Perm.refl _

theorem sortNet_perm (s : State) {net : List (Nat × Nat)} {cand : List Byte}
    (hnet : ∀ pq ∈ net, pq.1 < cand.length ∧ pq.2 < cand.length) : (sortNet s net cand).Perm cand := by
  refine List.foldlRecOn (motive := (List.Perm · cand)) net _ (List.Perm.refl cand) fun l hl pq hpq => ?_
  obtain ⟨hp, hq⟩ := hnet pq hpq
  exact (compareExchange_perm s (hl.length_eq ▸ hp) (hl.length_eq ▸ hq)).trans hl

/-- Settles O51: each compare-exchange swaps two entries or none. -/
theorem networkPermutes : Obligations.NetworkPermutes := fun s _ _ hnet =>
  sortNet_perm s fun pq hpq => ⟨(hnet pq hpq).1.trans (hnet pq hpq).2, (hnet pq hpq).2⟩

/-! ### The 0-1 principle: a network on truth values -/

/-- A compare-exchange that puts `meet` of the two entries first and `join` of them second; none where a position lies
outside the list. -/
def exchangeBy {α : Type} (meet join : α → α → α) (l : List α) (pq : Nat × Nat) : List α :=
  match l[pq.1]?, l[pq.2]? with
  | some a, some b => (l.set pq.1 (meet a b)).set pq.2 (join a b)
  | _, _ => l

theorem exchangeBy_of_lt {α : Type} (meet join : α → α → α) {l : List α} {pq : Nat × Nat} (hp : pq.1 < l.length)
    (hq : pq.2 < l.length) :
    exchangeBy meet join l pq = (l.set pq.1 (meet l[pq.1] l[pq.2])).set pq.2 (join l[pq.1] l[pq.2]) := by
  simp only [exchangeBy, List.getElem?_eq_getElem hp, List.getElem?_eq_getElem hq]

/-- The candidate `i` is lighter than `t`. -/
def lighterThan (s : State) (t : FP) (i : Byte) : Bool := FP.lt t (lum s i)

/-- To ask of each candidate whether it is lighter than `t` turns a compare-exchange by lightness into one that puts the
conjunction first and the disjunction second. -/
theorem map_compareExchange (s : State) (t : FP) {cand : List Byte} {pq : Nat × Nat} (hp : pq.1 < cand.length)
    (hq : pq.2 < cand.length) (hnum : ∀ i ∈ cand, (lum s i).isNan = false) :
    (compareExchange s cand pq).map (lighterThan s t) = exchangeBy and or (cand.map (lighterThan s t)) pq := by
  rw [exchangeBy_of_lt _ _ (by simpa using hp) (by simpa using hq)]
  simp only [compareExchange, List.getD_eq_getElem _ _ hp, List.getD_eq_getElem _ _ hq, List.getElem_map]
  split
  case isTrue hlt =>
    have himp : lighterThan s t cand[pq.2] = true → lighterThan s t cand[pq.1] = true := (FP.lt_trans · hlt)
    rw [Bool.and_eq_right_iff_imp.mpr himp, Bool.or_eq_left_iff_imp.mpr himp, List.map_set, List.map_set]
  case isFalse hlt =>
    have himp : lighterThan s t cand[pq.1] = true → lighterThan s t cand[pq.2] = true := fun h =>
      (FP.lt_or_isNan_of_not_lt h (Bool.eq_false_iff.mpr hlt)).resolve_right
        (Bool.eq_false_iff.mp (hnum _ (List.getElem_mem hq)))
    rw [Bool.and_eq_left_iff_imp.mpr himp, Bool.or_eq_right_iff_imp.mpr himp, ← List.map_set, ← List.map_set,
      List.set_getElem_self, List.set_getElem_self]

/-- The same for a network: its compare-exchanges only permute, and so keep the length and the numbers. -/
theorem map_sortNet (s : State) (t : FP) {net : List (Nat × Nat)} {cand : List Byte}
    (hnet : ∀ pq ∈ net, pq.1 < cand.length ∧ pq.2 < cand.length) (hnum : ∀ i ∈ cand, (lum s i).isNan = false) :
    (sortNet s net cand).map (lighterThan s t) = net.foldl (exchangeBy and or) (cand.map (lighterThan s t)) := by
  induction net generalizing cand with
  | nil => rfl
  | cons pq net ih =>
    obtain ⟨⟨hp, hq⟩, hrest⟩ := List.forall_mem_cons.mp hnet
    have hperm := compareExchange_perm s hp hq
    rw [sortNet, List.foldl_cons, List.foldl_cons, ← map_compareExchange s t hp hq hnum]
    exact ih (hperm.length_eq ▸ hrest) fun i hi => hnum i (hperm.mem_iff.mp hi)

/-! ### All truth values at once: a network on truth tables -/

/-- The truth table of bit `i` over the numbers of `n` bits: its bit `k` is bit `i` of `k`. One more
bit doubles the tables of the others, and its own table is the upper half. -/
def bitTable : Nat → Nat → Nat
  | 0, _ => 0
  | n + 1, i => if i = n then 2 ^ 2 ^ n * (2 ^ 2 ^ n - 1) + 0 else 2 ^ 2 ^ n * bitTable n i + bitTable n i

theorem bitTable_lt (n i : Nat) : bitTable n i < 2 ^ 2 ^ n := by
  induction n with
  | zero => exact Nat.two_pow_pos _
  | succ n ih =>
    have hhalves {a b : Nat} (ha : a < 2 ^ 2 ^ n) (hb : b < 2 ^ 2 ^ n) : 2 ^ 2 ^ n * a + b < 2 ^ 2 ^ (n + 1) :=
      calc 2 ^ 2 ^ n * a + b < 2 ^ 2 ^ n * (a + 1) := Nat.add_lt_add_left hb _
        _ ≤ 2 ^ 2 ^ n * 2 ^ 2 ^ n := Nat.mul_le_mul_left _ ha
        _ = 2 ^ 2 ^ (n + 1) := by rw [← Nat.pow_add, ← Nat.two_mul, Nat.pow_succ']
    have hpos : 0 < 2 ^ 2 ^ n := Nat.two_pow_pos _
    unfold bitTable
    split
    case isTrue => exact hhalves (Nat.sub_one_lt_of_lt hpos) hpos
    case isFalse => exact hhalves ih ih

theorem testBit_bitTable {n i k : Nat} (hi : i < n) (hk : k < 2 ^ n) : (bitTable n i).testBit k = k.testBit i := by
  induction n generalizing k with
  | zero => omega
  | succ n ih =>
    rw [Nat.pow_succ] at hk
    unfold bitTable
    split
    case isTrue htop =>
      subst htop
      rw [Nat.testBit_two_pow_mul_add _ (Nat.two_pow_pos _)]
      split
      case isTrue hlow => rw [Nat.zero_testBit, Nat.testBit_lt_two_pow hlow]
      case isFalse hhigh =>
        obtain ⟨j, rfl⟩ := Nat.exists_eq_add_of_le (Nat.le_of_not_lt hhigh)
        have hj : j < 2 ^ i := by omega
        simp [Nat.testBit_two_pow_add_eq, Nat.testBit_lt_two_pow hj, hj]
    case isFalse htop =>
      have hin : i < n := by omega
      rw [Nat.testBit_two_pow_mul_add _ (bitTable_lt n i)]
      split
      case isTrue hlow => exact ih hin hlow
      case isFalse hhigh =>
        obtain ⟨j, rfl⟩ := Nat.exists_eq_add_of_le (Nat.le_of_not_lt hhigh)
        rw [Nat.add_sub_cancel_left, ih hin (by omega), Nat.testBit_two_pow_add_gt hin]

/-- The network run once on the truth tables of its `n` inputs, for all `2^n` lists of truth values. -/
def runTables (net : List (Nat × Nat)) (n : Nat) : List Nat :=
  net.foldl (exchangeBy Nat.land Nat.lor) ((List.range n).map (bitTable n))

theorem map_testBit_exchangeBy (l : List Nat) (k : Nat) (pq : Nat × Nat) :
    exchangeBy and or (l.map (·.testBit k)) pq = (exchangeBy Nat.land Nat.lor l pq).map (·.testBit k) := by
  simp only [exchangeBy, List.getElem?_map]
  cases l[pq.1]? with
  | none => rfl
  | some a =>
    cases l[pq.2]? with
    | none => rfl
    | some b =>
      have hand : (a.land b).testBit k = (a.testBit k && b.testBit k) := Nat.testBit_and a b k
      have hor : (a.lor b).testBit k = (a.testBit k || b.testBit k) := Nat.testBit_or a b k
      simp only [Option.map_some, List.map_set, hand, hor]

/-- Every list of truth values is a column of the tables, and the network runs on the column as on the tables. -/
theorem exists_column_of_run (net : List (Nat × Nat)) (v : List Bool) :
    ∃ k, net.foldl (exchangeBy and or) v = (runTables net v.length).map (·.testBit k) := by
  refine ⟨Nat.ofBits fun i : Fin v.length => v[i], ?_⟩
  have hcolumn : v = ((List.range v.length).map (bitTable v.length)).map
      (·.testBit (Nat.ofBits fun i : Fin v.length => v[i])) := by
    refine List.ext_getElem (by simp) fun i hi _ => ?_
    simp [testBit_bitTable hi (Nat.ofBits_lt_two_pow _), hi]
  conv_lhs => rw [hcolumn]
  exact List.foldl_hom _ fun l pq => map_testBit_exchangeBy l _ pq

/-! ### The default networks sort (R253, R254) -/

/-- The tables after the network rise: each is contained in every later one. -/
def tablesRise (net : List (Nat × Nat)) (n : Nat) : Bool :=
  decide ((runTables net n).Pairwise fun a b => a &&& b = a)

theorem tablesRise_net8 : tablesRise Config.net8 8 = true := by decide +kernel

theorem tablesRise_net16 : tablesRise Config.net16 16 = true := by decide +kernel

/-- A network whose tables rise sorts truth values. -/
theorem pairwise_run_of_tablesRise {net : List (Nat × Nat)} {v : List Bool} (h : tablesRise net v.length = true) :
    (net.foldl (exchangeBy and or) v).Pairwise fun a b => a = true → b = true := by
  obtain ⟨k, hk⟩ := exists_column_of_run net v
  rw [hk]
  refine (of_decide_eq_true h).map _ fun a b hab => ?_
  rw [← Bool.and_eq_left_iff_imp, ← Nat.testBit_and, hab]

/-- A network whose tables rise sorts candidates whose lightnesses are numbers: were one lighter than a later one,
asking which are lighter than the later one would give unsorted truth values. -/
theorem sortNet_sorts {net : List (Nat × Nat)} {n : Nat} (hnet : ∀ pq ∈ net, pq.1 < n ∧ pq.2 < n)
    (hrise : tablesRise net n = true) (s : State) {cand : List Byte} (hlen : cand.length = n)
    (hnum : ∀ i ∈ cand, (lum s i).isNan = false) {p q : Nat} (hpq : p < q) (hq : q < n) :
    FP.lt (lum s ((sortNet s net cand).getD q 0#8)) (lum s ((sortNet s net cand).getD p 0#8)) = false := by
  subst hlen
  have hlength : (sortNet s net cand).length = cand.length := (sortNet_perm s hnet).length_eq
  rw [List.getD_eq_getElem _ _ (by omega), List.getD_eq_getElem _ _ (by omega)]
  refine Bool.eq_false_iff.mpr fun hlt => ?_
  have hsorted := pairwise_run_of_tablesRise (net := net)
    (v := cand.map (lighterThan s (lum s (sortNet s net cand)[q]))) (by simpa using hrise)
  rw [← map_sortNet s _ hnet hnum, List.pairwise_map] at hsorted
  have hself : FP.lt _ _ = true := List.pairwise_iff_getElem.mp hsorted p q (by omega) (by omega) hpq hlt
  exact Bool.eq_false_iff.mp (FP.lt_irrefl _) hself

/-- Settles O52: the tables of 8 inputs rise after `NET8`. -/
theorem eightNetworkSorts : Obligations.EightNetworkSorts := fun s _ hlen hnum _ _ hpq hq =>
  sortNet_sorts (by decide) tablesRise_net8 s hlen hnum hpq hq

/-- Settles O53: the tables of 16 inputs rise after `NET16`. -/
theorem sixteenNetworkSorts : Obligations.SixteenNetworkSorts := fun s _ hlen hnum _ _ hpq hq =>
  sortNet_sorts (by decide) tablesRise_net16 s hlen hnum hpq hq

end Sys2Proof.Machine
end

section
/-! SUPPORT. Knoll and Knoll-Roberts pixel by pixel (45_dither_pattern.md R250, R257): the entry that the threshold of
the position picks from the sorted candidates. -/

namespace Sys2Proof.Machine

open Sys2Proof

/-- The Knoll-Roberts index with a remainder in the place of the two low bits of the integer (R256). -/
theorem krIndex_eq (x y : Nat) : krIndex x y = (krFloor x y % 4).toNat ^^^ ((x &&& 3) ||| ((y &&& 1) <<< 2)) := by
  rw [krIndex, BitVec.toNat_ofInt]
  rfl

/-- A dither that sorts the candidates of its snapped pixel, on a present frame: each index by the threshold of its
position, with the transparent shortcut before it (R191, R251, R252). -/
theorem exists_exec_pattern {i : Instr} {dm : DitherMethod} {f : BitVec 16} {s : State} {fr : Frame}
    {net : List (Nat × Nat)} {n : Nat} {strk : FP} {threshold : Nat → Nat → Nat} (hi : ditherOf i = some (dm, f))
    (hsnap : ∀ c, snapFor dm c = snap c)
    (hmethod : ditherMethod dm s =
      Method.pointwise fun x y c => (sortNet s net (candidates dm s c n strk)).getD (threshold x y) 0#8)
    (hv : s.valid = true) (hf : f.toNat < Config.maxFrames) (hfr : frameAt s f.toNat = some fr) (hwf : fr.wf = true) :
    ∃ t g, exec i s = .next t ∧ frameAt t f.toNat = some g ∧ t.work = s.work ∧
      ∀ x y, x < fr.width → y < fr.height →
        ∃ cand, IsCandidates s (getPixel fr x y) n strk cand ∧
          getIndex g x y =
            (if isOpaque (getPixel fr x y) = false ∧ palAt s 0 = 0#32 then 0#8
            else (sortNet s net cand).getD (threshold x y) 0#8) ∧
          getPixel g x y = palAt s (getIndex g x y).toNat := by
  obtain ⟨t, g, hexec, hd⟩ := exists_exec_dither hi hv hf hfr hwf
  have hwork : t.work = s.work :=
    reduceFrame_keeps_work (g := id) (hmethod ▸ Method.pointwise_keeps _ id) (exec_dither hi s ▸ hexec)
  rw [hmethod] at hd
  refine ⟨t, g, hexec, hd.frame, hwork, fun x y hx hy =>
    ⟨candidates dm s (getPixel fr x y) n strk, candidates_isCandidates (hsnap _) s n strk, ?_, hd.pixel x y hx hy⟩⟩
  simp only [hd.index x y hx hy, rasterIndex_pointwise, shortcut_iff]

/-- Settles O50: the two commands share one form, with 16 candidates and `TM16`, and with 8 and `TM8`. -/
theorem patternPixels : Obligations.PatternPixels := by
  intro f s fr hv hf hfr hwf
  refine ⟨?knoll, ?knollRoberts⟩
  case knoll =>
    exact exists_exec_pattern (i := .reduceKnoll f) (net := Config.net16) (n := 16)
      (threshold := fun x y => Config.tm16.getD (tm16Index x y) 0) rfl (fun _ => rfl) rfl hv hf hfr hwf
  case knollRoberts =>
    obtain ⟨t, g, hexec, hframe, hwork, hpixels⟩ :=
      exists_exec_pattern (i := .reduceKnollr f) (net := Config.net8) (n := 8) (threshold := tm8At) rfl
        (fun _ => rfl) rfl hv hf hfr hwf
    refine ⟨t, g, hexec, hframe, hwork, fun x y hx hy => ?_⟩
    have hpixel := hpixels x y hx hy
    have hkr := krIndex_lt x y
    rw [tm8At, krIndex_eq] at hpixel
    rw [krIndex_eq] at hkr
    exact ⟨hkr, hpixel⟩

end Sys2Proof.Machine
end

section
/-! SUPPORT. The refusals of the loads and the checks of a REDUCE before its loop (60_exceptions.md R272, R275, R276):
which condition each command meets first, and what it answers there. -/

namespace Sys2Proof.Machine

open Sys2Proof

/-! ### When a load is refused -/

/-- An input that passes the test of R151 for the fallback meets the range check next (R276 (3)). -/
theorem exec_exact_of_oversized {n : BitVec 16} {s : State} {src : List Word32} (hsrc : s.input = some src)
    (hlen2 : 2 ≤ src.length) (hn2 : 2 ≤ n.toNat) (h : 256 < src.length ∨ 256 < n.toNat) :
    exec (.exact n) s = .refused .operandRange := by
  have hshort : (src.length < 2 || n.toNat < 2) = false := by
    simp only [Bool.or_eq_false_iff, decide_eq_false_iff_not]
    omega
  have hlong : (src.length > 256 || n.toNat > 256) = true := by simpa using h
  show execExact n s = _
  simp only [execExact, hsrc, hshort, hlong, Bool.false_eq_true, if_false, if_true]

/-- A buffer that is missing or short, or a count outside 2 to 256 (R156). -/
theorem exec_preload_of_unusable {n : BitVec 16} {s : State}
    (h : s.input = none ∨ s.inMap = none ∨ n.toNat < 2 ∨ 256 < n.toNat ∨
      ∃ src, s.input = some src ∧ src.length < n.toNat) :
    exec (.preload n) s = .refused .operandRange := by
  show execPreload n s = _
  unfold execPreload
  split
  case h_1 src m hsrc hm =>
    have hrange : n.toNat < 2 ∨ 256 < n.toNat ∨ src.length < n.toNat := by simpa [hsrc, hm] using h
    exact if_pos (by simpa [or_assoc] using hrange)
  case h_2 => rfl

/-- The two checks of ANALYZE on a threshold that a word spells, the limit before the frames (R99, R157). -/
theorem exec_analyze_eq {v : Word32} (hv : v.toNat < 2 ^ 31) (l : BitVec 16) (s : State) :
    exec (.analyze l v) s =
      if l.toNat < 2 ∨ 256 < l.toNat then .refused .operandRange
      else (analyzedFrames s).elim (.refused .frameAbsent) fun frames => .next (analyzeFrames frames l.toNat v s) := by
  have hmsb : v.msb = false := by
    rw [BitVec.msb_eq_false_iff_two_mul_lt]
    omega
  show execAnalyze l v s = _
  cases hf : analyzedFrames s <;> simp [execAnalyze, hmsb, hf]

theorem exec_analyze_of_limit {l : BitVec 16} {v : Word32} {s : State} (hv : v.toNat < 2 ^ 31)
    (hl : l.toNat < 2 ∨ 256 < l.toNat) : exec (.analyze l v) s = .refused .operandRange := by
  rw [exec_analyze_eq hv, if_pos hl]

/-- One absent frame below `NFRM` leaves ANALYZE without its frames (R157). -/
theorem analyzedFrames_eq_none {s : State} {j : Nat} (hj : j < s.nfrm) (habsent : frameAt s j = none) :
    analyzedFrames s = none := by
  obtain ⟨before, after, hrange⟩ := List.append_of_mem (List.mem_range.mpr hj)
  simp [analyzedFrames, hrange, habsent]

theorem exec_analyze_of_absent {l : BitVec 16} {v : Word32} {s : State} (hv : v.toNat < 2 ^ 31) (h2 : 2 ≤ l.toNat)
    (h256 : l.toNat ≤ 256) (hf : analyzedFrames s = none) : exec (.analyze l v) s = .refused .frameAbsent := by
  rw [exec_analyze_eq hv, if_neg (by omega), hf, Option.elim_none]

/-- Settles O37, one refusal after the other. -/
theorem loadRefusals : Obligations.LoadRefusals :=
  ⟨fun _ _ _ => exec_exact_of_oversized, fun _ _ => exec_preload_of_unusable, fun _ _ _ => exec_analyze_of_limit,
    fun _ _ _ _ hv h2 h256 hj habsent => exec_analyze_of_absent hv h2 h256 (analyzedFrames_eq_none hj habsent)⟩

/-! ### A REDUCE before its loop -/

section Checks

variable {i : Instr} {dm : DitherMethod} {f : BitVec 16} {s : State}

/-- With a palette loaded, a slot at or past `MAX_FRAMES` is refused whatever the frame store holds (R276 (2)). -/
theorem exec_dither_of_maxFrames_le (hi : ditherOf i = some (dm, f)) (hv : s.valid = true)
    (hf : Config.maxFrames ≤ f.toNat) : exec i s = .refused .operandRange := by
  rw [exec_dither hi, reduceFrame_eq, if_pos hv, if_neg (Nat.not_lt.mpr hf)]

/-- The null frame is no fault (R272). -/
theorem exec_dither_of_absent (hi : ditherOf i = some (dm, f)) (hv : s.valid = true) (hf : f.toNat < Config.maxFrames)
    (habsent : frameAt s f.toNat = none) : exec i s = .next s := by
  rw [exec_dither hi]
  exact reduceFrame_next_iff.mpr ⟨hv, hf, .inl ⟨habsent, rfl⟩⟩

theorem Frame.isEmpty_iff {fr : Frame} : fr.isEmpty = true ↔ fr.width = 0 ∨ fr.height = 0 := by
  simp [isEmpty]

theorem dithered_of_isEmpty {fr : Frame} (h : fr.isEmpty = true) (m : Method) (slot : Nat) (s : State) :
    dithered m slot fr s = s :=
  if_pos h

/-- A frame without pixels: neither the frame nor the working state changes (R63; assumption log 8). -/
theorem exec_dither_of_isEmpty {fr : Frame} (hi : ditherOf i = some (dm, f)) (hv : s.valid = true)
    (hf : f.toNat < Config.maxFrames) (hfr : frameAt s f.toNat = some fr) (hempty : fr.isEmpty = true) :
    exec i s = .next s := by
  rw [exec_dither hi]
  exact reduceFrame_next_iff.mpr ⟨hv, hf, .inr ⟨fr, hfr, (dithered_of_isEmpty hempty ..).symm⟩⟩

end Checks

/-- Settles O41, check by check in the order of R276 (2). -/
theorem reduceChecks : Obligations.ReduceChecks := by
  intro i dm f s hi
  refine ⟨exec_refused_notLoaded (Option.isSome_of_eq_some hi), fun hv h => ?slot, fun fr hv hf hfr hsize => ?noPixels⟩
  case slot =>
    split
    case isTrue hf => exact exec_dither_of_absent hi hv hf (h.resolve_left (Nat.not_le.mpr hf))
    case isFalse hf => exact exec_dither_of_maxFrames_le hi hv (Nat.not_lt.mp hf)
  case noPixels => exact exec_dither_of_isEmpty hi hv hf hfr (Frame.isEmpty_iff.mpr hsize)

end Sys2Proof.Machine
end

section
/-! SUPPORT. Reset and the bring-up order (70_reset_and_hazards.md R300, R303): of what SETDS writes a load reads `DS`
alone, and that in its finish step alone, so the two may come in either order. -/

namespace Sys2Proof.Machine

open Sys2Proof

/-! ### What a load reads -/

/-- The states `s` and `u` agree on what HOST fills for a load: `IN`, `INMAP`, `NFRM` and the frames (R303). -/
structure SameSources (s u : State) : Prop where
  input : u.input = s.input
  inMap : u.inMap = s.inMap
  nfrm : u.nfrm = s.nfrm
  frm : u.frm = s.frm

theorem SameSources.refl (s : State) : SameSources s s := ⟨rfl, rfl, rfl, rfl⟩

theorem sameSources_setStrength (s : State) (d : FP) (g : Memory 32) : SameSources s (s.setStrength d g) :=
  ⟨rfl, rfl, rfl, rfl⟩

theorem SameSources.analyzedFrames {s u : State} (h : SameSources s u) :
    Machine.analyzedFrames u = Machine.analyzedFrames s := by
  have hframe : frameAt u = frameAt s := funext fun f => congrArg (Store.find · f) h.frm
  rw [Machine.analyzedFrames, hframe, h.nfrm, Machine.analyzedFrames]

/-- On every state with the sources of `s`, the command `i` answers the finish step of one palette, index and count. -/
def FinishesAlike (i : Instr) (s : State) : Prop :=
  ∃ pal map cc, ∀ u, SameSources s u → exec i u = .next (finishLoad pal map cc u)

/-- EXACT chooses between the fallback, the refusal and its loop by `IN` and `n` (R150, R151). -/
theorem exec_exact_finishesAlike {n : BitVec 16} {s a : State} (h : exec (.exact n) s = .next a) :
    FinishesAlike (.exact n) s := by
  by_cases hfallback : s.input = none ∨ (∃ src, s.input = some src ∧ src.length < 2) ∨ n.toNat < 2
  · exact ⟨_, _, _, fun u hu =>
      (exec_exact_of_unusable (by rwa [hu.input])).trans (congrArg _ (loadHaltonic_loaded u).state)⟩
  · obtain ⟨hpresent, hlong, hn2⟩ :
        s.input ≠ none ∧ (∀ src, s.input = some src → 2 ≤ src.length) ∧ 2 ≤ n.toNat := by
      simpa [Nat.succ_le_iff] using hfallback
    obtain ⟨src, hsrc⟩ := Option.ne_none_iff_exists'.mp hpresent
    have hlen2 := hlong src hsrc
    by_cases hbig : 256 < src.length ∨ 256 < n.toNat
    · cases h.symm.trans (exec_exact_of_oversized hsrc hlen2 hn2 hbig)
    · exact ⟨_, _, _, fun u hu =>
        exec_exact_of_usable (hu.input.trans hsrc) hlen2 (by omega) hn2 (by omega)⟩

/-- PRELOAD copies from `IN` and `INMAP` (R156). -/
theorem exec_preload_finishesAlike {n : BitVec 16} {s a : State} (h : exec (.preload n) s = .next a) :
    FinishesAlike (.preload n) s := by
  obtain ⟨src, m, hsrc, hm, hl⟩ := execPreload_loaded h
  have hlen : n.toNat ≤ src.length := by
    by_contra hshort
    cases h.symm.trans (exec_preload_of_unusable (.inr (.inr (.inr (.inr ⟨src, hsrc, not_le.mp hshort⟩)))))
  exact ⟨_, _, _, fun u hu =>
    exec_preload_of_usable (hu.input.trans hsrc) (hu.inMap.trans hm) hl.two_le hl.le_256 hlen⟩

/-- ANALYZE answers just where it passes its three checks (R99, R157). -/
theorem execAnalyze_next_iff {l : BitVec 16} {v : Word32} {s t : State} :
    execAnalyze l v s = .next t ↔ v.msb = false ∧ (2 ≤ l.toNat ∧ l.toNat ≤ 256) ∧
      ∃ frames, analyzedFrames s = some frames ∧ t = analyzeFrames frames l.toNat v s := by
  unfold execAnalyze
  split
  case isTrue hv => simp [hv]
  case isFalse hv =>
    have hmsb : v.msb = false := Bool.eq_false_of_not_eq_true hv
    split
    case isTrue hl =>
      have hout : ¬ (2 ≤ l.toNat ∧ l.toNat ≤ 256) := by
        simp only [Bool.or_eq_true, decide_eq_true_eq] at hl
        omega
      simp [hout]
    case isFalse hl =>
      have hin : 2 ≤ l.toNat ∧ l.toNat ≤ 256 := by simpa [Nat.succ_le_iff] using hl
      cases analyzedFrames s with
      | none => simp
      | some frames => simp [hmsb, hin, eq_comm]

/-- The tally of the frames decides between the fallback and the selected colours (R160, R161). -/
theorem analyzeFrames_eq_finishLoad (frames : List Frame) (limit : Nat) (threshold : Word32) :
    ∃ pal map cc, ∀ u, analyzeFrames frames limit threshold u = finishLoad pal map cc u := by
  by_cases hearly : earlyExit (frames.foldl tallyFrame ⟨[], false⟩) = true
  · exact ⟨_, _, _, fun u => (if_pos hearly).trans (loadHaltonic_loaded u).state⟩
  · exact ⟨_, _, _, fun u => if_neg hearly⟩

/-- ANALYZE reads `NFRM` and the frames (R157). -/
theorem exec_analyze_finishesAlike {l : BitVec 16} {v : Word32} {s a : State} (h : exec (.analyze l v) s = .next a) :
    FinishesAlike (.analyze l v) s := by
  obtain ⟨hv, hl, frames, hframes, -⟩ := execAnalyze_next_iff.mp h
  obtain ⟨pal, map, cc, hfinish⟩ := analyzeFrames_eq_finishLoad frames l.toNat v
  exact ⟨pal, map, cc, fun u hu =>
    execAnalyze_next_iff.mpr ⟨hv, hl, frames, hu.analyzedFrames.trans hframes, (hfinish u).symm⟩⟩

/-- A load that answers takes its palette, index and count from its sources alone. -/
theorem exec_load_finishesAlike {i : Instr} {s a : State} (hi : loadsPalette i = true) (h : exec i s = .next a) :
    FinishesAlike i s := by
  cases i with
  | exact n => exact exec_exact_finishesAlike h
  | preload n => exact exec_preload_finishesAlike h
  | analyze l v => exact exec_analyze_finishesAlike h
  | setds | seta | shrink | stretch | diff | diff3 | reduce | reduceSolid | reduceFs | reduceSierra | reduceScatter
  | reduceJimenez | reduceBlue | reduceChaotic | reduceKnoll | reduceKnollr => cases hi

/-! ### The bring-up order (R303) -/

/-- The finish step and the answer of SETDS commute: the one that comes second leaves the gamma table of the loaded
palette and the new strength (R153, R164). -/
theorem finishLoad_setStrength_comm (pal : Memory 32) (map : Memory 8) (cc : Nat) (d : FP) (s : State) :
    finishLoad pal map cc (s.setStrength d (gammaTable d s.pal)) =
      (finishLoad pal map cc s).setStrength d (gammaTable d (finishLoad pal map cc s).pal) := rfl

/-- Settles O39: a SETDS before the load leaves its sources, and the two answers commute. -/
theorem setdsCommutesWithLoads : Obligations.SetdsCommutesWithLoads := by
  intro i v s a b hi ha hb
  obtain ⟨hfinite, rfl⟩ := execSetds_next hb
  obtain ⟨pal, map, cc, hload⟩ := exec_load_finishesAlike hi ha
  obtain rfl : finishLoad pal map cc s = a := by simpa [ha, eq_comm] using hload s (.refl s)
  refine ⟨_, exec_setds_of_finite _ hfinite, ?_⟩
  rw [hload _ (sameSources_setStrength ..), finishLoad_setStrength_comm]

/-! ### Reset (R300) -/

/-- Settles O13: reset's fields, and reads of empty memories. -/
theorem resetValues : Obligations.ResetValues :=
  ⟨rfl, rfl, rfl, fun n => Memory.read_nil n, fun k => Memory.read_nil k.toNat, fun n => Memory.read_nil n,
    rfl, rfl, rfl, rfl⟩

/-- Settles O15: the two invariants at the start of every run. -/
theorem resetIsGood : Obligations.ResetIsGood := ⟨reset_storesWf, reset_paletteOk⟩

end Sys2Proof.Machine
end
